-- ==== Sys2Proof/Word.lean ====
section
/-!
DEFINITION. Words and bytes.
Bits are numbered from the least significant end, bit 0 (00_scope.md R8).
-/
namespace Sys2Proof

/-- A 32-bit word: the unit of the bus and of the hash (R8, R62). -/
abbrev Word := BitVec 32

/-- A byte: a message byte (R92), an opcode byte, an error code. -/
abbrev Byte := BitVec 8

end Sys2Proof
end

