-- ==== Sys2Proof/Syntax.lean ====
section
/-!
DEFINITION. The commands: one constructor per row of spec/opcode_table.json (30_encoding.md R95).
-/
namespace Sys2Proof

/-- The two registers whose write starts a command (30_encoding.md R90): CMD at offset 0x000, and
MSGW at offset 0x00C, whose whole word is data (R94). -/
inductive Port where
  | cmd
  | msgw
deriving DecidableEq, Repr

/-- The command set (R95). Operands are the fields of the formats R91 to R94: message bytes, and the
sign bit `neg` of format S. -/
inductive Instr where
  | srst
  | hstart
  | hpush1 (b0 : Byte)
  | hpush2 (b0 b1 : Byte)
  | hpush3 (b0 b1 b2 : Byte)
  | hfinal
  | hpush4 (b0 b1 b2 b3 : Byte)
  | modinv (neg : Bool)
  | modred (neg : Bool)
  | keygen
  | keyload
  | sign
  | verify
deriving DecidableEq, Repr

end Sys2Proof
end

