-- ==== Sys2Proof/WellFormed.lean ====
section
/-!
DEFINITION. Which command words are well formed: the table of R95 as mask and match, and the check
of a word against it (30_encoding.md R95, R96).

The operands of `Instr` are bytes and one bit, so every term of `Instr` is an instruction the formats
admit; what can be ill formed is a WORD: an opcode byte that R95 does not list, or a must-be-zero
field that is not zero. The check is written from the mask and match columns, apart from the decoding
procedure R98 in Decode.lean, so that the two can be held against each other.
-/
namespace Sys2Proof

/-- One row of the table of R95: the mnemonic, the port, and the two numbers of the columns
mask and match. -/
structure OpcodeRow where
  mnemonic : String
  port     : Port
  mask     : Word
  pattern  : Word
deriving DecidableEq, Repr

/-- The table of R95, row by row. -/
def opcodeTable : List OpcodeRow :=
  [ ⟨"SRST",    .cmd,  0xFFFFFFFF, 0x01000000⟩,
    ⟨"HSTART",  .cmd,  0xFFFFFFFF, 0x10000000⟩,
    ⟨"HPUSH1",  .cmd,  0xFFFFFF00, 0x11000000⟩,
    ⟨"HPUSH2",  .cmd,  0xFFFF0000, 0x12000000⟩,
    ⟨"HPUSH3",  .cmd,  0xFF000000, 0x13000000⟩,
    ⟨"HFINAL",  .cmd,  0xFFFFFFFF, 0x14000000⟩,
    ⟨"HPUSH4",  .msgw, 0x00000000, 0x00000000⟩,
    ⟨"MODINV",  .cmd,  0xFFFFFFFE, 0x20000000⟩,
    ⟨"MODRED",  .cmd,  0xFFFFFFFE, 0x21000000⟩,
    ⟨"KEYGEN",  .cmd,  0xFFFFFFFF, 0x30000000⟩,
    ⟨"KEYLOAD", .cmd,  0xFFFFFFFF, 0x31000000⟩,
    ⟨"SIGN",    .cmd,  0xFFFFFFFF, 0x32000000⟩,
    ⟨"VERIFY",  .cmd,  0xFFFFFFFF, 0x33000000⟩ ]

/-- "a word `c` written to CMD is the command of a row when `(c and mask) = match`" (R95). -/
def OpcodeRow.matchesWord (row : OpcodeRow) (p : Port) (c : Word) : Bool :=
  decide (row.port = p) && decide (c &&& row.mask = row.pattern)

/-- The word is a command of the table when written to that port; otherwise it is illegal (R96). -/
def wellFormedWord (p : Port) (c : Word) : Bool := opcodeTable.any (·.matchesWord p c)

end Sys2Proof
end

