-- ==== Sys2Proof/Decode.lean ====
section
/-!
DEFINITION. Decoding (30_encoding.md R98), total on every word of either port, and the encoder
written from the formats R91 to R94.
-/
namespace Sys2Proof

/-- Why a word written to CMD is illegal (R96): its opcode byte is not in the table, or its opcode
is listed and its `zero` field is not 0. Both are executed alike (43_control.md R203). -/
inductive Illegal where
  | unassignedOpcode
  | nonZeroField
deriving DecidableEq, Repr

/-- Bits 31:24 of a word, the field `op` (R90). -/
def opField (c : Word) : Byte := c.extractLsb' 24 8

/-- Bits 23:16. -/
def field2 (c : Word) : Byte := c.extractLsb' 16 8

/-- Bits 15:8. -/
def field1 (c : Word) : Byte := c.extractLsb' 8 8

/-- Bits 7:0. -/
def field0 (c : Word) : Byte := c.extractLsb' 0 8

/-- The instruction when the `zero` field is 0, else the rejection (R96). -/
def whenZero (zeroFieldIsZero : Bool) (i : Instr) : Except Illegal Instr :=
  if zeroFieldIsZero then .ok i else .error .nonZeroField

/-- `Decode(c)` of R98, for a word written to CMD. -/
def decodeCmd (c : Word) : Except Illegal Instr :=
  let op := opField c
  let low : BitVec 24 := c.extractLsb' 0 24
  if op = 0x01 then whenZero (low = 0) .srst
  else if op = 0x10 then whenZero (low = 0) .hstart
  else if op = 0x11 then whenZero (low.extractLsb' 8 16 = (0 : BitVec 16)) (.hpush1 (field0 c))
  else if op = 0x12 then whenZero (low.extractLsb' 16 8 = (0 : BitVec 8)) (.hpush2 (field1 c) (field0 c))
  else if op = 0x13 then .ok (.hpush3 (field2 c) (field1 c) (field0 c))
  else if op = 0x14 then whenZero (low = 0) .hfinal
  else if op = 0x20 then whenZero (low.extractLsb' 1 23 = (0 : BitVec 23)) (.modinv (c.getLsbD 0))
  else if op = 0x21 then whenZero (low.extractLsb' 1 23 = (0 : BitVec 23)) (.modred (c.getLsbD 0))
  else if op = 0x30 then whenZero (low = 0) .keygen
  else if op = 0x31 then whenZero (low = 0) .keyload
  else if op = 0x32 then whenZero (low = 0) .sign
  else if op = 0x33 then whenZero (low = 0) .verify
  else .error .unassignedOpcode

/-- A word written to MSGW decodes to HPUSH4 always (R94, R98). -/
def decodeMsgw (c : Word) : Instr := .hpush4 (opField c) (field2 c) (field1 c) (field0 c)

/-- Decoding by port. -/
def decode (p : Port) (c : Word) : Except Illegal Instr :=
  match p with
  | .cmd => decodeCmd c
  | .msgw => .ok (decodeMsgw c)

/-- Format Z (R91): `op`, then 24 bits 0. -/
def formatZ (op : Byte) : Word := op ++ (0 : BitVec 24)

/-- Format S (R93): `op`, 23 bits 0, `neg`. -/
def formatS (op : Byte) (neg : Bool) : Word := op ++ (0 : BitVec 23) ++ BitVec.ofBool neg

/-- The port and the word of an instruction (formats R91 to R94, opcodes R95). -/
def encode : Instr → Port × Word
  | .srst => (.cmd, formatZ 0x01)
  | .hstart => (.cmd, formatZ 0x10)
  | .hpush1 b0 => (.cmd, (0x11 : Byte) ++ (0 : BitVec 16) ++ b0)
  | .hpush2 b0 b1 => (.cmd, (0x12 : Byte) ++ (0 : BitVec 8) ++ b0 ++ b1)
  | .hpush3 b0 b1 b2 => (.cmd, (0x13 : Byte) ++ b0 ++ b1 ++ b2)
  | .hfinal => (.cmd, formatZ 0x14)
  | .hpush4 b0 b1 b2 b3 => (.msgw, b0 ++ b1 ++ b2 ++ b3)
  | .modinv neg => (.cmd, formatS 0x20 neg)
  | .modred neg => (.cmd, formatS 0x21 neg)
  | .keygen => (.cmd, formatZ 0x30)
  | .keyload => (.cmd, formatZ 0x31)
  | .sign => (.cmd, formatZ 0x32)
  | .verify => (.cmd, formatZ 0x33)

/-- The port by which the instruction of a table word reaches the machine. A word of the table does
not say its port: a word that is a command of CMD is read as that command, and every other word can
only be HPUSH4's (R94, R95). DESIGN CHOICE, safe (log entry 9). -/
def portOfTableWord (c : Word) : Port := if wellFormedWord .cmd c then .cmd else .msgw

/-- A table word as 32 bits: every bit above `nbits` is 0 (one length, 32 bits: R90). -/
def tableWord (nbits w : Nat) : Word := BitVec.ofNat 32 (w % 2 ^ nbits)

/-- The instruction the decoder reads from a word numbered as spec/opcode_table.json numbers it. -/
def decodeTableWord (nbits w : Nat) : Option Instr :=
  match decode (portOfTableWord (tableWord nbits w)) (tableWord nbits w) with
  | .ok i => some i
  | .error _ => none

end Sys2Proof
end

