-- ==== Sys2Proof/Config.lean ====
section
/-!
DEFINITION. What the platform fixes (00_scope.md R5, R47) and what is free.
The parameters are plain data, so that a state that carries them can be compared and written out.
What no datum gives (an answer of GRP that no table lists, a draw that was not supplied) is an
opaque constant: nothing can be proved of its value.
-/
namespace Sys2Proof

/-- A group element as it travels between CORE and GRP: `(x, y, cid)` (42_signature.md R161). -/
structure GroupElement where
  x   : Nat
  y   : Nat
  cid : Word
deriving DecidableEq, Repr, Inhabited

/-- The collaborator GRP as plain data (R6, R162): the order and the base point, and for the three
requests with arguments the answers that are known. A request that a table does not list is answered
by the opaque constants below. Whatever the tables hold, each request is a pure function (R6(a)) and
is answered (R6(d)). -/
structure Grp where
  order   : Int
  base    : GroupElement
  add     : List ((GroupElement × GroupElement) × GroupElement)
  mul     : List ((Nat × GroupElement) × GroupElement)
  onCurve : List (GroupElement × Bool)
deriving DecidableEq, Repr

/-- The parameters of R5: NW (so NBITS = 32 * NW), RETRY_CAP, BASE and Grp. -/
structure Params where
  nw       : Nat
  retryCap : Nat
  base     : Nat
  grp      : Grp
deriving DecidableEq, Repr

/-- NBITS, the width of every big-integer register (R5, 10_state.md R27). -/
def Params.nbits (p : Params) : Nat := 32 * p.nw

/-- The constraints R5 lays on the numeric parameters. -/
def Params.legal (p : Params) : Bool :=
  decide (1 ≤ p.nw) && decide (p.nw ≤ 32) && decide (1 ≤ p.retryCap) && decide (p.retryCap ≤ 2 ^ 24 - 1)
    && decide (p.base % 4096 = 0)

/-- FREE VALUE: the answer of addPoints where no table lists it (R162, log entry 5). -/
opaque Config.freeAdd : GroupElement → GroupElement → GroupElement

/-- FREE VALUE: the answer of scalarMultiply where no table lists it (R162, log entry 5). -/
opaque Config.freeMul : Nat → GroupElement → GroupElement

/-- FREE VALUE: the answer of isOnCurve where no table lists it (R162, log entry 5). -/
opaque Config.freeOnCurve : GroupElement → Bool

/-- FREE VALUE: the group order of the machine after reset (R5, log entry 5). -/
opaque Config.freeOrder : Int

/-- FREE VALUE: the base point of the machine after reset (R5, log entry 5). -/
opaque Config.freeBase : GroupElement

/-- FREE VALUE: RNG's answer to its draw number `k` with the bound `n`, where none was supplied:
a failure (`none`) or any integer (R7, log entry 6). -/
opaque Config.freeDraw (k : Nat) (n : Nat) : Option Int

/-- The parameters of `State.reset`. DESIGN CHOICE (log entry 4): R5 leaves the three numbers open;
these are the ones of the example in 10_state.md R38 with BASE = 0. No statement rests on them. -/
def Config.params : Params :=
  { nw := 8, retryCap := 4, base := 0
    grp := { order := Config.freeOrder, base := Config.freeBase, add := [], mul := [], onCurve := [] } }

end Sys2Proof
end

