-- ==== Sys2Proof/Machine/Rom.lean ====
section
/-!
DEFINITION. The hash constants: a ROM that no command can write (10_state.md R47).
-/
namespace Sys2Proof.Machine

/-- Five 32-bit words: the engine state H0..H4 (10_state.md R21), and the working variables
a, b, c, d, e of one block (41_hash.md R137). -/
structure Chain where
  h0 : Word
  h1 : Word
  h2 : Word
  h3 : Word
  h4 : Word
deriving DecidableEq, Repr

/-- `H_INIT[0..4]` (41_hash.md R131). -/
def hInit : Chain := ⟨0x67452301, 0xEFCDAB89, 0x98BADCFE, 0x10325476, 0xC3D2E1F0⟩

/-- `K_CONST[0..3]` (41_hash.md R136). -/
def kConst (i : Nat) : Word :=
  match i with
  | 0 => 0x5A827999
  | 1 => 0x6ED9EBA1
  | 2 => 0x8F1BBCDC
  | _ => 0xCA62C1D6

end Sys2Proof.Machine
end

