-- ==== Sys2Proof/Machine/State.lean ====
section
/-!
DEFINITION. The state of CDL-CORE (10_state.md R20), the host's side of the bus, and reset.
-/
namespace Sys2Proof.Machine

/-- The size of an access as the bus presents it: only `b32` is accepted (20_memory.md R62). -/
inductive AccessSize where
  | b8
  | b16
  | b32
  | b64
  | burst
deriving DecidableEq, Repr

/-- A read, or a write of a word. The data of a write that is not 32 bits wide is never used. -/
inductive AccessKind where
  | read
  | write (v : Word)
deriving DecidableEq, Repr

/-- One bus transaction of the host: the bus address, the size and the direction (20_memory.md R62,
R75). Masters are not told apart (R74). -/
structure BusAccess where
  addr : Nat
  size : AccessSize
  kind : AccessKind
deriving DecidableEq, Repr

/-- What the outside does to the core, in the order of arrival (20_memory.md R69): a transaction, or
the reset event (70_reset_and_hazards.md R240), which comes between transactions or while a command runs. -/
inductive HostEvent where
  | access (a : BusAccess)
  | reset
  /-- The reset event while the command runs that the write of `c` to the port starts, when RNG has
  answered `taken` of its draws (all of them, where it makes fewer). DESIGN CHOICE (log entry 16). -/
  | resetDuring (port : Port) (c : Word) (taken : Nat)
deriving DecidableEq, Repr

/-- How a transaction ends (00_scope.md R13): a read that is OK returns a 32-bit value. -/
inductive BusOutcome where
  | okRead (v : Word)
  | okWrite
  | busErr
deriving DecidableEq, Repr

/-- The errors of commands (60_exceptions.md R211), in the order of their codes 1 to 10. -/
inductive Err where
  | invalidModulus
  | noInverseExists
  | divisionByZero
  | retryExhausted
  | rngFailure
  | illegalCommand
  | sequenceError
  | keyRange
  | invalidPublicKey
  | msgTooLong
deriving DecidableEq, Repr

/-- The nine big-integer registers (10_state.md R27), in the order of their windows (20_memory.md R61). -/
inductive BigReg where
  | a
  | m
  | t
  | n
  | d
  | qx
  | qy
  | r
  | s
deriving DecidableEq, Repr

/-- The state. The fields from `h` to `lastrv` are the tuple of R20, one field a row. `cfg` holds the
parameters (R5, R47), which no step changes. The last four fields are the model's own: RNG's supplied
answers and the number of draws it has answered, the host's waiting events, and the outcome of the
last transaction. -/
structure State where
  cfg       : Params
  /-- H0..H4 (R21). -/
  h         : Chain
  /-- The BCNT bytes held in MBUF, oldest first; BCNT is the length (R22). -/
  mbuf      : List Byte
  /-- LEN, in bits (R23). -/
  len       : BitVec 64
  hashing   : Bool
  dvalid    : Bool
  regA      : Nat
  regM      : Nat
  regT      : Nat
  regN      : Nat
  regD      : Nat
  regQX     : Nat
  regQY     : Nat
  qcid      : Word
  regR      : Nat
  regS      : Nat
  keyst     : Bool
  vres      : Bool
  malf      : Bool
  rrep      : Bool
  errf      : Bool
  errcode   : Byte
  lastop    : Byte
  /-- LASTR and LASTRV, hidden (R42). -/
  lastr     : Nat
  lastrv    : Bool
  /-- RNG's supplied answers, oldest first: `none` is the answer `fail` (42_signature.md R163). -/
  draws     : List (Option Int)
  /-- How many draws RNG has answered: the argument of the free draws (log entry 6). -/
  drawCount : Nat
  /-- The host's events that wait, in the order of delivery (20_memory.md R69). -/
  pending   : List HostEvent
  /-- How the last transaction ended; `none` when there was none. -/
  resp      : Option BusOutcome
deriving DecidableEq, Repr

/-- No step of CDL-CORE faults: "There is no third outcome: CDL-CORE has no hang, no trap vector and
no undefined command" (00_scope.md R13). So the type has no constructor, nothing raises one, and that
no step faults holds by the type. -/
inductive Fault
deriving DecidableEq, Repr

/-- Refusals. -/
inductive Refusal where
  /-- An instruction without a meaning. Raised by nothing: every instruction has its meaning. Safe. -/
  | notModelled (mnemonic : String)
deriving DecidableEq, Repr

/-- The outcome of a meaning or a step. -/
abbrev Result := Host.Outcome State Fault Refusal

/-- The state after reset for any parameters: the table of 10_state.md R46. The four fields of the
model's own are empty. DESIGN CHOICE for those four (log entries 2 and 6). -/
def State.resetWith (p : Params) : State :=
  { cfg := p
    h := hInit, mbuf := [], len := 0, hashing := false, dvalid := false
    regA := 0, regM := 0, regT := 0, regN := 0, regD := 0, regQX := 0, regQY := 0, qcid := 0
    regR := 0, regS := 0, keyst := false
    vres := false, malf := false, rrep := false, errf := false, errcode := 0, lastop := 0
    lastr := 0, lastrv := false
    draws := [], drawCount := 0, pending := [], resp := none }

/-- The machine right after reset (R46, 70_reset_and_hazards.md R240), with the parameters of Config. -/
def State.reset : State := State.resetWith Config.params

end Sys2Proof.Machine
end

