-- ==== Sys2Proof/Machine/Arith.lean ====
section
/-!
DEFINITION. The functions of the modular arithmetic unit: `Mod` and `ModInverse` (40_modarith.md R110
to R114). They are pure; the commands and the signature unit call them.
-/
namespace Sys2Proof.Machine

/-- `Mod(a, m)` of R110 for `m > 0`: the floored modulus, never negative. -/
def modInt (a m : Int) : Int := a % m

/-- `Mod` of a natural number, as a natural number (the range `[0, m)` of R110 makes it one). -/
def modNat (a m : Nat) : Nat := (modInt a m).toNat

/-- The loop of R113 on `(old_r, r)` and `(old_t, t)`. The fuel bounds the number of passes. -/
def euclidLoop : Nat → Int → Int → Int → Int → Int × Int
  | 0, oldR, _, oldT, _ => (oldR, oldT)
  | fuel + 1, oldR, r, oldT, t =>
    if r = 0 then (oldR, oldT)
    else
      let q := oldR / r
      euclidLoop fuel r (oldR - q * r) t (oldT - q * t)

/-- The loop of R113 from its start. After the first pass `r` is below `m` and strictly decreases
(R113), so `m + 1` passes are enough to reach `r = 0`. DEDUCED, safe (log entry 10). -/
def euclid (a0 m : Int) : Int × Int := euclidLoop (m.toNat + 2) a0 m 1 0

/-- `ModInverse(a, m)` of R113: the checks in the order written, the two normalisations, the loop. -/
def modInverse (a m : Int) : Except Err Nat :=
  if m ≤ 0 then .error .invalidModulus
  else if m = 1 then .error .invalidModulus
  else if a = 0 then .error .divisionByZero
  else if (euclid (modInt a m) m).1 ≠ 1 then .error .noInverseExists
  else .ok (modInt (euclid (modInt a m) m).2 m).toNat

end Sys2Proof.Machine
end

