-- ==== Sys2Proof/Machine/Sha.lean ====
section
/-!
DEFINITION. The hash construction as pure functions (41_hash.md sections 1 and 2): padding, message
schedule, rounds, fold, and the whole hash.
-/
namespace Sys2Proof.Machine

/-- `rotl32(x, n)` for `1 ≤ n ≤ 31` (00_scope.md R11). -/
def rotl32 (x : Word) (n : Nat) : Word := (x <<< n) ||| (x >>> (32 - n))

/-- Four bytes as a big-endian word (20_memory.md R65(a)). -/
def be32 (b0 b1 b2 b3 : Byte) : Word := b0 ++ b1 ++ b2 ++ b3

/-- The eight bytes of `be64(L)`, most significant first (R132). -/
def be64 (l : BitVec 64) : List Byte :=
  [l.extractLsb' 56 8, l.extractLsb' 48 8, l.extractLsb' 40 8, l.extractLsb' 32 8,
   l.extractLsb' 24 8, l.extractLsb' 16 8, l.extractLsb' 8 8, l.extractLsb' 0 8]

/-- `z` of R132: the least `z ≥ 0` with `(n + 1 + z) mod 64 = 56`, which is `(55 - n) mod 64`. -/
def padZeros (n : Nat) : Nat := (119 - n % 64) % 64

/-- What follows the last `n` message bytes: 0x80, `z` zero bytes, the bit length (R132, R147). -/
def padding (n : Nat) (l : BitVec 64) : List Byte :=
  (0x80 : Byte) :: (List.replicate (padZeros n) (0 : Byte) ++ be64 l)

/-- `Pad(msg)` of R132. -/
def pad (msg : List Byte) : List Byte := msg ++ padding msg.length (BitVec.ofNat 64 (8 * msg.length))

/-- The big-endian words of a block, in order (R133). -/
def splitWords : List Byte → List Word
  | b0 :: b1 :: b2 :: b3 :: rest => be32 b0 b1 b2 b3 :: splitWords rest
  | _ => []

/-- The next schedule word from the earlier ones, newest first: `w[i-3]`, `w[i-8]`, `w[i-14]`,
`w[i-16]` are the entries 2, 7, 13, 15 (R134). -/
def nextWord (newestFirst : List Word) : Word :=
  rotl32 (newestFirst.getD 2 0 ^^^ newestFirst.getD 7 0 ^^^ newestFirst.getD 13 0 ^^^ newestFirst.getD 15 0) 1

/-- `k` steps of the schedule extension, on the list with the newest word first (R134). -/
def extendWords : Nat → List Word → List Word
  | 0, ws => ws
  | k + 1, ws => extendWords k (nextWord ws :: ws)

/-- The schedule `w[0..79]` of a block (R133, R134). -/
def schedule (block : List Byte) : List Word := (extendWords 64 (splitWords block).reverse).reverse

/-- The round function `f(t, b, c, d)` of R135. -/
def roundF (t : Nat) (b c d : Word) : Word :=
  if t < 20 then (b &&& c) ||| (~~~b &&& d)
  else if t < 40 then b ^^^ c ^^^ d
  else if t < 60 then (b &&& c) ||| (b &&& d) ||| (c &&& d)
  else b ^^^ c ^^^ d

/-- One round (R137): every right-hand side uses the values from before the round. -/
def oneRound (t : Nat) (w : Word) (v : Chain) : Chain :=
  { h0 := rotl32 v.h0 5 + roundF t v.h1 v.h2 v.h3 + v.h4 + kConst (t / 20) + w
    h1 := v.h0
    h2 := rotl32 v.h1 30
    h3 := v.h2
    h4 := v.h3 }

/-- The rounds from index `t` on, one for each schedule word (R137). -/
def rounds : Nat → List Word → Chain → Chain
  | _, [], v => v
  | t, w :: ws, v => rounds (t + 1) ws (oneRound t w v)

/-- The fold: word by word, modulo 2^32 (R138). -/
def fold (c v : Chain) : Chain :=
  { h0 := c.h0 + v.h0, h1 := c.h1 + v.h1, h2 := c.h2 + v.h2, h3 := c.h3 + v.h3, h4 := c.h4 + v.h4 }

/-- `Compress(Hin, block)` (R133 to R138). -/
def compress (c : Chain) (block : List Byte) : Chain := fold c (rounds 0 (schedule block) c)

/-- `nb` blocks of 64 bytes, in order (R139). -/
def compressBlocks : Nat → Chain → List Byte → Chain
  | 0, c, _ => c
  | nb + 1, c, bytes => compressBlocks nb (compress c (bytes.take 64)) (bytes.drop 64)

/-- `Hash(msg)` (R139). -/
def hashMsg (msg : List Byte) : Chain := compressBlocks ((pad msg).length / 64) hInit (pad msg)

/-- `DigestInt(Hs)` (R140(a)): the digest as one 160-bit integer, H0 most significant. -/
def digestInt (c : Chain) : Nat :=
  c.h0.toNat * 2 ^ 128 + c.h1.toNat * 2 ^ 96 + c.h2.toNat * 2 ^ 64 + c.h3.toNat * 2 ^ 32 + c.h4.toNat

/-- Form (b) of R140: the digest as 20 raw bytes, H0's most significant byte first. Made by the host
from the five register reads, not by CDL-CORE. -/
def digestBytes (c : Chain) : List Byte :=
  (List.range 20).map fun i => BitVec.ofNat 8 (digestInt c / 256 ^ (19 - i))

/-- A hexadecimal digit, lowercase (R140(c)). -/
def hexDigit (d : Nat) : Char := if d < 10 then Char.ofNat (48 + d) else Char.ofNat (87 + d)

/-- Form (c) of R140: the digest as 40 lowercase hexadecimal characters, leading zeros kept. Made by
the host, not by CDL-CORE. -/
def digestHex (c : Chain) : List Char :=
  (List.range 40).map fun i => hexDigit (digestInt c / 16 ^ (39 - i) % 16)

end Sys2Proof.Machine
end

