-- ==== Sys2Proof/Machine/Ops.lean ====
section
/-!
DEFINITION. The shared operations on the state: the begin of a command and the report of an error,
the registers, the two external ports, reset, and the append of message bytes.
-/
namespace Sys2Proof.Machine

/-- The error codes of 60_exceptions.md R211. -/
def Err.code : Err → Byte
  | .invalidModulus => 1
  | .noInverseExists => 2
  | .divisionByZero => 3
  | .retryExhausted => 4
  | .rngFailure => 5
  | .illegalCommand => 6
  | .sequenceError => 7
  | .keyRange => 8
  | .invalidPublicKey => 9
  | .msgTooLong => 10

/-- `BeginCommand(op8)` (43_control.md R201): the first step of every command, legal or not. It also
is what ends the report of an earlier error: there is nothing to return from (60_exceptions.md R223). -/
def beginCommand (op8 : Byte) (s : State) : State :=
  { s with vres := false, malf := false, rrep := false, errf := false, errcode := 0, lastop := op8 }

/-- `raise E`: the report of an error, which is all this hardware has of a trap entry
(60_exceptions.md R220). What was written before the raise stays written (43_control.md R200). -/
def raise (e : Err) (s : State) : State := { s with errf := true, errcode := e.code }

/-! ## Registers -/

/-- The value of a big-integer register. -/
def State.big (s : State) : BigReg → Nat
  | .a => s.regA
  | .m => s.regM
  | .t => s.regT
  | .n => s.regN
  | .d => s.regD
  | .qx => s.regQX
  | .qy => s.regQY
  | .r => s.regR
  | .s => s.regS

/-- Writes a big-integer register whole. -/
def State.setBig (s : State) (x : BigReg) (v : Nat) : State :=
  match x with
  | .a => { s with regA := v }
  | .m => { s with regM := v }
  | .t => { s with regT := v }
  | .n => { s with regN := v }
  | .d => { s with regD := v }
  | .qx => { s with regQX := v }
  | .qy => { s with regQY := v }
  | .r => { s with regR := v }
  | .s => { s with regS := v }

/-- Word `i` of a big integer: its bits `32i+31 : 32i` (20_memory.md R64). -/
def bigWord (v : Nat) (i : Nat) : Word := BitVec.ofNat 32 (v / 2 ^ (32 * i))

/-- A big integer with its word `i` replaced (20_memory.md R64, R75). -/
def withBigWord (v : Nat) (i : Nat) (w : Word) : Nat :=
  v / 2 ^ (32 * (i + 1)) * 2 ^ (32 * (i + 1)) + w.toNat * 2 ^ (32 * i) + v % 2 ^ (32 * i)

/-- Every piece of state at its reset value (10_state.md R46, 70_reset_and_hazards.md R241): neither
reset nor SRST touches GRP or RNG, and the host's waiting events are not CDL-CORE's. -/
def resetCore (s : State) : State :=
  { State.resetWith s.cfg with
    draws := s.draws, drawCount := s.drawCount, pending := s.pending, resp := s.resp }

/-- The reset event (70_reset_and_hazards.md R240). It is no transaction, so no outcome is left. -/
def resetEvent (s : State) : State := { resetCore s with resp := none }

/-! ## The GRP port (42_signature.md R162) -/

/-- An element as the port carries it: coordinates of NBITS bits (R161, 00_scope.md R6(c)).
DESIGN CHOICE, unsafe only for a GRP that breaks R6(c) (log entry 7). -/
def portElement (p : Params) (e : GroupElement) : GroupElement :=
  { x := e.x % 2 ^ p.nbits, y := e.y % 2 ^ p.nbits, cid := e.cid }

/-- `Grp.basePoint()`. -/
def grpBasePoint (p : Params) : GroupElement := portElement p p.grp.base

/-- `Grp.groupOrder()`. -/
def grpOrder (p : Params) : Int := p.grp.order

/-- `Grp.addPoints(P1, P2)`. -/
def grpAddPoints (p : Params) (p1 p2 : GroupElement) : GroupElement :=
  portElement p (((p.grp.add.lookup (p1, p2))).getD (Config.freeAdd p1 p2))

/-- `Grp.scalarMultiply(k, P)`. -/
def grpScalarMultiply (p : Params) (k : Nat) (e : GroupElement) : GroupElement :=
  portElement p ((p.grp.mul.lookup (k, e)).getD (Config.freeMul k e))

/-- `Grp.isOnCurve(P)`. -/
def grpIsOnCurve (p : Params) (e : GroupElement) : Bool :=
  (p.grp.onCurve.lookup e).getD (Config.freeOnCurve e)

/-- `FetchOrder()` (42_signature.md R164): the order is checked, written to N, and returned with the
state in which N holds it. -/
def fetchOrder (s : State) : Except Err (Nat × State) :=
  if grpOrder s.cfg < 2 ∨ 2 ^ s.cfg.nbits ≤ grpOrder s.cfg then .error .invalidModulus
  else .ok ((grpOrder s.cfg).toNat, { s with regN := (grpOrder s.cfg).toNat })

/-! ## The RNG port (42_signature.md R163) -/

/-- RNG's next answer to `draw(n)`: the oldest supplied answer, or a free one (00_scope.md R7). -/
def rngAnswer (s : State) (n : Nat) : Option Int :=
  match s.draws with
  | answer :: _ => answer
  | [] => Config.freeDraw s.drawCount n

/-- The state after a draw: the answer is consumed. -/
def afterDraw (s : State) : State := { s with draws := s.draws.tail, drawCount := s.drawCount + 1 }

/-- The state after `m` draws. -/
def afterDraws (m : Nat) (s : State) : State :=
  { s with draws := s.draws.drop m, drawCount := s.drawCount + m }

/-- The reset event while a command runs (70_reset_and_hazards.md R240): the command is abandoned with no
result, and the draws RNG has answered stay taken, since RNG is not reset (R241; log entry 16). `s` is the state the
command began in, and `t` the state in which it would have ended, which tells how many draws it makes. -/
def abandonCommand (taken : Nat) (s t : State) : State :=
  resetEvent (afterDraws (min taken (t.drawCount - s.drawCount)) s)

/-- `DrawScalar(n)` on RNG's answer (42_signature.md R165): a failure and an integer outside
`[1, n-1]` are RngFailure. -/
def checkDraw (n : Nat) (answer : Option Int) : Except Err Nat :=
  match answer with
  | none => .error .rngFailure
  | some k => if k < 1 ∨ (n : Int) - 1 < k then .error .rngFailure else .ok k.toNat

/-! ## The append of message bytes (41_hash.md R142) -/

/-- One byte into MBUF; the 64th byte compresses the block. -/
def appendByte (s : State) (x : Byte) : State :=
  if s.mbuf.length + 1 = 64 then
    { s with h := compress s.h (s.mbuf ++ [x]), mbuf := [], len := s.len + 8 }
  else { s with mbuf := s.mbuf ++ [x], len := s.len + 8 }

/-- `AppendBytes(bs)` (R142): both checks come before any byte is appended. -/
def appendBytes (bs : List Byte) (s : State) : State :=
  if s.hashing = false then raise .sequenceError s
  else if 2 ^ 64 ≤ s.len.toNat + 8 * bs.length then raise .msgTooLong s
  else bs.foldl appendByte s

end Sys2Proof.Machine
end

