-- ==== Sys2Proof/Machine/Flags.lean ====
section
/-!
DEFINITION. The flags: the words STATUS and CONFIG, and the three result flags that a command can set
besides its error (10_state.md R36 to R38).
-/
namespace Sys2Proof.Machine

/-- STATUS (10_state.md R36): bits 31:24 and bit 6 are reserved and read 0. -/
def statusWord (s : State) : Word :=
  (0 : Byte) ++ s.lastop ++ s.errcode ++ BitVec.ofBool s.errf ++ (0 : BitVec 1) ++ BitVec.ofBool s.rrep
    ++ BitVec.ofBool s.malf ++ BitVec.ofBool s.vres ++ BitVec.ofBool s.keyst ++ BitVec.ofBool s.dvalid
    ++ BitVec.ofBool s.hashing

/-- CONFIG (10_state.md R38): `RETRY_CAP * 256 + NW`. -/
def configWord (p : Params) : Word := BitVec.ofNat 32 (p.retryCap * 256 + p.nw)

/-- RREP of a successful SIGN that returns `r` (42_signature.md R177): a SIGN has succeeded before and
returned the same `r`. -/
def repeatsLastR (s : State) (r : Nat) : Bool := s.lastrv && decide (s.lastr = r)

/-- Whether a value of R or S lies outside `[1, n-1]` (42_signature.md R171, R172). -/
def outOfRange (n v : Nat) : Bool := decide (v < 1) || decide (n - 1 < v)

end Sys2Proof.Machine
end

