-- ==== Sys2Proof/Machine/Bus.lean ====
section
/-!
DEFINITION. The host's bus (20_memory.md): which register an offset names, BusRead and BusWrite (R75),
and what a transaction is to the core.
-/
namespace Sys2Proof.Machine

/-- `base(X)` of R61: the offset of word 0 of a big-integer register. -/
def BigReg.base : BigReg → Nat
  | .a => 0x080
  | .m => 0x100
  | .t => 0x180
  | .n => 0x200
  | .d => 0x280
  | .qx => 0x300
  | .qy => 0x380
  | .r => 0x400
  | .s => 0x480

/-- The register whose window of 32 slots holds an offset (R61). -/
def windowReg (off : Nat) : Option BigReg :=
  match off / 0x80 with
  | 1 => some .a
  | 2 => some .m
  | 3 => some .t
  | 4 => some .n
  | 5 => some .d
  | 6 => some .qx
  | 7 => some .qy
  | 8 => some .r
  | 9 => some .s
  | _ => none

/-- "`off` is word i < NW of X" (R75): the register and the word; a slot at or above NW is reserved
(R61, R63(e)). -/
def windowWord (p : Params) (off : Nat) : Option (BigReg × Nat) :=
  match windowReg off with
  | none => none
  | some x => if off % 0x80 / 4 < p.nw then some (x, off % 0x80 / 4) else none

/-- Word `i` of H0..H4. -/
def Chain.word (c : Chain) (i : Nat) : Word :=
  match i with
  | 0 => c.h0
  | 1 => c.h1
  | 2 => c.h2
  | 3 => c.h3
  | _ => c.h4

/-- `BusRead(off)` of R75; `none` is BUSERR. A read changes no state (R68). -/
def busRead (s : State) (off : Nat) : Option Word :=
  if off % 4 ≠ 0 then none
  else if off = 0x004 then some (statusWord s)
  else if off = 0x008 then some (configWord s.cfg)
  else if 0x010 ≤ off ∧ off ≤ 0x020 then some (s.h.word ((off - 0x010) / 4))
  else if off = 0x024 then some (s.len.extractLsb' 0 32)
  else if off = 0x028 then some (s.len.extractLsb' 32 32)
  else if off = 0x02C then some s.qcid
  else
    match windowWord s.cfg off with
    | some (x, i) => some (bigWord (s.big x) i)
    | none => none

/-- The write of one word of a big-integer register (R75): A, M, R, S take it; D, QX, QY take it and
drop KEYST (10_state.md R45); T and N are read-only. -/
def writeBigWord (s : State) (x : BigReg) (i : Nat) (v : Word) : Option State :=
  match x with
  | .a => some (s.setBig .a (withBigWord s.regA i v))
  | .m => some (s.setBig .m (withBigWord s.regM i v))
  | .r => some (s.setBig .r (withBigWord s.regR i v))
  | .s => some (s.setBig .s (withBigWord s.regS i v))
  | .d => some { s.setBig .d (withBigWord s.regD i v) with keyst := false }
  | .qx => some { s.setBig .qx (withBigWord s.regQX i v) with keyst := false }
  | .qy => some { s.setBig .qy (withBigWord s.regQY i v) with keyst := false }
  | .t => none
  | .n => none

/-- `BusWrite(off, v)` of R75 for a register that is neither CMD nor MSGW; `none` is BUSERR. -/
def busWrite (s : State) (off : Nat) (v : Word) : Option State :=
  if off % 4 ≠ 0 then none
  else if off = 0x02C then some { s with qcid := v, keyst := false }
  else
    match windowWord s.cfg off with
    | some (x, i) => writeBigWord s x i v
    | none => none

/-- What a transaction is to the core. -/
inductive BusTarget where
  /-- An address outside the block: no access to CDL-CORE at all (R63(f)). -/
  | outside
  /-- A write of the word to CMD (R63(b), 10_state.md R39). -/
  | command (c : Word)
  /-- A write of the word to MSGW (R63(b), 10_state.md R40). -/
  | message (c : Word)
  /-- Any other access, at this offset. -/
  | register (off : Nat)
deriving DecidableEq, Repr

/-- The target of a transaction: the block is BASE to BASE + 0xFFF (R60); only 32-bit writes start
commands (R62). -/
def busTarget (p : Params) (acc : BusAccess) : BusTarget :=
  if acc.addr < p.base ∨ p.base + 0x1000 ≤ acc.addr then .outside
  else
    match acc.size, acc.kind with
    | .b32, .write v =>
      if acc.addr - p.base = 0x000 then .command v
      else if acc.addr - p.base = 0x00C then .message v
      else .register (acc.addr - p.base)
    | _, _ => .register (acc.addr - p.base)

/-- The outcome of the transaction is noted. -/
def respond (o : Option BusOutcome) (s : State) : State := { s with resp := o }

/-- A transaction that starts no command (R62, R63): a refused one ends BUSERR and changes nothing. -/
def busRegister (off : Nat) (acc : BusAccess) (s : State) : State :=
  match acc.size, acc.kind with
  | .b32, .read =>
    match busRead s off with
    | some v => respond (some (.okRead v)) s
    | none => respond (some .busErr) s
  | .b32, .write v =>
    match busWrite s off v with
    | some s' => respond (some .okWrite) s'
    | none => respond (some .busErr) s
  | _, _ => respond (some .busErr) s

/-- The host's write of a word to one of the two command ports. -/
def commandWrite (p : Params) (port : Port) (c : Word) : BusAccess :=
  match port with
  | .cmd => { addr := p.base + 0x000, size := .b32, kind := .write c }
  | .msgw => { addr := p.base + 0x00C, size := .b32, kind := .write c }

end Sys2Proof.Machine
end

