-- ==== Sys2Proof/Machine/Control.lean ====
section
/-!
DEFINITION. The control commands: SRST, and the illegal command (43_control.md section 2).
-/
namespace Sys2Proof.Machine

/-- SRST (43_control.md R202): every piece of state at its reset value, LASTOP = 0x01. -/
def execSrst (s : State) : Result := .next { resetCore (beginCommand 0x01 s) with lastop := 0x01 }

/-- The illegal command (43_control.md R203): the word written to CMD is `c`. -/
def execIllegal (c : Word) (s : State) : Result :=
  .next (raise .illegalCommand (beginCommand (c.extractLsb' 24 8) s))

end Sys2Proof.Machine
end

