-- ==== Sys2Proof/Machine/Hash.lean ====
section
/-!
DEFINITION. The hash commands (41_hash.md section 4).
-/
namespace Sys2Proof.Machine

/-- HSTART (R141): legal in every state; an open call is abandoned, a held digest discarded. -/
def execHstart (s : State) : Result :=
  .next { beginCommand 0x10 s with h := hInit, mbuf := [], len := 0, hashing := true, dvalid := false }

/-- HPUSH1 b0 (R143). -/
def execHpush1 (b0 : Byte) (s : State) : Result := .next (appendBytes [b0] (beginCommand 0x11 s))

/-- HPUSH2 b0, b1 (R144). -/
def execHpush2 (b0 b1 : Byte) (s : State) : Result := .next (appendBytes [b0, b1] (beginCommand 0x12 s))

/-- HPUSH3 b0, b1, b2 (R145). -/
def execHpush3 (b0 b1 b2 : Byte) (s : State) : Result :=
  .next (appendBytes [b0, b1, b2] (beginCommand 0x13 s))

/-- HPUSH4 b0, b1, b2, b3 (R146), started by a write to MSGW: LASTOP is 0x1F. -/
def execHpush4 (b0 b1 b2 b3 : Byte) (s : State) : Result :=
  .next (appendBytes [b0, b1, b2, b3] (beginCommand 0x1F s))

/-- `tail` of R147: the buffered bytes and the padding; 64 or 128 bytes. -/
def finalTail (s : State) : List Byte := s.mbuf ++ padding s.mbuf.length s.len

/-- The engine state after the one or two last blocks (R147). -/
def finalChain (s : State) : Chain :=
  let first := compress s.h ((finalTail s).take 64)
  if (finalTail s).length = 128 then compress first ((finalTail s).drop 64) else first

/-- The effect of HFINAL on a state whose result flags are cleared (R147). -/
def finishHash (s : State) : State :=
  if s.hashing = false then raise .sequenceError s
  else { s with h := finalChain s, mbuf := [], hashing := false, dvalid := true }

/-- HFINAL (R147). -/
def execHfinal (s : State) : Result := .next (finishHash (beginCommand 0x14 s))

end Sys2Proof.Machine
end

