-- ==== Sys2Proof/Machine/Operands.lean ====
section
/-!
DEFINITION. The operands a command reads from registers. Immediates are fields of `Instr`.
-/
namespace Sys2Proof.Machine

/-- The operand `a` of MODINV and MODRED in sign-magnitude form (40_modarith.md R111). -/
def operandA (neg : Bool) (s : State) : Int := if neg then -(s.regA : Int) else (s.regA : Int)

/-- The modulus `m` of MODINV and MODRED: the unsigned value of M (R111). -/
def operandM (s : State) : Int := (s.regM : Int)

/-- The digest integer `h` of SIGN and VERIFY, whole (42_signature.md R168). -/
def operandH (s : State) : Nat := digestInt s.h

/-- The public key Q as KEYLOAD and VERIFY hand it to GRP (10_state.md R33, 42_signature.md R167). -/
def operandQ (s : State) : GroupElement := { x := s.regQX, y := s.regQY, cid := s.qcid }

end Sys2Proof.Machine
end

