-- ==== Sys2Proof/Machine/ModArith.lean ====
section
/-!
DEFINITION. The commands of the modular arithmetic unit (40_modarith.md section 2).
-/
namespace Sys2Proof.Machine

/-- The effect of MODINV on a state whose result flags are cleared (R115): on a signal T is unchanged. -/
def invertA (neg : Bool) (s : State) : State :=
  match modInverse (operandA neg s) (operandM s) with
  | .error e => raise e s
  | .ok t => { s with regT := t }

/-- MODINV (R115). -/
def execModinv (neg : Bool) (s : State) : Result := .next (invertA neg (beginCommand 0x20 s))

/-- The effect of MODRED on a state whose result flags are cleared (R116). -/
def reduceA (neg : Bool) (s : State) : State :=
  if s.regM = 0 then raise .invalidModulus s
  else { s with regT := (modInt (operandA neg s) (operandM s)).toNat }

/-- MODRED (R116). -/
def execModred (neg : Bool) (s : State) : Result := .next (reduceA neg (beginCommand 0x21 s))

end Sys2Proof.Machine
end

