-- ==== Sys2Proof/Machine/Signature.lean ====
section
/-!
DEFINITION. The commands of the signature unit (42_signature.md section 3). Nonce, inverse, point and
retry count are local values: no field holds them (10_state.md R43).
-/
namespace Sys2Proof.Machine

/-- Writes a new key pair (R166). -/
def setKeyPair (d : Nat) (q : GroupElement) (s : State) : State :=
  { s with regD := d, regQX := q.x, regQY := q.y, qcid := q.cid, keyst := true }

/-- The effect of KEYGEN on a state whose result flags are cleared (R166): exactly one draw. -/
def generateKey (s : State) : State :=
  match fetchOrder s with
  | .error e => raise e s
  | .ok (n, s1) =>
    match checkDraw n (rngAnswer s1 n) with
    | .error e => raise e (afterDraw s1)
    | .ok d => setKeyPair d (grpScalarMultiply s1.cfg d (grpBasePoint s1.cfg)) (afterDraw s1)

/-- KEYGEN (R166). -/
def execKeygen (s : State) : Result := .next (generateKey (beginCommand 0x30 s))

/-- The effect of KEYLOAD on a state whose result flags are cleared (R167). -/
def loadKey (s : State) : State :=
  if grpIsOnCurve s.cfg (operandQ s) = false then raise .invalidPublicKey s
  else { s with keyst := true }

/-- KEYLOAD (R167). -/
def execKeyload (s : State) : Result := .next (loadKey (beginCommand 0x31 s))

/-- What one nonce gives (R169): a degenerate pair, which is retried (R170), or a signature. -/
inductive NonceResult where
  | degenerate
  | failed (e : Err)
  | signature (r sv : Nat)
deriving DecidableEq, Repr

/-- The signature equations for one nonce `k` (R169), with the order `n`, the private key `d` and the
digest integer `h`. -/
def tryNonce (p : Params) (n d h k : Nat) : NonceResult :=
  let r := modNat (grpScalarMultiply p k (grpBasePoint p)).x n
  if r = 0 then .degenerate
  else
    match modInverse (k : Int) (n : Int) with
    | .error e => .failed e
    | .ok kinv =>
      let sv := modNat (kinv * (h + r * d)) n
      if sv = 0 then .degenerate else .signature r sv

/-- A signature returned: R, S, RREP and the hidden copy of r (R169, R177). -/
def setSignature (r sv : Nat) (s : State) : State :=
  { s with regR := r, regS := sv, rrep := repeatsLastR s r, lastr := r, lastrv := true }

/-- The loop of SIGN (R169, R170): each iteration makes one draw; the argument is how many are left. -/
def signLoop : Nat → Nat → Nat → Nat → State → State
  | 0, _, _, _, s => raise .retryExhausted s
  | tries + 1, n, d, h, s =>
    match checkDraw n (rngAnswer s n) with
    | .error e => raise e (afterDraw s)
    | .ok k =>
      match tryNonce s.cfg n d h k with
      | .degenerate => signLoop tries n d h (afterDraw s)
      | .failed e => raise e (afterDraw s)
      | .signature r sv => setSignature r sv (afterDraw s)

/-- The effect of SIGN on a state whose result flags are cleared (R169). -/
def signDigest (s : State) : State :=
  if s.keyst = false ∨ s.dvalid = false then raise .sequenceError s
  else
    match fetchOrder s with
    | .error e => raise e s
    | .ok (n, s1) =>
      if outOfRange n s1.regD then raise .keyRange s1
      else signLoop s1.cfg.retryCap n s1.regD (operandH s1) s1

/-- SIGN (R169). -/
def execSign (s : State) : Result := .next (signDigest (beginCommand 0x32 s))

/-- The point `(u1 · G) + (u2 · Q)` of VERIFY (R171), where `w` is the inverse of `s`. -/
def verifyPoint (n w : Nat) (s : State) : GroupElement :=
  let u1 := modNat (operandH s * w) n
  let u2 := modNat (s.regR * w) n
  grpAddPoints s.cfg (grpScalarMultiply s.cfg u1 (grpBasePoint s.cfg)) (grpScalarMultiply s.cfg u2 (operandQ s))

/-- The effect of VERIFY on a state whose result flags are cleared (R171, R172). -/
def verifyDigest (s : State) : State :=
  if s.keyst = false ∨ s.dvalid = false then raise .sequenceError s
  else
    match fetchOrder s with
    | .error e => raise e s
    | .ok (n, s1) =>
      if outOfRange n s1.regR ∨ outOfRange n s1.regS then { s1 with malf := true, vres := false }
      else
        match modInverse (s1.regS : Int) (n : Int) with
        | .error e => raise e s1
        | .ok w => { s1 with vres := decide (modNat (verifyPoint n w s1).x n = s1.regR) }

/-- VERIFY (R171). -/
def execVerify (s : State) : Result := .next (verifyDigest (beginCommand 0x33 s))

end Sys2Proof.Machine
end

