-- ==== Sys2Proof/Machine/Dispatch.lean ====
section
/-! DEFINITION. The dispatch: one arm per instruction, one call of its meaning. -/
namespace Sys2Proof.Machine

def exec (i : Instr) (s : State) : Host.Outcome State Fault Refusal :=
  match i with
  | .srst => Sys2Proof.Machine.execSrst s
  | .hstart => Sys2Proof.Machine.execHstart s
  | .hpush1 b0 => Sys2Proof.Machine.execHpush1 b0 s
  | .hpush2 b0 b1 => Sys2Proof.Machine.execHpush2 b0 b1 s
  | .hpush3 b0 b1 b2 => Sys2Proof.Machine.execHpush3 b0 b1 b2 s
  | .hfinal => Sys2Proof.Machine.execHfinal s
  | .hpush4 b0 b1 b2 b3 => Sys2Proof.Machine.execHpush4 b0 b1 b2 b3 s
  | .modinv neg => Sys2Proof.Machine.execModinv neg s
  | .modred neg => Sys2Proof.Machine.execModred neg s
  | .keygen => Sys2Proof.Machine.execKeygen s
  | .keyload => Sys2Proof.Machine.execKeyload s
  | .sign => Sys2Proof.Machine.execSign s
  | .verify => Sys2Proof.Machine.execVerify s

end Sys2Proof.Machine
end

