-- ==== Sys2Proof/Machine/Step.lean ====
section
/-!
DEFINITION. One step: the host's next event, taken whole (20_memory.md R69, 43_control.md R200).
-/
namespace Sys2Proof.Machine

/-- `ExecuteCommand(c)` (43_control.md R200), for a word written to CMD. -/
def executeCommand (c : Word) (s : State) : Result :=
  match decodeCmd c with
  | .ok i => exec i s
  | .error _ => execIllegal c s

/-- The command that a write of the word to a port starts (43_control.md R200, 41_hash.md R146). -/
def startCommand (port : Port) (c : Word) (s : State) : Result :=
  match port with
  | .cmd => executeCommand c s
  | .msgw => exec (decodeMsgw c) s

/-- One transaction, already taken from the host's queue. A write that starts a command ends OK
whatever becomes of the command (20_memory.md R63). -/
def stepAccess (acc : BusAccess) (s : State) : Result :=
  match busTarget s.cfg acc with
  | .outside => .next (respond none s)
  | .command c => startCommand .cmd c (respond (some .okWrite) s)
  | .message c => startCommand .msgw c (respond (some .okWrite) s)
  | .register off => .next (busRegister off acc s)

/-- The command that the write starts, abandoned by the reset event after `taken` of its draws
(70_reset_and_hazards.md R240). -/
def stepAbandoned (port : Port) (c : Word) (taken : Nat) (s : State) : Result :=
  match startCommand port c (respond (some .okWrite) s) with
  | .next t => .next (abandonCommand taken s t)
  | .fault f => .fault f
  | .refused r => .refused r

/-- One step. With nothing pending the core is idle and keeps all state (60_exceptions.md R229). -/
def step (s : State) : Host.Outcome State Fault Refusal :=
  match s.pending with
  | [] => .next s
  | .reset :: rest => .next (resetEvent { s with pending := rest })
  | .resetDuring port c taken :: rest => stepAbandoned port c taken { s with pending := rest }
  | .access acc :: rest => stepAccess acc { s with pending := rest }

/-- The state with the instruction of a table word as the host's next transaction: the write of the
word to the port of its instruction (log entries 2 and 9). -/
def State.withFetchWord (s : State) (nbits w : Nat) : State :=
  { s with
    pending := .access (commandWrite s.cfg (portOfTableWord (tableWord nbits w)) (tableWord nbits w)) :: s.pending }

end Sys2Proof.Machine
end

