-- ==== Sys2Proof/Safety.lean ====
section
/-!
DEFINITION. The terms claims use: legal states, what a held digest means, which fields two states
share, how a command ends, and runs of several commands.
-/
namespace Sys2Proof.Machine

/-! ## How a command ends -/

/-- The command with this opcode byte ended without error and set none of VRES, MALF, RREP
(10_state.md R37, 43_control.md R201). -/
def EndsClean (op : Byte) (t : State) : Prop :=
  t.vres = false ∧ t.malf = false ∧ t.rrep = false ∧ t.errf = false ∧ t.errcode = 0 ∧ t.lastop = op

/-- The command with this opcode byte ended in the error `e` (60_exceptions.md R220). -/
def EndsInError (op : Byte) (e : Err) (t : State) : Prop :=
  t.vres = false ∧ t.malf = false ∧ t.rrep = false ∧ t.errf = true ∧ t.errcode = e.code ∧ t.lastop = op

/-- What LASTOP names after an instruction: bits 31:24 of its CMD word, 0x1F for HPUSH4 (10_state.md R36). -/
def lastopOf (i : Instr) : Byte :=
  match (encode i).1 with
  | .cmd => (encode i).2.extractLsb' 24 8
  | .msgw => 0x1F

/-- The errors a command can end in (60_exceptions.md R212). -/
def possibleErrors : Instr → List Err
  | .srst => []
  | .hstart => []
  | .hpush1 _ => [.sequenceError, .msgTooLong]
  | .hpush2 _ _ => [.sequenceError, .msgTooLong]
  | .hpush3 _ _ _ => [.sequenceError, .msgTooLong]
  | .hpush4 _ _ _ _ => [.sequenceError, .msgTooLong]
  | .hfinal => [.sequenceError]
  | .modinv _ => [.invalidModulus, .divisionByZero, .noInverseExists]
  | .modred _ => [.invalidModulus]
  | .keygen => [.invalidModulus, .rngFailure]
  | .keyload => [.invalidPublicKey]
  | .sign => [.sequenceError, .invalidModulus, .keyRange, .rngFailure, .noInverseExists, .retryExhausted]
  | .verify => [.sequenceError, .invalidModulus, .noInverseExists]

/-- The bytes a push appends, in order (30_encoding.md R92, R94); `none` for another instruction. -/
def pushedBytes : Instr → Option (List Byte)
  | .hpush1 b0 => some [b0]
  | .hpush2 b0 b1 => some [b0, b1]
  | .hpush3 b0 b1 b2 => some [b0, b1, b2]
  | .hpush4 b0 b1 b2 b3 => some [b0, b1, b2, b3]
  | .srst => none
  | .hstart => none
  | .hfinal => none
  | .modinv _ => none
  | .modred _ => none
  | .keygen => none
  | .keyload => none
  | .sign => none
  | .verify => none

/-- The mnemonic of an instruction, as R95 spells it. -/
def mnemonicOf : Instr → String
  | .srst => "SRST"
  | .hstart => "HSTART"
  | .hpush1 _ => "HPUSH1"
  | .hpush2 _ _ => "HPUSH2"
  | .hpush3 _ _ _ => "HPUSH3"
  | .hfinal => "HFINAL"
  | .hpush4 _ _ _ _ => "HPUSH4"
  | .modinv _ => "MODINV"
  | .modred _ => "MODRED"
  | .keygen => "KEYGEN"
  | .keyload => "KEYLOAD"
  | .sign => "SIGN"
  | .verify => "VERIFY"

/-- The command is not allowed in this state (43_control.md R204). -/
def outOfSequence (i : Instr) (s : State) : Bool :=
  match i with
  | .hpush1 _ => !s.hashing
  | .hpush2 _ _ => !s.hashing
  | .hpush3 _ _ _ => !s.hashing
  | .hpush4 _ _ _ _ => !s.hashing
  | .hfinal => !s.hashing
  | .sign => !(s.keyst && s.dvalid)
  | .verify => !(s.keyst && s.dvalid)
  | .srst => false
  | .hstart => false
  | .modinv _ => false
  | .modred _ => false
  | .keygen => false
  | .keyload => false

/-! ## Bus accesses -/

/-- The host's read of the word at an offset (30_encoding.md R99). -/
def readAt (p : Params) (off : Nat) : BusAccess := { addr := p.base + off, size := .b32, kind := .read }

/-- The host's write of a word at an offset (30_encoding.md R99). -/
def writeAt (p : Params) (off : Nat) (v : Word) : BusAccess :=
  { addr := p.base + off, size := .b32, kind := .write v }

/-- The offsets that a read accepts: STATUS, CONFIG, H0 to H4, LENLO, LENHI, QCID, and the words below
NW of the nine windows (20_memory.md R61). -/
def readableOffset (nw off : Nat) : Prop :=
  off % 4 = 0 ∧ (off = 0x004 ∨ off = 0x008 ∨ (0x010 ≤ off ∧ off ≤ 0x02C)
    ∨ ∃ base ∈ [0x080, 0x100, 0x180, 0x200, 0x280, 0x300, 0x380, 0x400, 0x480], ∃ i, i < nw ∧ off = base + 4 * i)

/-- The offsets that a write accepts: CMD, MSGW, QCID, and the words below NW of A, M, D, QX, QY, R, S
(20_memory.md R61). -/
def writableOffset (nw off : Nat) : Prop :=
  off % 4 = 0 ∧ (off = 0x000 ∨ off = 0x00C ∨ off = 0x02C
    ∨ ∃ base ∈ [0x080, 0x100, 0x280, 0x300, 0x380, 0x400, 0x480], ∃ i, i < nw ∧ off = base + 4 * i)

/-- The registers whose words the host may write (10_state.md R27). -/
def BigReg.writable : BigReg → Bool
  | .a => true
  | .m => true
  | .t => false
  | .n => false
  | .d => true
  | .qx => true
  | .qy => true
  | .r => true
  | .s => true

/-- The big-integer registers of the key (10_state.md R45). -/
def BigReg.isKey : BigReg → Bool
  | .a => false
  | .m => false
  | .t => false
  | .n => false
  | .d => true
  | .qx => true
  | .qy => true
  | .r => false
  | .s => false

/-- The event is the reset event, between transactions or while a command runs (70_reset_and_hazards.md
R240). -/
def HostEvent.isReset : HostEvent → Bool
  | .access _ => false
  | .reset => true
  | .resetDuring _ _ _ => true

/-! ## Frames: what two states share -/

/-- The DIGEST unit: H0..H4, MBUF with BCNT, LEN, HASHING, DVALID. -/
def SameDigest (s t : State) : Prop :=
  t.h = s.h ∧ t.mbuf = s.mbuf ∧ t.len = s.len ∧ t.hashing = s.hashing ∧ t.dvalid = s.dvalid

/-- The operands and the result of the MODARITH unit: A, M, T. -/
def SameArith (s t : State) : Prop := t.regA = s.regA ∧ t.regM = s.regM ∧ t.regT = s.regT

/-- The key: D, QX, QY, QCID, KEYST. -/
def SameKey (s t : State) : Prop :=
  t.regD = s.regD ∧ t.regQX = s.regQX ∧ t.regQY = s.regQY ∧ t.qcid = s.qcid ∧ t.keyst = s.keyst

/-- The signature and the hidden copy of r: R, S, LASTR, LASTRV. -/
def SameSignature (s t : State) : Prop :=
  t.regR = s.regR ∧ t.regS = s.regS ∧ t.lastr = s.lastr ∧ t.lastrv = s.lastrv

/-- The result flags with ERRCODE and LASTOP (10_state.md R37). -/
def SameFlags (s t : State) : Prop :=
  t.vres = s.vres ∧ t.malf = s.malf ∧ t.rrep = s.rrep ∧ t.errf = s.errf ∧ t.errcode = s.errcode
    ∧ t.lastop = s.lastop

/-- RNG: its supplied answers and the count of its draws. -/
def SameRng (s t : State) : Prop := t.draws = s.draws ∧ t.drawCount = s.drawCount

/-- What no command touches: the parameters, the host's waiting events, the outcome of the transaction. -/
def SameOutside (s t : State) : Prop := t.cfg = s.cfg ∧ t.pending = s.pending ∧ t.resp = s.resp

/-! ## Invariants -/

/-- A legal state: what 10_state.md says of the fields whatever commands have run. -/
structure Legal (s : State) : Prop where
  /-- The parameters meet their constraints (00_scope.md R5). -/
  params : s.cfg.legal = true
  /-- Every big-integer register holds a value of NBITS bits (10_state.md R27). -/
  widths : ∀ x : BigReg, s.big x < 2 ^ s.cfg.nbits
  /-- LASTR holds a value of NBITS bits, and an r that SIGN returned is not 0 (R42, 42_signature.md R169). -/
  lastr : s.lastr < 2 ^ s.cfg.nbits ∧ (s.lastrv = true → 1 ≤ s.lastr)
  /-- Between commands BCNT is never 64 (R22). -/
  bcnt : s.mbuf.length < 64
  /-- BCNT equals `(LEN div 8) mod 64` while a call is open, and 0 otherwise (R22, 41_hash.md R147). -/
  bcntOfLen : s.mbuf.length = if s.hashing then s.len.toNat / 8 % 64 else 0
  /-- LEN is always a multiple of 8 (R23). -/
  lenBytes : s.len.toNat % 8 = 0
  /-- DVALID = 1 implies HASHING = 0 (R25). -/
  oneHashState : s.dvalid = true → s.hashing = false
  /-- ERRCODE is 0 when ERRF = 0, else one of the codes 1 to 10 (R36, 60_exceptions.md R211). -/
  errors : if s.errf then (∃ e : Err, s.errcode = e.code) else s.errcode = 0
  /-- VRES and MALF are set only by VERIFY, RREP only by SIGN, and by a command without error (R37). -/
  results : (s.vres = true → s.lastop = 0x33 ∧ s.malf = false ∧ s.errf = false)
    ∧ (s.malf = true → s.lastop = 0x33 ∧ s.errf = false)
    ∧ (s.rrep = true → s.lastop = 0x32 ∧ s.errf = false)

/-- The open hash call has taken exactly the bytes `msg`: H0..H4 is `H_INIT` iterated over its full
blocks, MBUF holds the rest, LEN is its bit length (41_hash.md R148). -/
def Absorbed (msg : List Byte) (s : State) : Prop :=
  s.h = compressBlocks (msg.length / 64) hInit msg ∧ s.mbuf = msg.drop (64 * (msg.length / 64))
    ∧ s.len.toNat = 8 * msg.length

/-- H0..H4 hold the digest of `msg` (10_state.md R25, 41_hash.md R139). -/
def HoldsDigestOf (msg : List Byte) (s : State) : Prop := s.h = hashMsg msg ∧ s.len.toNat = 8 * msg.length

/-- What HASHING and DVALID promise: an open call has taken some message; a valid digest is the hash
of some message, and then no call is open (10_state.md R24, R25). -/
def DigestMeaning (s : State) : Prop :=
  (s.hashing = true → ∃ msg, Absorbed msg s)
    ∧ (s.dvalid = true → s.hashing = false ∧ ∃ msg, HoldsDigestOf msg s)

/-! ## Runs of commands -/

/-- The commands of a list one after another, stopping at the first that does not end. -/
def execAll : List Instr → State → Result
  | [], s => .next s
  | i :: is, s =>
    match exec i s with
    | .next t => execAll is t
    | .fault f => .fault f
    | .refused r => .refused r

/-- `k` steps of the machine, stopping at the first that does not end. -/
def stepMany : Nat → State → Result
  | 0, s => .next s
  | k + 1, s =>
    match step s with
    | .next t => stepMany k t
    | .fault f => .fault f
    | .refused r => .refused r

/-! ## Premises on the collaborator, and the signature equations -/

/-- `r` of the nonce `k` (42_signature.md R169): the x coordinate of `k · G` modulo `n`. -/
def nonceR (p : Params) (n k : Nat) : Nat := (grpScalarMultiply p k (grpBasePoint p)).x % n

/-- A nonce in `[1, n-1]` that leads to r = 0 or to s = 0 (42_signature.md R170): as `k` has an
inverse, s is 0 exactly when n divides `h + r * d`. -/
def DegenerateNonce (p : Params) (n d h k : Nat) : Prop :=
  1 ≤ k ∧ k < n ∧ (nonceR p n k = 0 ∨ (Nat.Coprime k n ∧ (h + nonceR p n k * d) % n = 0))

/-- RNG's answer to the draw number `j`, from 0, of a command that begins in `s`: a supplied answer, or a
free one where none is supplied (42_signature.md R163). -/
def drawAnswer (s : State) (n j : Nat) : Option Int := rngAnswer (afterDraws j s) n

/-- The order GRP answers is one that `FetchOrder` accepts (42_signature.md R164), namely `n`. -/
def OrderIs (p : Params) (n : Nat) : Prop := grpOrder p = (n : Int) ∧ 2 ≤ n ∧ n < 2 ^ p.nbits

/-- GRP is a cyclic group of order `n` with the generator `basePoint()`: `point a` is `a · G`. This is
the premise of 42_signature.md R175, beyond 00_scope.md R6. -/
def CyclicGroup (p : Params) (n : Nat) (point : Nat → GroupElement) : Prop :=
  grpBasePoint p = point 1
    ∧ (∀ a, point (a % n) = point a)
    ∧ (∀ k a, k < n → grpScalarMultiply p k (point a) = point (k * a))
    ∧ (∀ a b, grpAddPoints p (point a) (point b) = point (a + b))

end Sys2Proof.Machine
end

