-- ==== Sys2Proof/Certificates/Slice0/Obligations.lean ====
section
/-!
DEFINITION. The statements for the provers. Each docstring names the rule of spec/ it formalises.
-/

open Sys2Proof Sys2Proof.Machine

/-! ## Encoding and decoding -/

/-- 30_encoding.md R91 to R95, R98: no bit of an encoding is dropped. -/
def Obligations.DecodeOfEncodeIsTheInstruction : Prop :=
  ∀ i : Instr, decode (encode i).1 (encode i).2 = .ok i

/-- 30_encoding.md R96, R98: each instruction has one word; no other word decodes to it. -/
def Obligations.EncodeOfDecodeIsTheWord : Prop :=
  ∀ (p : Port) (c : Word) (i : Instr), decode p c = .ok i → encode i = (p, c)

/-- 30_encoding.md R95, R96: the decoding procedure and the table of masks agree row by row, a word of
CMD is a command exactly when some row matches it, and the rows' patterns are disjoint. -/
def Obligations.TableRowsAndDecoderAgree : Prop :=
  (∀ row ∈ opcodeTable, ∀ (p : Port) (c : Word),
      row.matchesWord p c = true ↔ ∃ i, decode p c = .ok i ∧ mnemonicOf i = row.mnemonic)
    ∧ (∀ c : Word, wellFormedWord .cmd c = true ↔ ∃ i, decode .cmd c = .ok i)
    ∧ (∀ row₁ ∈ opcodeTable, ∀ row₂ ∈ opcodeTable, ∀ (p : Port) (c : Word),
        row₁.matchesWord p c = true → row₂.matchesWord p c = true → row₁ = row₂)

/-- 95_test_vectors.md section 5: words written out, one or two of each family. -/
def Obligations.WordsWrittenOutDecode : Prop :=
  decode .cmd 0x01000000 = .ok .srst
    ∧ decode .cmd 0x1200ABCD = .ok (.hpush2 0xAB 0xCD)
    ∧ decode .cmd 0x13ABCDEF = .ok (.hpush3 0xAB 0xCD 0xEF)
    ∧ decode .msgw 0x61626364 = .ok (.hpush4 0x61 0x62 0x63 0x64)
    ∧ decode .cmd 0x20000001 = .ok (.modinv true)
    ∧ decode .cmd 0x21000000 = .ok (.modred false)
    ∧ decode .cmd 0x33000000 = .ok .verify
    ∧ decode .cmd 0x11000100 = .error .nonZeroField
    ∧ decode .cmd 0x1F000000 = .error .unassignedOpcode

/-! ## The step and the bus -/

/-- 43_control.md R200: a step whose event is the host's write of a command word is `exec` of the decoded
instruction, on the state without the event and with the write's outcome OK. -/
def Obligations.StepRunsTheDecodedCommand : Prop :=
  ∀ (s : State) (rest : List HostEvent) (p : Port) (c : Word) (i : Instr),
    s.pending = .access (commandWrite s.cfg p c) :: rest → decode p c = .ok i →
      step s = exec i { s with pending := rest, resp := some .okWrite }

/-- The model's convention of log entry 9: the instruction of a table word, placed by
`State.withFetchWord`, is what the very next step runs. -/
def Obligations.PlacedTableWordRunsNext : Prop :=
  ∀ (s : State) (nbits w : Nat) (i : Instr), decodeTableWord nbits w = some i →
    step (s.withFetchWord nbits w) = exec i { s with resp := some .okWrite }

/-- 43_control.md R203, 30_encoding.md R96: an illegal word only ends in IllegalCommand. -/
def Obligations.IllegalWordOnlyReportsIllegalCommand : Prop :=
  (∀ (s : State) (rest : List HostEvent) (c : Word),
      s.pending = .access (commandWrite s.cfg .cmd c) :: rest → wellFormedWord .cmd c = false →
        ∃ t, step s = .next t ∧ EndsInError (c.extractLsb' 24 8) .illegalCommand t
          ∧ SameDigest s t ∧ SameArith s t ∧ t.regN = s.regN ∧ SameKey s t ∧ SameSignature s t ∧ SameRng s t
          ∧ t.cfg = s.cfg ∧ t.pending = rest ∧ t.resp = some .okWrite)
    ∧ wellFormedWord .cmd 0x00000000 = false ∧ wellFormedWord .cmd 0xFFFFFFFF = false
    ∧ wellFormedWord .cmd 0x10000001 = false

/-- 70_reset_and_hazards.md R241: SRST equals reset except that LASTOP = 0x01, and neither touches GRP
or RNG. The reset event leaves no outcome of a transaction: that clause is the model's, log entry 2. -/
def Obligations.SoftResetIsResetExceptLastop : Prop :=
  ∀ s : State,
    (∃ t, exec .srst s = .next t
      ∧ t = { State.resetWith s.cfg with
              lastop := 0x01, draws := s.draws, drawCount := s.drawCount, pending := s.pending, resp := s.resp })
    ∧ (∀ rest, s.pending = .reset :: rest → ∃ t, step s = .next t
      ∧ t = { State.resetWith s.cfg with
              draws := s.draws, drawCount := s.drawCount, pending := rest, resp := none })

/-- 10_state.md R46: the value of every piece of state after reset, whatever the parameters, and what
STATUS and CONFIG then read. -/
def Obligations.ResetValues : Prop :=
  ∀ p : Params, ∀ s : State, s = State.resetWith p →
    s.h = ⟨0x67452301, 0xEFCDAB89, 0x98BADCFE, 0x10325476, 0xC3D2E1F0⟩
      ∧ s.mbuf.length = 0 ∧ s.len = 0 ∧ s.hashing = false ∧ s.dvalid = false
      ∧ (∀ x : BigReg, s.big x = 0) ∧ s.qcid = 0 ∧ s.keyst = false
      ∧ s.vres = false ∧ s.malf = false ∧ s.rrep = false ∧ s.errf = false
      ∧ s.errcode = 0 ∧ s.lastop = 0 ∧ s.lastr = 0 ∧ s.lastrv = false
      ∧ busRead s 0x004 = some 0x00000000
      ∧ busRead s 0x008 = some (BitVec.ofNat 32 (p.retryCap * 256 + p.nw))

/-- 20_memory.md R69, 00_scope.md R13: events are taken one at a time in their order, each is finished by
one step, no step stops, and the parameters never change. With no event the core is idle
(60_exceptions.md R229). -/
def Obligations.EventsAreTakenInOrder : Prop :=
  ∀ s : State, (s.pending = [] → step s = .next s)
    ∧ ∀ (e : HostEvent) (rest : List HostEvent), s.pending = e :: rest →
        ∃ t, step s = .next t ∧ t.pending = rest ∧ t.cfg = s.cfg

/-- 20_memory.md R62, R63: the outcome of every access by its address, size, direction and target. Only
aligned 32-bit accesses to a register of that direction end OK; a read changes nothing; a refused access
ends BUSERR and changes nothing; an address outside the block is no access to CDL-CORE. A read of QCID gives
its value. That an access outside the block is taken from the queue and leaves no outcome is the model's
choice, log entry 13. -/
def Obligations.AccessOutcomeByTarget : Prop :=
  ∀ (s : State) (rest : List HostEvent) (acc : BusAccess),
    s.cfg.legal = true → s.pending = .access acc :: rest →
      ((acc.addr < s.cfg.base ∨ s.cfg.base + 4096 ≤ acc.addr) →
          step s = .next { s with pending := rest, resp := none })
      ∧ (∀ off, acc.addr = s.cfg.base + off → off < 4096 →
          (acc.size = .b32 → acc.kind = .read → readableOffset s.cfg.nw off →
              ∃ v, step s = .next { s with pending := rest, resp := some (.okRead v) } ∧ (off = 0x02C → v = s.qcid))
          ∧ (∀ v, acc.size = .b32 → acc.kind = .write v → writableOffset s.cfg.nw off →
              ∃ t, step s = .next t ∧ t.resp = some .okWrite)
          ∧ ((acc.size ≠ .b32 ∨ (acc.kind = .read ∧ ¬ readableOffset s.cfg.nw off)
                ∨ (∃ v, acc.kind = .write v) ∧ ¬ writableOffset s.cfg.nw off) →
              step s = .next { s with pending := rest, resp := some .busErr }))

/-- 10_state.md R38: CONFIG reads NW in bits 7:0 and RETRY_CAP in bits 31:8, with the rule's example; a
write to it is refused, and no step changes what it reads. -/
def Obligations.ConfigReadsTheParameters : Prop :=
  (∀ (s : State) (rest : List HostEvent), s.cfg.legal = true →
      s.pending = .access (readAt s.cfg 0x008) :: rest →
        ∃ v : Word, step s = .next { s with pending := rest, resp := some (.okRead v) }
          ∧ (v.extractLsb' 0 8).toNat = s.cfg.nw ∧ (v.extractLsb' 8 24).toNat = s.cfg.retryCap
          ∧ (s.cfg.nbits = 256 → s.cfg.retryCap = 4 → v = 0x00000408))
    ∧ (∀ (s : State) (v : Word) (rest : List HostEvent), s.pending = .access (writeAt s.cfg 0x008 v) :: rest →
        step s = .next { s with pending := rest, resp := some .busErr })
    ∧ (∀ s t : State, step s = .next t → t.cfg = s.cfg)

/-- 10_state.md R36: the bits of STATUS; reserved bits read 0, the read changes nothing, and a write is
refused. -/
def Obligations.StatusReadsTheFlags : Prop :=
  (∀ (s : State) (rest : List HostEvent), s.pending = .access (readAt s.cfg 0x004) :: rest →
      ∃ v : Word, step s = .next { s with pending := rest, resp := some (.okRead v) }
        ∧ v.getLsbD 0 = s.hashing ∧ v.getLsbD 1 = s.dvalid ∧ v.getLsbD 2 = s.keyst ∧ v.getLsbD 3 = s.vres
        ∧ v.getLsbD 4 = s.malf ∧ v.getLsbD 5 = s.rrep ∧ v.getLsbD 6 = false ∧ v.getLsbD 7 = s.errf
        ∧ v.extractLsb' 8 8 = s.errcode ∧ v.extractLsb' 16 8 = s.lastop ∧ v.extractLsb' 24 8 = 0)
    ∧ (∀ (s : State) (v : Word) (rest : List HostEvent), s.pending = .access (writeAt s.cfg 0x004 v) :: rest →
        step s = .next { s with pending := rest, resp := some .busErr })

/-- 10_state.md R41: LENLO and LENHI read the two halves of LEN without a side effect, a write to either is
refused, and a transaction that starts no command leaves LEN, so that two reads with no command between
them are consistent. -/
def Obligations.LengthReadsInTwoHalves : Prop :=
  (∀ s : State, ∃ lo hi : Word,
      (∀ rest, ∀ t : State, t = { s with pending := .access (readAt s.cfg 0x024) :: rest } →
          step t = .next { s with pending := rest, resp := some (.okRead lo) })
        ∧ (∀ rest, ∀ t : State, t = { s with pending := .access (readAt s.cfg 0x028) :: rest } →
          step t = .next { s with pending := rest, resp := some (.okRead hi) })
        ∧ lo.toNat = s.len.toNat % 2 ^ 32 ∧ hi.toNat = s.len.toNat / 2 ^ 32)
    ∧ (∀ (s : State) (off : Nat) (v : Word) (rest : List HostEvent), off = 0x024 ∨ off = 0x028 →
        s.pending = .access (writeAt s.cfg off v) :: rest →
          step s = .next { s with pending := rest, resp := some .busErr })
    ∧ (∀ (s : State) (acc : BusAccess) (rest : List HostEvent), s.pending = .access acc :: rest →
        (∀ (p : Port) (c : Word), acc ≠ commandWrite s.cfg p c) → ∃ t, step s = .next t ∧ t.len = s.len)

/-- 30_encoding.md R100 (RDDIGEST), 10_state.md R21: the five reads give the digest integer, H0 most
significant. -/
def Obligations.DigestReadsInFiveWords : Prop :=
  ∀ s : State, ∃ w : Nat → Word,
    (∀ i, i < 5 → ∀ rest, ∀ t : State, t = { s with pending := .access (readAt s.cfg (0x010 + 4 * i)) :: rest } →
        step t = .next { s with pending := rest, resp := some (.okRead (w i)) })
      ∧ (w 0 ++ w 1 ++ w 2 ++ w 3 ++ w 4).toNat = digestInt s.h

/-- 20_memory.md R64: word `i` of a big-integer register reads bits `32i+31 : 32i`, and the value of the
register is the sum of its words, least significant first. -/
def Obligations.BigRegisterReadsLeastWordFirst : Prop :=
  ∀ (s : State) (x : BigReg), Legal s → ∃ w : Nat → Word,
    (∀ i, i < s.cfg.nw → ∀ rest, ∀ t : State,
        t = { s with pending := .access (readAt s.cfg (x.base + 4 * i)) :: rest } →
          step t = .next { s with pending := rest, resp := some (.okRead (w i)) })
      ∧ s.big x = ∑ i ∈ Finset.range s.cfg.nw, (w i).toNat * 2 ^ (32 * i)

/-- 20_memory.md R75, R67: a write of one word of A, M, D, QX, QY, R or S takes effect at once on that
word alone; no other register, word or flag changes, but that KEYST is cleared for D, QX and QY. A write of
QCID stores the word there and clears KEYST, and nothing else changes. -/
def Obligations.BigRegisterWriteChangesOneWord : Prop :=
  (∀ (s : State) (x : BigReg) (i : Nat) (v : Word) (rest : List HostEvent),
      s.cfg.legal = true → x.writable = true → i < s.cfg.nw →
      s.pending = .access (writeAt s.cfg (x.base + 4 * i) v) :: rest →
        ∃ t, step s = .next t
          ∧ bigWord (t.big x) i = v ∧ (∀ j, j ≠ i → bigWord (t.big x) j = bigWord (s.big x) j)
          ∧ (∀ y : BigReg, y ≠ x → t.big y = s.big y) ∧ t.qcid = s.qcid
          ∧ t.keyst = (if x.isKey then false else s.keyst)
          ∧ SameDigest s t ∧ SameFlags s t ∧ t.lastr = s.lastr ∧ t.lastrv = s.lastrv ∧ SameRng s t
          ∧ t.cfg = s.cfg ∧ t.pending = rest ∧ t.resp = some .okWrite)
    ∧ (∀ (s : State) (v : Word) (rest : List HostEvent), s.pending = .access (writeAt s.cfg 0x02C v) :: rest →
        step s = .next { s with qcid := v, keyst := false, pending := rest, resp := some .okWrite })

/-- 10_state.md R45: a write that ends OK to any word of D, QX, QY, or to QCID clears KEYST whatever value
is written; a write that ends BUSERR changes nothing; KEYGEN, which writes those registers without error,
does not clear it. -/
def Obligations.KeyWriteClearsKeyState : Prop :=
  (∀ (s : State) (off : Nat) (v : Word) (rest : List HostEvent), s.cfg.legal = true →
      (off = 0x02C ∨ ∃ base ∈ [0x280, 0x300, 0x380], ∃ i, i < s.cfg.nw ∧ off = base + 4 * i) →
      s.pending = .access (writeAt s.cfg off v) :: rest →
        ∃ t, step s = .next t ∧ t.resp = some .okWrite ∧ t.keyst = false)
    ∧ (∀ (s t : State) (off : Nat) (v : Word) (rest : List HostEvent),
        s.pending = .access (writeAt s.cfg off v) :: rest → step s = .next t → t.resp = some .busErr →
          t = { s with pending := rest, resp := some .busErr })
    ∧ (∀ s t : State, exec .keygen s = .next t → t.errf = false → t.keyst = true)

/-- 30_encoding.md R100 (LDX): the NW word writes of a value below 2^NBITS, least significant word first,
leave the register at that value. -/
def Obligations.LoadingEveryWordLoadsTheValue : Prop :=
  ∀ (s : State) (x : BigReg) (v : Nat) (rest : List HostEvent),
    Legal s → x.writable = true → v < 2 ^ s.cfg.nbits →
    s.pending = (List.range s.cfg.nw).map
        (fun i => .access (writeAt s.cfg (x.base + 4 * i) (BitVec.ofNat 32 (v / 2 ^ (32 * i))))) ++ rest →
      ∃ t, stepMany s.cfg.nw s = .next t ∧ t.big x = v ∧ t.pending = rest
        ∧ (∀ y : BigReg, y ≠ x → t.big y = s.big y) ∧ SameDigest s t ∧ SameFlags s t

/-! ## Rules of every command -/

/-- 10_state.md R37, 60_exceptions.md R212 (a table the spec marks as derived): after a command the result
flags describe that command alone, and it ended without error or in one of its own errors; the flags an
earlier command left play no part. -/
def Obligations.ResultFlagsDescribeTheLastCommand : Prop :=
  ∀ (i : Instr) (s t : State), exec i s = .next t →
    t.lastop = lastopOf i
      ∧ (t.vres = true → i = .verify ∧ t.malf = false ∧ t.errf = false)
      ∧ (t.malf = true → i = .verify ∧ t.errf = false)
      ∧ (t.rrep = true → i = .sign ∧ t.errf = false)
      ∧ (if t.errf then ∃ e ∈ possibleErrors i, t.errcode = e.code else t.errcode = 0)
      ∧ ∀ op : Byte, exec i (beginCommand op s) = .next t

/-- 60_exceptions.md R221: a command that ends in error, an illegal word included, leaves every piece of
state as it was but the result flags, and N where the order had passed its check. The draws that KEYGEN or
SIGN took are gone. -/
def Obligations.ErrorsArePrecise : Prop :=
  (∀ (i : Instr) (s t : State), exec i s = .next t → t.errf = true →
      SameDigest s t ∧ SameArith s t ∧ SameKey s t ∧ SameSignature s t ∧ SameOutside s t
        ∧ (if (i = .keygen ∨ i = .sign ∨ i = .verify)
              ∧ (t.errcode = Err.rngFailure.code ∨ t.errcode = Err.keyRange.code
                ∨ t.errcode = Err.noInverseExists.code ∨ t.errcode = Err.retryExhausted.code)
            then (t.regN : Int) = grpOrder s.cfg else t.regN = s.regN)
        ∧ (i ≠ .keygen → i ≠ .sign → SameRng s t)
        ∧ ∃ m, t.draws = s.draws.drop m ∧ t.drawCount = s.drawCount + m
          ∧ (t.errcode = Err.rngFailure.code ∨ t.errcode = Err.retryExhausted.code → s.cfg.legal = true → 1 ≤ m))
    ∧ (∀ (c : Word) (s t : State), execIllegal c s = .next t →
        SameDigest s t ∧ SameArith s t ∧ SameKey s t ∧ SameSignature s t ∧ SameOutside s t ∧ t.regN = s.regN
          ∧ SameRng s t)

/-- 43_control.md R204: which command is legal in which state. A command out of sequence ends in
SequenceError and changes nothing but the result flags; no other command reports it. HSTART abandons an
open call. -/
def Obligations.SequenceErrorByState : Prop :=
  (∀ (i : Instr) (s : State), ∃ t, exec i s = .next t
      ∧ (t.errcode = Err.sequenceError.code ↔ outOfSequence i s = true)
      ∧ (outOfSequence i s = true → EndsInError (lastopOf i) .sequenceError t
          ∧ SameDigest s t ∧ SameArith s t ∧ t.regN = s.regN ∧ SameKey s t ∧ SameSignature s t ∧ SameRng s t
          ∧ SameOutside s t))
    ∧ (∀ s : State, Legal s → s.hashing = true → outOfSequence .sign s = true ∧ outOfSequence .verify s = true)
    ∧ (∀ s : State, ∃ t, exec .hstart s = .next t ∧ t.hashing = true ∧ t.h = hInit ∧ t.mbuf.length = 0 ∧ t.len = 0)

/-- 10_state.md R24, R25: the only events that change HASHING or DVALID are reset, SRST, HSTART, and an
HFINAL while a call is open. -/
def Obligations.HashStateChangesOnlyAsListed : Prop :=
  ∀ s t : State, step s = .next t →
    (t.hashing = s.hashing ∧ t.dvalid = s.dvalid)
      ∨ (∃ e rest, s.pending = e :: rest ∧ e.isReset = true ∧ t.hashing = false ∧ t.dvalid = false)
      ∨ (∃ rest c i, s.pending = .access (commandWrite s.cfg .cmd c) :: rest ∧ decode .cmd c = .ok i
          ∧ ((i = .srst ∧ t.hashing = false ∧ t.dvalid = false)
            ∨ (i = .hstart ∧ t.hashing = true ∧ t.dvalid = false)
            ∨ (i = .hfinal ∧ s.hashing = true ∧ t.hashing = false ∧ t.dvalid = true)))

/-- 10_state.md R35: KEYST is set only by a KEYGEN or a KEYLOAD that ends without error, and cleared only by
reset, SRST, and a host write that ends OK to D, QX, QY or QCID. -/
def Obligations.KeyStateChangesOnlyAsListed : Prop :=
  ∀ s t : State, step s = .next t → s.cfg.legal = true → t.keyst ≠ s.keyst →
    (t.keyst = true ∧ t.errf = false
        ∧ ∃ rest c i, s.pending = .access (commandWrite s.cfg .cmd c) :: rest ∧ decode .cmd c = .ok i
          ∧ (i = .keygen ∨ i = .keyload))
      ∨ (t.keyst = false
        ∧ ((∃ e rest, s.pending = e :: rest ∧ e.isReset = true)
          ∨ (∃ rest c, s.pending = .access (commandWrite s.cfg .cmd c) :: rest ∧ decode .cmd c = .ok .srst)
          ∨ (∃ rest off v, s.pending = .access (writeAt s.cfg off v) :: rest ∧ t.resp = some .okWrite
              ∧ (off = 0x02C ∨ ∃ base ∈ [0x280, 0x300, 0x380], ∃ i, i < s.cfg.nw ∧ off = base + 4 * i))))

/-- 10_state.md R21 to R34, 41_hash.md R130: what the commands of each unit leave alone, however they end.
The hash commands touch only the DIGEST unit and the result flags; MODINV and MODRED only T and the result
flags; the signature commands nothing of DIGEST and MODARITH, KEYLOAD only KEYST, VERIFY only N, KEYGEN no
signature, SIGN no key. -/
def Obligations.CommandsLeaveOtherUnitsAlone : Prop :=
  ∀ (i : Instr) (s t : State), exec i s = .next t →
    SameOutside s t
      ∧ (i ≠ .keygen → i ≠ .sign → SameRng s t)
      ∧ (((pushedBytes i).isSome = true ∨ i = .hstart ∨ i = .hfinal) →
          SameArith s t ∧ t.regN = s.regN ∧ SameKey s t ∧ SameSignature s t)
      ∧ (∀ neg, i = .modinv neg ∨ i = .modred neg →
          SameDigest s t ∧ t.regA = s.regA ∧ t.regM = s.regM ∧ t.regN = s.regN ∧ SameKey s t
            ∧ SameSignature s t)
      ∧ ((i = .keygen ∨ i = .keyload ∨ i = .sign ∨ i = .verify) → SameDigest s t ∧ SameArith s t)
      ∧ (i = .keygen → SameSignature s t)
      ∧ (i = .keyload → SameSignature s t ∧ t.regN = s.regN ∧ t.regD = s.regD ∧ t.regQX = s.regQX
          ∧ t.regQY = s.regQY ∧ t.qcid = s.qcid)
      ∧ (i = .sign → SameKey s t)
      ∧ (i = .verify → SameKey s t ∧ SameSignature s t)

/-! ## Modular arithmetic -/

/-- 40_modarith.md R110: `Mod(a, m)` is the unique integer in `[0, m)` that differs from `a` by a multiple
of `m`, whatever the sign of `a`; it is the floored modulus. -/
def Obligations.ModIsTheFlooredModulus : Prop :=
  (∀ a m : Int, 0 < m →
      0 ≤ modInt a m ∧ modInt a m < m ∧ m ∣ a - modInt a m
        ∧ (∀ r : Int, 0 ≤ r → r < m → m ∣ a - r → r = modInt a m)
        ∧ modInt a m = a - m * ⌊(a : ℚ) / (m : ℚ)⌋)
    ∧ modInt (-1) 7 = 6 ∧ modInt (-10) 7 = 4 ∧ modInt (-7) 7 = 0 ∧ modInt 10 7 = 3 ∧ (∀ x : Int, modInt x 1 = 0)

/-- 40_modarith.md R112: for `m > 1` a result is the unique `t` in `[0, m-1]` with `(a * t) mod m = 1`, it
exists exactly when `gcd(Mod(a, m), m) = 1`. That a result is never 0 is an inference the rule marks
derived. -/
def Obligations.ModInverseMeetsItsContract : Prop :=
  ∀ a m : Int, 1 < m →
    (∀ t : Nat, modInverse a m = .ok t →
        (t : Int) ≤ m - 1 ∧ modInt (a * t) m = 1 ∧ t ≠ 0
          ∧ ∀ u : Int, 0 ≤ u → u ≤ m - 1 → modInt (a * u) m = 1 → u = t)
      ∧ ((∃ t, modInverse a m = .ok t) ↔ Int.gcd (modInt a m) m = 1)

/-- 40_modarith.md R114 (a table the spec marks as derived from R113): which signal for which input. -/
def Obligations.ModInverseSignalByInput : Prop :=
  ∀ a m : Int,
    (m ≤ 0 ∨ m = 1 → modInverse a m = .error .invalidModulus)
      ∧ (2 ≤ m → a = 0 → modInverse a m = .error .divisionByZero)
      ∧ (2 ≤ m → a ≠ 0 → m ∣ a → modInverse a m = .error .noInverseExists)
      ∧ (2 ≤ m → a ≠ 0 → Int.gcd (modInt a m) m ≠ 1 → modInverse a m = .error .noInverseExists)
      ∧ (2 ≤ m → Int.gcd (modInt a m) m = 1 → ∃ t : Nat, modInverse a m = .ok t ∧ 1 ≤ t ∧ (t : Int) ≤ m - 1)

/-- 40_modarith.md R117 (laws the spec marks as derived from R112). -/
def Obligations.ModInverseLaws : Prop :=
  (∀ (a m : Int) (t : Nat), 2 ≤ m → modInverse a m = .ok t →
      modInverse (modInt a m) m = .ok t
        ∧ modInverse t m = .ok (modInt a m).toNat
        ∧ modInverse (-a) m = .ok (m - t).toNat)
    ∧ (∀ m : Int, 2 ≤ m → modInverse 1 m = .ok 1
        ∧ modInverse (-1) m = .ok (m - 1).toNat ∧ modInverse (m - 1) m = .ok (m - 1).toNat)
    ∧ (∀ (p : Nat) (k : Int), p.Prime → 0 < k → k < p → ∃ t, modInverse k p = .ok t)

/-- 40_modarith.md R115, R111: MODINV completes when M > 1 and gcd(a, M) = 1, where a is A or -A. T is the
inverse; nothing else but the result flags changes. -/
def Obligations.ModinvWritesTheInverse : Prop :=
  ∀ (neg : Bool) (s : State), 1 < s.regM → Nat.Coprime s.regA s.regM →
    ∃ t, exec (.modinv neg) s = .next t ∧ EndsClean 0x20 t
      ∧ t.regT < s.regM
      ∧ modInt ((if neg then -(s.regA : Int) else s.regA) * t.regT) s.regM = 1
      ∧ t.regA = s.regA ∧ t.regM = s.regM ∧ t.regN = s.regN
      ∧ SameDigest s t ∧ SameKey s t ∧ SameSignature s t ∧ SameRng s t ∧ SameOutside s t

/-- 40_modarith.md R115, 60_exceptions.md R222: the errors of MODINV, the first that applies; T keeps its
value and nothing else changes but the result flags. -/
def Obligations.ModinvErrorsInOrder : Prop :=
  ∀ (neg : Bool) (s : State), ∃ t, exec (.modinv neg) s = .next t
    ∧ (s.regM = 0 ∨ s.regM = 1 → EndsInError 0x20 .invalidModulus t)
    ∧ (2 ≤ s.regM → s.regA = 0 → EndsInError 0x20 .divisionByZero t)
    ∧ (2 ≤ s.regM → s.regA ≠ 0 → ¬ Nat.Coprime s.regA s.regM → EndsInError 0x20 .noInverseExists t)
    ∧ (s.regM ≤ 1 ∨ ¬ Nat.Coprime s.regA s.regM →
        SameArith s t ∧ t.regN = s.regN ∧ SameDigest s t ∧ SameKey s t ∧ SameSignature s t ∧ SameRng s t
          ∧ SameOutside s t)

/-- 40_modarith.md R116: MODRED writes the floored modulus for every M but 0, for which it ends in
InvalidModulus with T unchanged. -/
def Obligations.ModredWritesTheResidue : Prop :=
  ∀ (neg : Bool) (s : State), ∃ t, exec (.modred neg) s = .next t
    ∧ (s.regM ≠ 0 → EndsClean 0x21 t ∧ t.regT < s.regM
        ∧ (s.regM : Int) ∣ (if neg then -(s.regA : Int) else s.regA) - t.regT)
    ∧ (s.regM = 0 → EndsInError 0x21 .invalidModulus t ∧ t.regT = s.regT)
    ∧ t.regA = s.regA ∧ t.regM = s.regM ∧ t.regN = s.regN
    ∧ SameDigest s t ∧ SameKey s t ∧ SameSignature s t ∧ SameRng s t ∧ SameOutside s t

/-! ## The hash -/

/-- 00_scope.md R11: the left rotation, with the rule's examples. -/
def Obligations.RotateLeftFormula : Prop :=
  (∀ (x : Word) (n : Nat), 1 ≤ n → n ≤ 31 →
      (rotl32 x n).toNat = x.toNat * 2 ^ n % 2 ^ 32 + x.toNat / 2 ^ (32 - n))
    ∧ rotl32 0x80000000 1 = 0x00000001 ∧ rotl32 0x00000001 30 = 0x40000000 ∧ rotl32 0x80000001 5 = 0x00000030

/-- 41_hash.md R135 (the per-bit reading the spec marks as derived): "if b then c else d" in range 1,
parity in ranges 2 and 4, majority in range 3. -/
def Obligations.RoundFunctionPerBit : Prop :=
  ∀ (t : Nat) (b c d : Word) (j : Nat), t < 80 → j < 32 →
    (roundF t b c d).getLsbD j =
      if t < 20 then (if b.getLsbD j then c.getLsbD j else d.getLsbD j)
      else if 40 ≤ t ∧ t < 60 then
        decide (2 ≤ (b.getLsbD j).toNat + (c.getLsbD j).toNat + (d.getLsbD j).toNat)
      else decide (((b.getLsbD j).toNat + (c.getLsbD j).toNat + (d.getLsbD j).toNat) % 2 = 1)

/-- 41_hash.md R132: the layout of `Pad(msg)`, that `z` is the least that fits, and the padded length
(a consequence the rule marks derived). -/
def Obligations.PadLayout : Prop :=
  ∀ msg : List Byte, ∃ (z : Nat) (tail : List Byte),
    pad msg = msg ++ [0x80] ++ List.replicate z 0 ++ tail
      ∧ (msg.length + 1 + z) % 64 = 56 ∧ (∀ z', (msg.length + 1 + z') % 64 = 56 → z ≤ z')
      ∧ tail.length = 8
      ∧ (8 * msg.length < 2 ^ 64 → tail.foldl (fun v b => 256 * v + b.toNat) 0 = 8 * msg.length)
      ∧ (pad msg).length = 64 * ((msg.length + 8) / 64 + 1)

/-- 41_hash.md R133, R134: the sixteen big-endian words of a block and their extension to eighty. -/
def Obligations.ScheduleRecurrence : Prop :=
  ∀ block : List Byte, block.length = 64 → ∃ w : Nat → Word,
    schedule block = (List.range 80).map w
      ∧ (∀ j, j < 16 → (w j).toNat = (block.getD (4 * j) 0).toNat * 2 ^ 24 + (block.getD (4 * j + 1) 0).toNat * 2 ^ 16
          + (block.getD (4 * j + 2) 0).toNat * 2 ^ 8 + (block.getD (4 * j + 3) 0).toNat)
      ∧ (∀ i, 16 ≤ i → i < 80 → w i = rotl32 (w (i - 3) ^^^ w (i - 8) ^^^ w (i - 14) ^^^ w (i - 16)) 1)

/-- 41_hash.md R136 to R138: eighty rounds from the engine state, each from the values before it, then the
fold. -/
def Obligations.CompressIsEightyRoundsAndFold : Prop :=
  ∀ (c : Chain) (block : List Byte), block.length = 64 → ∃ v : Nat → Chain,
    v 0 = c
      ∧ (∀ t, t < 80 →
          (v (t + 1)).h0 = rotl32 (v t).h0 5 + roundF t (v t).h1 (v t).h2 (v t).h3 + (v t).h4
              + [0x5A827999, 0x6ED9EBA1, 0x8F1BBCDC, 0xCA62C1D6].getD (t / 20) 0 + (schedule block).getD t 0
            ∧ (v (t + 1)).h1 = (v t).h0 ∧ (v (t + 1)).h2 = rotl32 (v t).h1 30 ∧ (v (t + 1)).h3 = (v t).h2
            ∧ (v (t + 1)).h4 = (v t).h3)
      ∧ compress c block = ⟨c.h0 + (v 80).h0, c.h1 + (v 80).h1, c.h2 + (v 80).h2, c.h3 + (v 80).h3, c.h4 + (v 80).h4⟩

/-- 41_hash.md R140: the three forms of the digest denote one 160-bit integer, H0 most significant. -/
def Obligations.DigestFormsAgree : Prop :=
  ∀ c : Chain,
    digestInt c = (c.h0 ++ c.h1 ++ c.h2 ++ c.h3 ++ c.h4).toNat ∧ digestInt c < 2 ^ 160
      ∧ (digestBytes c).length = 20 ∧ (digestBytes c).foldl (fun v b => 256 * v + b.toNat) 0 = digestInt c
      ∧ (digestHex c).length = 40 ∧ (∀ ch ∈ digestHex c, ch ∈ "0123456789abcdef".toList)
      ∧ (digestHex c).foldl (fun v ch => 16 * v + "0123456789abcdef".toList.idxOf ch) 0 = digestInt c

/-- 41_hash.md R141: HSTART opens a hash call in every state; the rest of the state is untouched. -/
def Obligations.HstartOpensACall : Prop :=
  ∀ s : State, ∃ t, exec .hstart s = .next t ∧ EndsClean 0x10 t
    ∧ t.h = hInit ∧ t.mbuf.length = 0 ∧ t.len = 0 ∧ t.hashing = true ∧ t.dvalid = false
    ∧ SameArith s t ∧ t.regN = s.regN ∧ SameKey s t ∧ SameSignature s t ∧ SameRng s t ∧ SameOutside s t

/-- 41_hash.md R142 to R146: a push of 1 to 4 bytes in an open call appends them all, in order; the 64th
byte held compresses the block inside the push. -/
def Obligations.PushAppendsItsBytes : Prop :=
  ∀ (i : Instr) (bs : List Byte) (s : State), pushedBytes i = some bs →
    s.hashing = true → s.mbuf.length < 64 → s.len.toNat + 8 * bs.length < 2 ^ 64 →
      ∃ t, exec i s = .next t ∧ EndsClean (lastopOf i) t
        ∧ t.len.toNat = s.len.toNat + 8 * bs.length ∧ t.mbuf.length < 64
        ∧ (if (s.mbuf ++ bs).length < 64 then t.h = s.h ∧ t.mbuf = s.mbuf ++ bs
            else t.h = compress s.h ((s.mbuf ++ bs).take 64) ∧ t.mbuf = (s.mbuf ++ bs).drop 64)
        ∧ t.hashing = true ∧ t.dvalid = s.dvalid
        ∧ SameArith s t ∧ t.regN = s.regN ∧ SameKey s t ∧ SameSignature s t ∧ SameRng s t ∧ SameOutside s t

/-- 41_hash.md R142: a push that would bring LEN to 2^64 or more ends in MsgTooLong and appends nothing. -/
def Obligations.PushBeyondTheLimitIsRefused : Prop :=
  ∀ (i : Instr) (bs : List Byte) (s : State), pushedBytes i = some bs →
    s.hashing = true → 2 ^ 64 ≤ s.len.toNat + 8 * bs.length →
      ∃ t, exec i s = .next t ∧ EndsInError (lastopOf i) .msgTooLong t
        ∧ SameDigest s t ∧ SameArith s t ∧ t.regN = s.regN ∧ SameKey s t ∧ SameSignature s t ∧ SameRng s t
        ∧ SameOutside s t

/-- 41_hash.md R147: HFINAL in an open call compresses the tail, one block when BCNT ≤ 55 and two when
BCNT is 56 to 63, closes the call and marks the digest valid; LEN is not changed. With no open call it is
SequenceError and only the result flags change. -/
def Obligations.HfinalClosesTheCall : Prop :=
  (∀ s : State, s.hashing = true → s.mbuf.length < 64 →
      ∃ (t : State) (z : Nat) (tail : List Byte), exec .hfinal s = .next t ∧ EndsClean 0x14 t
        ∧ tail = s.mbuf ++ [0x80] ++ List.replicate z 0 ++ (List.range 8).map (fun j => s.len.extractLsb' (56 - 8 * j) 8)
        ∧ (if s.mbuf.length ≤ 55 then z = 55 - s.mbuf.length ∧ tail.length = 64 ∧ t.h = compress s.h tail
            else z = 119 - s.mbuf.length ∧ tail.length = 128
              ∧ t.h = compress (compress s.h (tail.take 64)) (tail.drop 64))
        ∧ t.mbuf.length = 0 ∧ t.len = s.len ∧ t.hashing = false ∧ t.dvalid = true
        ∧ SameArith s t ∧ t.regN = s.regN ∧ SameKey s t ∧ SameSignature s t ∧ SameRng s t ∧ SameOutside s t)
    ∧ (∀ s : State, s.hashing = false → ∃ t, exec .hfinal s = .next t ∧ EndsInError 0x14 .sequenceError t
        ∧ SameDigest s t ∧ SameArith s t ∧ t.regN = s.regN ∧ SameKey s t ∧ SameSignature s t ∧ SameRng s t
        ∧ SameOutside s t)

/-- 10_state.md R24, R25 as an invariant of every step: while a call is open the unit holds exactly what
some message leaves there, and while DVALID = 1 no call is open and the words H0..H4 are the digest of some
message whose bit length is LEN. -/
def Obligations.StepsKeepTheMeaningOfTheDigest : Prop :=
  ∀ s t : State, DigestMeaning s → step s = .next t → DigestMeaning t

/-- 41_hash.md R148 (streaming equivalence, which the spec marks as derived): HSTART, then pushes in any
grouping with commands of other families between them, then HFINAL, leave the hash of the bytes pushed. -/
def Obligations.StreamingEqualsHash : Prop :=
  ∀ (s : State) (is : List Instr) (msg : List Byte),
    (∀ i ∈ is, i ≠ .srst ∧ i ≠ .hstart ∧ i ≠ .hfinal) →
    msg = (is.filterMap pushedBytes).flatten → 8 * msg.length < 2 ^ 64 →
      ∃ t, execAll (.hstart :: is ++ [.hfinal]) s = .next t
        ∧ t.h = hashMsg msg ∧ t.len.toNat = 8 * msg.length ∧ t.hashing = false ∧ t.dvalid = true

/-! ## Signatures -/

/-- 42_signature.md R164: KEYGEN, SIGN and VERIFY fetch the order anew and check it. A bad order is
InvalidModulus with N unchanged and no draw; a good one is written to N, and the old N plays no part. -/
def Obligations.GroupOrderIsFetchedAndChecked : Prop :=
  ∀ (i : Instr) (s : State),
    (i = .keygen ∨ (i = .sign ∨ i = .verify) ∧ s.keyst = true ∧ s.dvalid = true) →
      ((grpOrder s.cfg < 2 ∨ 2 ^ s.cfg.nbits ≤ grpOrder s.cfg) →
          ∃ t, exec i s = .next t ∧ EndsInError (lastopOf i) .invalidModulus t ∧ t.regN = s.regN
            ∧ SameDigest s t ∧ SameArith s t ∧ SameKey s t ∧ SameSignature s t ∧ SameRng s t ∧ SameOutside s t)
      ∧ (∀ n, OrderIs s.cfg n →
          ∃ t, exec i s = .next t ∧ t.regN = n ∧ ∀ v, exec i { s with regN := v } = .next t)

/-- 42_signature.md R166, R165: KEYGEN makes exactly one draw. A draw in `[1, n-1]` gives the key pair
(d, d·G) and KEYST = 1; a failure or a value outside is RngFailure, with N written and the key unchanged. -/
def Obligations.KeygenMakesAKeyPair : Prop :=
  ∀ (s : State) (n : Nat), OrderIs s.cfg n → ∃ t, exec .keygen s = .next t ∧ t.regN = n
    ∧ t.draws = s.draws.tail ∧ t.drawCount = s.drawCount + 1
    ∧ (∀ d : Int, rngAnswer s n = some d → 1 ≤ d → d ≤ (n : Int) - 1 →
        EndsClean 0x30 t ∧ (t.regD : Int) = d
          ∧ (⟨t.regQX, t.regQY, t.qcid⟩ : GroupElement) = grpScalarMultiply s.cfg d.toNat (grpBasePoint s.cfg)
          ∧ t.keyst = true)
    ∧ ((rngAnswer s n = none ∨ ∃ d : Int, rngAnswer s n = some d ∧ (d < 1 ∨ (n : Int) - 1 < d)) →
        EndsInError 0x30 .rngFailure t ∧ SameKey s t)
    ∧ SameDigest s t ∧ SameArith s t ∧ SameSignature s t ∧ SameOutside s t

/-- 42_signature.md R167: KEYLOAD asks GRP whether (QX, QY, QCID) is on the curve and sets KEYST, or ends in
InvalidPublicKey and changes nothing but the result flags. D and N play no part. -/
def Obligations.KeyloadValidatesThePublicKey : Prop :=
  ∀ s : State, ∃ t, exec .keyload s = .next t
    ∧ (grpIsOnCurve s.cfg ⟨s.regQX, s.regQY, s.qcid⟩ = true → EndsClean 0x31 t ∧ t.keyst = true)
    ∧ (grpIsOnCurve s.cfg ⟨s.regQX, s.regQY, s.qcid⟩ = false →
        EndsInError 0x31 .invalidPublicKey t ∧ t.keyst = s.keyst)
    ∧ t.regD = s.regD ∧ t.regQX = s.regQX ∧ t.regQY = s.regQY ∧ t.qcid = s.qcid ∧ t.regN = s.regN
    ∧ SameDigest s t ∧ SameArith s t ∧ SameSignature s t ∧ SameRng s t ∧ SameOutside s t

/-- 42_signature.md R169, R170, R177: SIGN with a key, a digest and D in `[1, n-1]` completes at the first
draw that is not degenerate, within RETRY_CAP draws, whether RNG's answers are supplied or free. R is the x
coordinate of k·G modulo n; S is the value in `[1, n-1]` with `S * k ≡ h + R * D` modulo n. -/
def Obligations.SignReturnsASignature : Prop :=
  ∀ (s : State) (n m : Nat) (k : Nat → Nat),
    OrderIs s.cfg n → s.keyst = true → s.dvalid = true → 1 ≤ s.regD → s.regD ≤ n - 1 → m < s.cfg.retryCap →
    (∀ j < m, drawAnswer s n j = some (k j : Int) ∧ DegenerateNonce s.cfg n s.regD (digestInt s.h) (k j)) →
    drawAnswer s n m = some (k m : Int) → 1 ≤ k m → k m ≤ n - 1 → Nat.Coprime (k m) n → nonceR s.cfg n (k m) ≠ 0 →
    (digestInt s.h + nonceR s.cfg n (k m) * s.regD) % n ≠ 0 →
      ∃ t, exec .sign s = .next t
        ∧ t.vres = false ∧ t.malf = false ∧ t.errf = false ∧ t.errcode = 0 ∧ t.lastop = 0x32
        ∧ t.rrep = (s.lastrv && decide (s.lastr = nonceR s.cfg n (k m)))
        ∧ t.regN = n ∧ t.regR = nonceR s.cfg n (k m)
        ∧ 1 ≤ t.regS ∧ t.regS ≤ n - 1 ∧ (t.regS * k m) % n = (digestInt s.h + t.regR * s.regD) % n
        ∧ t.lastr = t.regR ∧ t.lastrv = true
        ∧ t.draws = s.draws.drop (m + 1) ∧ t.drawCount = s.drawCount + m + 1
        ∧ SameKey s t ∧ SameDigest s t ∧ SameArith s t ∧ SameOutside s t

/-- 42_signature.md R170: RETRY_CAP degenerate draws in a row, supplied or free, end SIGN in RetryExhausted;
R, S and the hidden copy keep their values. -/
def Obligations.SignEndsWhenRetriesAreExhausted : Prop :=
  ∀ (s : State) (n : Nat) (k : Nat → Nat),
    OrderIs s.cfg n → s.keyst = true → s.dvalid = true → 1 ≤ s.regD → s.regD ≤ n - 1 →
    (∀ j < s.cfg.retryCap, drawAnswer s n j = some (k j : Int)
      ∧ DegenerateNonce s.cfg n s.regD (digestInt s.h) (k j)) →
      ∃ t, exec .sign s = .next t ∧ EndsInError 0x32 .retryExhausted t ∧ t.regN = n
        ∧ t.draws = s.draws.drop s.cfg.retryCap ∧ t.drawCount = s.drawCount + s.cfg.retryCap
        ∧ SameKey s t ∧ SameSignature s t ∧ SameDigest s t ∧ SameArith s t ∧ SameOutside s t

/-- 42_signature.md R169, 60_exceptions.md R222: the other errors of SIGN once the order is good: KeyRange
before any draw, then, for the first draw, RngFailure, and NoInverseExists for a nonce that is not coprime
to the order. -/
def Obligations.SignErrorsInOrder : Prop :=
  ∀ (s : State) (n : Nat), OrderIs s.cfg n → s.keyst = true → s.dvalid = true → s.cfg.legal = true →
    ∃ t, exec .sign s = .next t ∧ t.regN = n
      ∧ (s.regD < 1 ∨ n - 1 < s.regD → EndsInError 0x32 .keyRange t ∧ SameRng s t)
      ∧ (1 ≤ s.regD → s.regD ≤ n - 1 →
          (rngAnswer s n = none ∨ ∃ d : Int, rngAnswer s n = some d ∧ (d < 1 ∨ (n : Int) - 1 < d)) →
          EndsInError 0x32 .rngFailure t ∧ SameSignature s t)
      ∧ (∀ k : Nat, 1 ≤ s.regD → s.regD ≤ n - 1 → rngAnswer s n = some (k : Int) → 1 ≤ k → k ≤ n - 1 →
          nonceR s.cfg n k ≠ 0 → ¬ Nat.Coprime k n →
          EndsInError 0x32 .noInverseExists t ∧ SameSignature s t)

/-- 42_signature.md R170: a SIGN makes at most RETRY_CAP draws, at least one when it succeeds, and takes
RNG's answers in their order. -/
def Obligations.SignDrawsAtMostRetryCap : Prop :=
  ∀ s t : State, exec .sign s = .next t → ∃ m, m ≤ s.cfg.retryCap ∧ t.drawCount = s.drawCount + m
    ∧ t.draws = s.draws.drop m ∧ (t.errf = false → 1 ≤ m)

/-- 10_state.md R43, 42_signature.md R176: no register holds the nonce, its inverse or the retry count. Two
successful SIGNs from one state that return the same signature, whatever RNG answered, leave the same state
of CDL-CORE. -/
def Obligations.SignLeavesNoTraceOfTheNonce : Prop :=
  ∀ (s t₁ t₂ : State) (draws₁ draws₂ : List (Option Int)),
    exec .sign { s with draws := draws₁ } = .next t₁ → exec .sign { s with draws := draws₂ } = .next t₂ →
    t₁.errf = false → t₂.errf = false → t₁.regR = t₂.regR → t₁.regS = t₂.regS →
      { t₁ with draws := [], drawCount := 0 } = { t₂ with draws := [], drawCount := 0 }

/-- 42_signature.md R177: the nonce-reuse flag of a successful SIGN, and that its r and s lie in `[1, n-1]`. -/
def Obligations.RepeatedRIsFlagged : Prop :=
  ∀ (s t : State) (n : Nat), OrderIs s.cfg n → exec .sign s = .next t → t.errf = false →
    t.rrep = (s.lastrv && decide (s.lastr = t.regR)) ∧ t.lastr = t.regR ∧ t.lastrv = true
      ∧ 1 ≤ t.regR ∧ t.regR ≤ n - 1 ∧ 1 ≤ t.regS ∧ t.regS ≤ n - 1

/-- 42_signature.md R171: VERIFY of r and s in `[1, n-1]`, where w is the inverse of s, completes with the
answer of the verification equation; only N and the result flags change. -/
def Obligations.VerifyAnswersTheEquation : Prop :=
  ∀ (s : State) (n w : Nat), OrderIs s.cfg n → s.keyst = true → s.dvalid = true →
    1 ≤ s.regR → s.regR ≤ n - 1 → 1 ≤ s.regS → s.regS ≤ n - 1 → w ≤ n - 1 → (s.regS * w) % n = 1 →
      ∃ t, exec .verify s = .next t
        ∧ (t.vres = true ↔
            (grpAddPoints s.cfg
              (grpScalarMultiply s.cfg (digestInt s.h * w % n) (grpBasePoint s.cfg))
              (grpScalarMultiply s.cfg (s.regR * w % n) ⟨s.regQX, s.regQY, s.qcid⟩)).x % n = s.regR)
        ∧ t.malf = false ∧ t.rrep = false ∧ t.errf = false ∧ t.errcode = 0 ∧ t.lastop = 0x33 ∧ t.regN = n
        ∧ SameDigest s t ∧ SameArith s t ∧ SameKey s t ∧ SameSignature s t ∧ SameRng s t ∧ SameOutside s t

/-- 42_signature.md R172: a signature out of range ends VERIFY without error, VRES = 0 and MALF = 1. -/
def Obligations.VerifyRejectsAMalformedSignature : Prop :=
  ∀ (s : State) (n : Nat), OrderIs s.cfg n → s.keyst = true → s.dvalid = true →
    (s.regR < 1 ∨ n - 1 < s.regR ∨ s.regS < 1 ∨ n - 1 < s.regS) →
      ∃ t, exec .verify s = .next t ∧ t.vres = false ∧ t.malf = true ∧ t.rrep = false ∧ t.errf = false
        ∧ t.errcode = 0 ∧ t.lastop = 0x33 ∧ t.regN = n
        ∧ SameDigest s t ∧ SameArith s t ∧ SameKey s t ∧ SameSignature s t ∧ SameRng s t ∧ SameOutside s t

/-- 42_signature.md R171, 60_exceptions.md R227, 90_conflicts.md C6: with a good order, VERIFY in sequence ends in
error only for an s in range that is not coprime to the order, so never when the order is prime. -/
def Obligations.VerifyErrsOnlyForACompositeOrder : Prop :=
  ∀ (s : State) (n : Nat), OrderIs s.cfg n → s.keyst = true → s.dvalid = true →
    ∃ t, exec .verify s = .next t
      ∧ (t.errf = true ↔ 1 ≤ s.regR ∧ s.regR ≤ n - 1 ∧ 1 ≤ s.regS ∧ s.regS ≤ n - 1 ∧ ¬ Nat.Coprime s.regS n)
      ∧ (t.errf = true → EndsInError 0x33 .noInverseExists t)
      ∧ (n.Prime → t.errf = false)

/-- 42_signature.md R175 (the round trip; the reasoning is the spec's own, marked derived): when GRP is a
cyclic group of prime order and Q = D·G, a SIGN without error is followed by a VERIFY with VRES = 1. -/
def Obligations.VerifyAcceptsWhatSignReturns : Prop :=
  ∀ (s t : State) (n : Nat) (point : Nat → GroupElement),
    OrderIs s.cfg n → n.Prime → CyclicGroup s.cfg n point →
    (⟨s.regQX, s.regQY, s.qcid⟩ : GroupElement) = point s.regD →
    exec .sign s = .next t → t.errf = false →
      ∃ u, exec .verify t = .next u ∧ u.vres = true ∧ u.malf = false ∧ u.errf = false

/-! ## Invariants -/

/-- 10_state.md R22, R23, R25, R27, R36, R37 as one invariant of every step, from every legal state.
That the coordinates KEYGEN writes to QX and QY fit NBITS for every GRP is the model's choice, log entry 7
(a GRP that breaks 00_scope.md R6(c)). -/
def Obligations.StepsKeepTheStateLegal : Prop :=
  ∀ s t : State, Legal s → step s = .next t → Legal t

/-- The invariants hold after reset, for every legal choice of the parameters (10_state.md R46). -/
def Obligations.ResetIsLegal : Prop :=
  (∀ p : Params, p.legal = true → Legal (State.resetWith p) ∧ DigestMeaning (State.resetWith p))
    ∧ Legal State.reset ∧ DigestMeaning State.reset

/-- 70_reset_and_hazards.md R240, R241: a reset during a command abandons the command with no result. The
core is in the reset state, STATUS reads 0, and only the draws that RNG had answered are gone: as many as the
event says, and no more than the whole command makes. How the event tells where it falls, and that it leaves
no outcome of the write, are the model's choice, log entries 16 and 2. -/
def Obligations.ResetAbandonsTheRunningCommand : Prop :=
  ∀ (s : State) (port : Port) (c : Word) (taken : Nat) (rest : List HostEvent),
    s.pending = .resetDuring port c taken :: rest →
      ∃ t u : State, step { s with pending := .access (commandWrite s.cfg port c) :: rest } = .next u
        ∧ step s = .next t
        ∧ t = { State.resetWith s.cfg with
                draws := s.draws.drop (min taken (u.drawCount - s.drawCount))
                drawCount := s.drawCount + min taken (u.drawCount - s.drawCount)
                pending := rest, resp := none }
        ∧ busRead t 0x004 = some 0
end

