-- ==== Sys2Proof/Laws/Arith.lean ====
section
/-!
SUPPORT. Lemmas about `Mod` and the Euclidean loop (40_modarith.md R110, R113).
-/
namespace Sys2Proof.Machine

/-- On natural numbers `Mod` is the remainder. -/
@[simp] theorem modNat_eq (a n : Nat) : modNat a n = a % n := by
  have h : modInt (a : Int) (n : Int) = ((a % n : Nat) : Int) := by simp [modInt]
  rw [modNat, h, Int.toNat_natCast]

theorem modInt_nonneg (a : Int) {m : Int} (hm : 0 < m) : 0 ≤ modInt a m := Int.emod_nonneg a hm.ne'

theorem modInt_lt (a : Int) {m : Int} (hm : 0 < m) : modInt a m < m := Int.emod_lt_of_pos a hm

theorem dvd_sub_modInt (a m : Int) : m ∣ a - modInt a m := Int.dvd_self_sub_emod

/-- `Mod(a, m)` and `a` have the same greatest common divisor with `m`. -/
theorem gcd_modInt (a m : Int) : Int.gcd (modInt a m) m = Int.gcd a m :=
  Int.gcd_emod _ _

/-- With fuel above `r` the loop ends at the greatest common divisor. -/
theorem euclidLoop_fst : ∀ (fuel : Nat) (oldR r oldT t : Int), 0 ≤ oldR → 0 ≤ r → r.toNat < fuel →
    (euclidLoop fuel oldR r oldT t).1 = Int.gcd oldR r
  | 0, _, _, _, _, _, _, hf => absurd hf (Nat.not_lt_zero _)
  | fuel + 1, oldR, r, oldT, t, ho, hr, hf => by
    rw [euclidLoop]
    split
    · next h => subst h; simp [Int.natAbs_of_nonneg ho]
    · next h =>
      have hpos : 0 < r := lt_of_le_of_ne hr (Ne.symm h)
      have hq : oldR - oldR / r * r = oldR % r := by
        have := Int.emod_add_mul_ediv oldR r
        linarith [mul_comm r (oldR / r)]
      have hlt := Int.emod_lt_of_pos oldR hpos
      have hnn := Int.emod_nonneg oldR hpos.ne'
      dsimp only
      rw [hq, euclidLoop_fst fuel r (oldR % r) t _ hr hnn (by omega), Int.gcd_comm, Int.gcd_emod]

/-- The coefficient pair stays a Bézout coefficient of `a0` modulo `m`. -/
theorem euclidLoop_bezout (m a0 : Int) : ∀ (fuel : Nat) (oldR r oldT t : Int),
    m ∣ oldR - oldT * a0 → m ∣ r - t * a0 →
      m ∣ (euclidLoop fuel oldR r oldT t).1 - (euclidLoop fuel oldR r oldT t).2 * a0
  | 0, _, _, _, _, ho, _ => ho
  | fuel + 1, oldR, r, oldT, t, ho, hr => by
    rw [euclidLoop]
    split
    · exact ho
    · refine euclidLoop_bezout m a0 fuel _ _ _ _ hr ?_
      have := Int.dvd_sub ho (Dvd.dvd.mul_left hr (oldR / r))
      convert this using 1
      ring

theorem euclid_fst {a0 m : Int} (ha : 0 ≤ a0) (hm : 0 ≤ m) : (euclid a0 m).1 = Int.gcd a0 m :=
  euclidLoop_fst _ _ _ _ _ ha hm (by omega)

theorem euclid_bezout (a0 m : Int) : m ∣ (euclid a0 m).1 - (euclid a0 m).2 * a0 :=
  euclidLoop_bezout m a0 _ _ _ _ _ (by simp) (by simp)

/-! ## `ModInverse` for a modulus above 1 -/

/-- Which of the three outcomes of R113 for `m > 1`. -/
theorem modInverse_eq (a : Int) {m : Int} (hm : 1 < m) : modInverse a m =
    if a = 0 then .error .divisionByZero
    else if Int.gcd a m ≠ 1 then .error .noInverseExists
    else .ok (modInt (euclid (modInt a m) m).2 m).toNat := by
  have e := euclid_fst (modInt_nonneg a (show 0 < m by omega)) (show 0 ≤ m by omega)
  rw [gcd_modInt] at e
  rw [modInverse, if_neg (by omega), if_neg (by omega), e]
  norm_cast

/-- For an argument coprime to the modulus the result is an inverse in `[0, m)` (R112). -/
theorem modInverse_of_gcd {a m : Int} (hm : 1 < m) (hg : Int.gcd a m = 1) :
    ∃ t : Nat, modInverse a m = .ok t ∧ (t : Int) < m ∧ m ∣ a * t - 1 := by
  have ha : a ≠ 0 := by
    rintro rfl
    simp at hg
    omega
  refine ⟨_, by rw [modInverse_eq a hm, if_neg ha, if_neg (by simp [hg])], ?_, ?_⟩ <;>
    rw [Int.toNat_of_nonneg (modInt_nonneg _ (by omega))]
  · exact modInt_lt _ (by omega)
  · have b := euclid_bezout (modInt a m) m
    rw [euclid_fst (modInt_nonneg a (show 0 < m by omega)) (show 0 ≤ m by omega), gcd_modInt, hg] at b
    obtain ⟨x, hx⟩ := dvd_sub_modInt a m
    obtain ⟨y, hy⟩ := dvd_sub_modInt (euclid (modInt a m) m).2 m
    obtain ⟨z, hz⟩ := b
    generalize modInt a m = a0 at *
    generalize (euclid a0 m).2 = b0 at *
    generalize modInt b0 m = c0 at *
    refine ⟨x * c0 - y * a0 - z, ?_⟩
    obtain rfl : a = a0 + m * x := by omega
    obtain rfl : c0 = b0 - m * y := by omega
    push_cast at hz
    nlinarith [hz]

/-- `Mod(x, m) = 1` in terms of divisibility. -/
theorem modInt_eq_one {m : Int} (hm : 1 < m) (x : Int) : modInt x m = 1 ↔ m ∣ x - 1 := by
  constructor
  · intro h
    have := dvd_sub_modInt x m
    rwa [h] at this
  · intro h
    have : x % m = 1 % m := Int.emod_eq_emod_iff_emod_sub_eq_zero.2 (Int.emod_eq_zero_of_dvd h)
    rw [modInt, this]
    exact Int.emod_eq_of_lt (by norm_num) hm

/-- The inverse of a natural number modulo a natural number. -/
theorem modInverse_of_coprime {n k : Nat} (hn : 2 ≤ n) (hc : Nat.Coprime k n) :
    ∃ t : Nat, modInverse (k : Int) (n : Int) = .ok t ∧ t < n ∧ t * k % n = 1 := by
  obtain ⟨t, h1, h2, h3⟩ := modInverse_of_gcd (a := k) (m := n) (by omega) (by exact_mod_cast hc)
  refine ⟨t, h1, by omega, ?_⟩
  have : ((t * k : Nat) : Int) % n = 1 := by
    have := (modInt_eq_one (show (1 : Int) < n by omega) _).2 h3
    rw [← this, modInt]
    push_cast
    ring_nf
  exact_mod_cast this

end Sys2Proof.Machine
end

