-- ==== Sys2Proof/Laws/State.lean ====
section
/-!
SUPPORT. One lemma per field per shared update of the state, each true by unfolding the update.
-/
namespace Sys2Proof.Machine

variable (s : State)

/-! ### `beginCommand` -/

@[simp] theorem beginCommand_cfg (op : Byte) : (beginCommand op s).cfg = s.cfg := rfl
@[simp] theorem beginCommand_h (op : Byte) : (beginCommand op s).h = s.h := rfl
@[simp] theorem beginCommand_mbuf (op : Byte) : (beginCommand op s).mbuf = s.mbuf := rfl
@[simp] theorem beginCommand_len (op : Byte) : (beginCommand op s).len = s.len := rfl
@[simp] theorem beginCommand_hashing (op : Byte) : (beginCommand op s).hashing = s.hashing := rfl
@[simp] theorem beginCommand_dvalid (op : Byte) : (beginCommand op s).dvalid = s.dvalid := rfl
@[simp] theorem beginCommand_regA (op : Byte) : (beginCommand op s).regA = s.regA := rfl
@[simp] theorem beginCommand_regM (op : Byte) : (beginCommand op s).regM = s.regM := rfl
@[simp] theorem beginCommand_regT (op : Byte) : (beginCommand op s).regT = s.regT := rfl
@[simp] theorem beginCommand_regN (op : Byte) : (beginCommand op s).regN = s.regN := rfl
@[simp] theorem beginCommand_regD (op : Byte) : (beginCommand op s).regD = s.regD := rfl
@[simp] theorem beginCommand_regQX (op : Byte) : (beginCommand op s).regQX = s.regQX := rfl
@[simp] theorem beginCommand_regQY (op : Byte) : (beginCommand op s).regQY = s.regQY := rfl
@[simp] theorem beginCommand_qcid (op : Byte) : (beginCommand op s).qcid = s.qcid := rfl
@[simp] theorem beginCommand_regR (op : Byte) : (beginCommand op s).regR = s.regR := rfl
@[simp] theorem beginCommand_regS (op : Byte) : (beginCommand op s).regS = s.regS := rfl
@[simp] theorem beginCommand_keyst (op : Byte) : (beginCommand op s).keyst = s.keyst := rfl
@[simp] theorem beginCommand_vres (op : Byte) : (beginCommand op s).vres = false := rfl
@[simp] theorem beginCommand_malf (op : Byte) : (beginCommand op s).malf = false := rfl
@[simp] theorem beginCommand_rrep (op : Byte) : (beginCommand op s).rrep = false := rfl
@[simp] theorem beginCommand_errf (op : Byte) : (beginCommand op s).errf = false := rfl
@[simp] theorem beginCommand_errcode (op : Byte) : (beginCommand op s).errcode = 0 := rfl
@[simp] theorem beginCommand_lastop (op : Byte) : (beginCommand op s).lastop = op := rfl
@[simp] theorem beginCommand_lastr (op : Byte) : (beginCommand op s).lastr = s.lastr := rfl
@[simp] theorem beginCommand_lastrv (op : Byte) : (beginCommand op s).lastrv = s.lastrv := rfl
@[simp] theorem beginCommand_draws (op : Byte) : (beginCommand op s).draws = s.draws := rfl
@[simp] theorem beginCommand_drawCount (op : Byte) : (beginCommand op s).drawCount = s.drawCount := rfl
@[simp] theorem beginCommand_pending (op : Byte) : (beginCommand op s).pending = s.pending := rfl
@[simp] theorem beginCommand_resp (op : Byte) : (beginCommand op s).resp = s.resp := rfl

/-! ### `raise` -/

@[simp] theorem raise_cfg (e : Err) : (raise e s).cfg = s.cfg := rfl
@[simp] theorem raise_h (e : Err) : (raise e s).h = s.h := rfl
@[simp] theorem raise_mbuf (e : Err) : (raise e s).mbuf = s.mbuf := rfl
@[simp] theorem raise_len (e : Err) : (raise e s).len = s.len := rfl
@[simp] theorem raise_hashing (e : Err) : (raise e s).hashing = s.hashing := rfl
@[simp] theorem raise_dvalid (e : Err) : (raise e s).dvalid = s.dvalid := rfl
@[simp] theorem raise_regA (e : Err) : (raise e s).regA = s.regA := rfl
@[simp] theorem raise_regM (e : Err) : (raise e s).regM = s.regM := rfl
@[simp] theorem raise_regT (e : Err) : (raise e s).regT = s.regT := rfl
@[simp] theorem raise_regN (e : Err) : (raise e s).regN = s.regN := rfl
@[simp] theorem raise_regD (e : Err) : (raise e s).regD = s.regD := rfl
@[simp] theorem raise_regQX (e : Err) : (raise e s).regQX = s.regQX := rfl
@[simp] theorem raise_regQY (e : Err) : (raise e s).regQY = s.regQY := rfl
@[simp] theorem raise_qcid (e : Err) : (raise e s).qcid = s.qcid := rfl
@[simp] theorem raise_regR (e : Err) : (raise e s).regR = s.regR := rfl
@[simp] theorem raise_regS (e : Err) : (raise e s).regS = s.regS := rfl
@[simp] theorem raise_keyst (e : Err) : (raise e s).keyst = s.keyst := rfl
@[simp] theorem raise_vres (e : Err) : (raise e s).vres = s.vres := rfl
@[simp] theorem raise_malf (e : Err) : (raise e s).malf = s.malf := rfl
@[simp] theorem raise_rrep (e : Err) : (raise e s).rrep = s.rrep := rfl
@[simp] theorem raise_errf (e : Err) : (raise e s).errf = true := rfl
@[simp] theorem raise_errcode (e : Err) : (raise e s).errcode = e.code := rfl
@[simp] theorem raise_lastop (e : Err) : (raise e s).lastop = s.lastop := rfl
@[simp] theorem raise_lastr (e : Err) : (raise e s).lastr = s.lastr := rfl
@[simp] theorem raise_lastrv (e : Err) : (raise e s).lastrv = s.lastrv := rfl
@[simp] theorem raise_draws (e : Err) : (raise e s).draws = s.draws := rfl
@[simp] theorem raise_drawCount (e : Err) : (raise e s).drawCount = s.drawCount := rfl
@[simp] theorem raise_pending (e : Err) : (raise e s).pending = s.pending := rfl
@[simp] theorem raise_resp (e : Err) : (raise e s).resp = s.resp := rfl

/-! ### `afterDraw` -/

@[simp] theorem afterDraw_cfg : (afterDraw s).cfg = s.cfg := rfl
@[simp] theorem afterDraw_h : (afterDraw s).h = s.h := rfl
@[simp] theorem afterDraw_mbuf : (afterDraw s).mbuf = s.mbuf := rfl
@[simp] theorem afterDraw_len : (afterDraw s).len = s.len := rfl
@[simp] theorem afterDraw_hashing : (afterDraw s).hashing = s.hashing := rfl
@[simp] theorem afterDraw_dvalid : (afterDraw s).dvalid = s.dvalid := rfl
@[simp] theorem afterDraw_regA : (afterDraw s).regA = s.regA := rfl
@[simp] theorem afterDraw_regM : (afterDraw s).regM = s.regM := rfl
@[simp] theorem afterDraw_regT : (afterDraw s).regT = s.regT := rfl
@[simp] theorem afterDraw_regN : (afterDraw s).regN = s.regN := rfl
@[simp] theorem afterDraw_regD : (afterDraw s).regD = s.regD := rfl
@[simp] theorem afterDraw_regQX : (afterDraw s).regQX = s.regQX := rfl
@[simp] theorem afterDraw_regQY : (afterDraw s).regQY = s.regQY := rfl
@[simp] theorem afterDraw_qcid : (afterDraw s).qcid = s.qcid := rfl
@[simp] theorem afterDraw_regR : (afterDraw s).regR = s.regR := rfl
@[simp] theorem afterDraw_regS : (afterDraw s).regS = s.regS := rfl
@[simp] theorem afterDraw_keyst : (afterDraw s).keyst = s.keyst := rfl
@[simp] theorem afterDraw_vres : (afterDraw s).vres = s.vres := rfl
@[simp] theorem afterDraw_malf : (afterDraw s).malf = s.malf := rfl
@[simp] theorem afterDraw_rrep : (afterDraw s).rrep = s.rrep := rfl
@[simp] theorem afterDraw_errf : (afterDraw s).errf = s.errf := rfl
@[simp] theorem afterDraw_errcode : (afterDraw s).errcode = s.errcode := rfl
@[simp] theorem afterDraw_lastop : (afterDraw s).lastop = s.lastop := rfl
@[simp] theorem afterDraw_lastr : (afterDraw s).lastr = s.lastr := rfl
@[simp] theorem afterDraw_lastrv : (afterDraw s).lastrv = s.lastrv := rfl
@[simp] theorem afterDraw_draws : (afterDraw s).draws = s.draws.tail := rfl
@[simp] theorem afterDraw_drawCount : (afterDraw s).drawCount = s.drawCount + 1 := rfl
@[simp] theorem afterDraw_pending : (afterDraw s).pending = s.pending := rfl
@[simp] theorem afterDraw_resp : (afterDraw s).resp = s.resp := rfl

/-! ### `respond` -/

@[simp] theorem respond_cfg (o : Option BusOutcome) : (respond o s).cfg = s.cfg := rfl
@[simp] theorem respond_h (o : Option BusOutcome) : (respond o s).h = s.h := rfl
@[simp] theorem respond_mbuf (o : Option BusOutcome) : (respond o s).mbuf = s.mbuf := rfl
@[simp] theorem respond_len (o : Option BusOutcome) : (respond o s).len = s.len := rfl
@[simp] theorem respond_hashing (o : Option BusOutcome) : (respond o s).hashing = s.hashing := rfl
@[simp] theorem respond_dvalid (o : Option BusOutcome) : (respond o s).dvalid = s.dvalid := rfl
@[simp] theorem respond_regA (o : Option BusOutcome) : (respond o s).regA = s.regA := rfl
@[simp] theorem respond_regM (o : Option BusOutcome) : (respond o s).regM = s.regM := rfl
@[simp] theorem respond_regT (o : Option BusOutcome) : (respond o s).regT = s.regT := rfl
@[simp] theorem respond_regN (o : Option BusOutcome) : (respond o s).regN = s.regN := rfl
@[simp] theorem respond_regD (o : Option BusOutcome) : (respond o s).regD = s.regD := rfl
@[simp] theorem respond_regQX (o : Option BusOutcome) : (respond o s).regQX = s.regQX := rfl
@[simp] theorem respond_regQY (o : Option BusOutcome) : (respond o s).regQY = s.regQY := rfl
@[simp] theorem respond_qcid (o : Option BusOutcome) : (respond o s).qcid = s.qcid := rfl
@[simp] theorem respond_regR (o : Option BusOutcome) : (respond o s).regR = s.regR := rfl
@[simp] theorem respond_regS (o : Option BusOutcome) : (respond o s).regS = s.regS := rfl
@[simp] theorem respond_keyst (o : Option BusOutcome) : (respond o s).keyst = s.keyst := rfl
@[simp] theorem respond_vres (o : Option BusOutcome) : (respond o s).vres = s.vres := rfl
@[simp] theorem respond_malf (o : Option BusOutcome) : (respond o s).malf = s.malf := rfl
@[simp] theorem respond_rrep (o : Option BusOutcome) : (respond o s).rrep = s.rrep := rfl
@[simp] theorem respond_errf (o : Option BusOutcome) : (respond o s).errf = s.errf := rfl
@[simp] theorem respond_errcode (o : Option BusOutcome) : (respond o s).errcode = s.errcode := rfl
@[simp] theorem respond_lastop (o : Option BusOutcome) : (respond o s).lastop = s.lastop := rfl
@[simp] theorem respond_lastr (o : Option BusOutcome) : (respond o s).lastr = s.lastr := rfl
@[simp] theorem respond_lastrv (o : Option BusOutcome) : (respond o s).lastrv = s.lastrv := rfl
@[simp] theorem respond_draws (o : Option BusOutcome) : (respond o s).draws = s.draws := rfl
@[simp] theorem respond_drawCount (o : Option BusOutcome) : (respond o s).drawCount = s.drawCount := rfl
@[simp] theorem respond_pending (o : Option BusOutcome) : (respond o s).pending = s.pending := rfl
@[simp] theorem respond_resp (o : Option BusOutcome) : (respond o s).resp = o := rfl

/-! ### `setKeyPair` -/

@[simp] theorem setKeyPair_cfg (d : Nat) (q : GroupElement) : (setKeyPair d q s).cfg = s.cfg := rfl
@[simp] theorem setKeyPair_h (d : Nat) (q : GroupElement) : (setKeyPair d q s).h = s.h := rfl
@[simp] theorem setKeyPair_mbuf (d : Nat) (q : GroupElement) : (setKeyPair d q s).mbuf = s.mbuf := rfl
@[simp] theorem setKeyPair_len (d : Nat) (q : GroupElement) : (setKeyPair d q s).len = s.len := rfl
@[simp] theorem setKeyPair_hashing (d : Nat) (q : GroupElement) : (setKeyPair d q s).hashing = s.hashing := rfl
@[simp] theorem setKeyPair_dvalid (d : Nat) (q : GroupElement) : (setKeyPair d q s).dvalid = s.dvalid := rfl
@[simp] theorem setKeyPair_regA (d : Nat) (q : GroupElement) : (setKeyPair d q s).regA = s.regA := rfl
@[simp] theorem setKeyPair_regM (d : Nat) (q : GroupElement) : (setKeyPair d q s).regM = s.regM := rfl
@[simp] theorem setKeyPair_regT (d : Nat) (q : GroupElement) : (setKeyPair d q s).regT = s.regT := rfl
@[simp] theorem setKeyPair_regN (d : Nat) (q : GroupElement) : (setKeyPair d q s).regN = s.regN := rfl
@[simp] theorem setKeyPair_regD (d : Nat) (q : GroupElement) : (setKeyPair d q s).regD = d := rfl
@[simp] theorem setKeyPair_regQX (d : Nat) (q : GroupElement) : (setKeyPair d q s).regQX = q.x := rfl
@[simp] theorem setKeyPair_regQY (d : Nat) (q : GroupElement) : (setKeyPair d q s).regQY = q.y := rfl
@[simp] theorem setKeyPair_qcid (d : Nat) (q : GroupElement) : (setKeyPair d q s).qcid = q.cid := rfl
@[simp] theorem setKeyPair_regR (d : Nat) (q : GroupElement) : (setKeyPair d q s).regR = s.regR := rfl
@[simp] theorem setKeyPair_regS (d : Nat) (q : GroupElement) : (setKeyPair d q s).regS = s.regS := rfl
@[simp] theorem setKeyPair_keyst (d : Nat) (q : GroupElement) : (setKeyPair d q s).keyst = true := rfl
@[simp] theorem setKeyPair_vres (d : Nat) (q : GroupElement) : (setKeyPair d q s).vres = s.vres := rfl
@[simp] theorem setKeyPair_malf (d : Nat) (q : GroupElement) : (setKeyPair d q s).malf = s.malf := rfl
@[simp] theorem setKeyPair_rrep (d : Nat) (q : GroupElement) : (setKeyPair d q s).rrep = s.rrep := rfl
@[simp] theorem setKeyPair_errf (d : Nat) (q : GroupElement) : (setKeyPair d q s).errf = s.errf := rfl
@[simp] theorem setKeyPair_errcode (d : Nat) (q : GroupElement) : (setKeyPair d q s).errcode = s.errcode := rfl
@[simp] theorem setKeyPair_lastop (d : Nat) (q : GroupElement) : (setKeyPair d q s).lastop = s.lastop := rfl
@[simp] theorem setKeyPair_lastr (d : Nat) (q : GroupElement) : (setKeyPair d q s).lastr = s.lastr := rfl
@[simp] theorem setKeyPair_lastrv (d : Nat) (q : GroupElement) : (setKeyPair d q s).lastrv = s.lastrv := rfl
@[simp] theorem setKeyPair_draws (d : Nat) (q : GroupElement) : (setKeyPair d q s).draws = s.draws := rfl
@[simp] theorem setKeyPair_drawCount (d : Nat) (q : GroupElement) : (setKeyPair d q s).drawCount = s.drawCount := rfl
@[simp] theorem setKeyPair_pending (d : Nat) (q : GroupElement) : (setKeyPair d q s).pending = s.pending := rfl
@[simp] theorem setKeyPair_resp (d : Nat) (q : GroupElement) : (setKeyPair d q s).resp = s.resp := rfl

/-! ### `setSignature` -/

@[simp] theorem setSignature_cfg (r sv : Nat) : (setSignature r sv s).cfg = s.cfg := rfl
@[simp] theorem setSignature_h (r sv : Nat) : (setSignature r sv s).h = s.h := rfl
@[simp] theorem setSignature_mbuf (r sv : Nat) : (setSignature r sv s).mbuf = s.mbuf := rfl
@[simp] theorem setSignature_len (r sv : Nat) : (setSignature r sv s).len = s.len := rfl
@[simp] theorem setSignature_hashing (r sv : Nat) : (setSignature r sv s).hashing = s.hashing := rfl
@[simp] theorem setSignature_dvalid (r sv : Nat) : (setSignature r sv s).dvalid = s.dvalid := rfl
@[simp] theorem setSignature_regA (r sv : Nat) : (setSignature r sv s).regA = s.regA := rfl
@[simp] theorem setSignature_regM (r sv : Nat) : (setSignature r sv s).regM = s.regM := rfl
@[simp] theorem setSignature_regT (r sv : Nat) : (setSignature r sv s).regT = s.regT := rfl
@[simp] theorem setSignature_regN (r sv : Nat) : (setSignature r sv s).regN = s.regN := rfl
@[simp] theorem setSignature_regD (r sv : Nat) : (setSignature r sv s).regD = s.regD := rfl
@[simp] theorem setSignature_regQX (r sv : Nat) : (setSignature r sv s).regQX = s.regQX := rfl
@[simp] theorem setSignature_regQY (r sv : Nat) : (setSignature r sv s).regQY = s.regQY := rfl
@[simp] theorem setSignature_qcid (r sv : Nat) : (setSignature r sv s).qcid = s.qcid := rfl
@[simp] theorem setSignature_regR (r sv : Nat) : (setSignature r sv s).regR = r := rfl
@[simp] theorem setSignature_regS (r sv : Nat) : (setSignature r sv s).regS = sv := rfl
@[simp] theorem setSignature_keyst (r sv : Nat) : (setSignature r sv s).keyst = s.keyst := rfl
@[simp] theorem setSignature_vres (r sv : Nat) : (setSignature r sv s).vres = s.vres := rfl
@[simp] theorem setSignature_malf (r sv : Nat) : (setSignature r sv s).malf = s.malf := rfl
@[simp] theorem setSignature_rrep (r sv : Nat) : (setSignature r sv s).rrep = repeatsLastR s r := rfl
@[simp] theorem setSignature_errf (r sv : Nat) : (setSignature r sv s).errf = s.errf := rfl
@[simp] theorem setSignature_errcode (r sv : Nat) : (setSignature r sv s).errcode = s.errcode := rfl
@[simp] theorem setSignature_lastop (r sv : Nat) : (setSignature r sv s).lastop = s.lastop := rfl
@[simp] theorem setSignature_lastr (r sv : Nat) : (setSignature r sv s).lastr = r := rfl
@[simp] theorem setSignature_lastrv (r sv : Nat) : (setSignature r sv s).lastrv = true := rfl
@[simp] theorem setSignature_draws (r sv : Nat) : (setSignature r sv s).draws = s.draws := rfl
@[simp] theorem setSignature_drawCount (r sv : Nat) : (setSignature r sv s).drawCount = s.drawCount := rfl
@[simp] theorem setSignature_pending (r sv : Nat) : (setSignature r sv s).pending = s.pending := rfl
@[simp] theorem setSignature_resp (r sv : Nat) : (setSignature r sv s).resp = s.resp := rfl

/-! ### `afterDraws` -/

@[simp] theorem afterDraws_cfg (m : Nat) : (afterDraws m s).cfg = s.cfg := rfl
@[simp] theorem afterDraws_h (m : Nat) : (afterDraws m s).h = s.h := rfl
@[simp] theorem afterDraws_mbuf (m : Nat) : (afterDraws m s).mbuf = s.mbuf := rfl
@[simp] theorem afterDraws_len (m : Nat) : (afterDraws m s).len = s.len := rfl
@[simp] theorem afterDraws_hashing (m : Nat) : (afterDraws m s).hashing = s.hashing := rfl
@[simp] theorem afterDraws_dvalid (m : Nat) : (afterDraws m s).dvalid = s.dvalid := rfl
@[simp] theorem afterDraws_regA (m : Nat) : (afterDraws m s).regA = s.regA := rfl
@[simp] theorem afterDraws_regM (m : Nat) : (afterDraws m s).regM = s.regM := rfl
@[simp] theorem afterDraws_regT (m : Nat) : (afterDraws m s).regT = s.regT := rfl
@[simp] theorem afterDraws_regN (m : Nat) : (afterDraws m s).regN = s.regN := rfl
@[simp] theorem afterDraws_regD (m : Nat) : (afterDraws m s).regD = s.regD := rfl
@[simp] theorem afterDraws_regQX (m : Nat) : (afterDraws m s).regQX = s.regQX := rfl
@[simp] theorem afterDraws_regQY (m : Nat) : (afterDraws m s).regQY = s.regQY := rfl
@[simp] theorem afterDraws_qcid (m : Nat) : (afterDraws m s).qcid = s.qcid := rfl
@[simp] theorem afterDraws_regR (m : Nat) : (afterDraws m s).regR = s.regR := rfl
@[simp] theorem afterDraws_regS (m : Nat) : (afterDraws m s).regS = s.regS := rfl
@[simp] theorem afterDraws_keyst (m : Nat) : (afterDraws m s).keyst = s.keyst := rfl
@[simp] theorem afterDraws_vres (m : Nat) : (afterDraws m s).vres = s.vres := rfl
@[simp] theorem afterDraws_malf (m : Nat) : (afterDraws m s).malf = s.malf := rfl
@[simp] theorem afterDraws_rrep (m : Nat) : (afterDraws m s).rrep = s.rrep := rfl
@[simp] theorem afterDraws_errf (m : Nat) : (afterDraws m s).errf = s.errf := rfl
@[simp] theorem afterDraws_errcode (m : Nat) : (afterDraws m s).errcode = s.errcode := rfl
@[simp] theorem afterDraws_lastop (m : Nat) : (afterDraws m s).lastop = s.lastop := rfl
@[simp] theorem afterDraws_lastr (m : Nat) : (afterDraws m s).lastr = s.lastr := rfl
@[simp] theorem afterDraws_lastrv (m : Nat) : (afterDraws m s).lastrv = s.lastrv := rfl
@[simp] theorem afterDraws_pending (m : Nat) : (afterDraws m s).pending = s.pending := rfl
@[simp] theorem afterDraws_resp (m : Nat) : (afterDraws m s).resp = s.resp := rfl
@[simp] theorem afterDraws_draws (m : Nat) : (afterDraws m s).draws = s.draws.drop m := rfl
@[simp] theorem afterDraws_drawCount (m : Nat) : (afterDraws m s).drawCount = s.drawCount + m := rfl

/-! ### `resetCore` -/

@[simp] theorem resetCore_cfg : (resetCore s).cfg = s.cfg := rfl
@[simp] theorem resetCore_h : (resetCore s).h = hInit := rfl
@[simp] theorem resetCore_mbuf : (resetCore s).mbuf = [] := rfl
@[simp] theorem resetCore_len : (resetCore s).len = 0 := rfl
@[simp] theorem resetCore_hashing : (resetCore s).hashing = false := rfl
@[simp] theorem resetCore_dvalid : (resetCore s).dvalid = false := rfl
@[simp] theorem resetCore_regA : (resetCore s).regA = 0 := rfl
@[simp] theorem resetCore_regM : (resetCore s).regM = 0 := rfl
@[simp] theorem resetCore_regT : (resetCore s).regT = 0 := rfl
@[simp] theorem resetCore_regN : (resetCore s).regN = 0 := rfl
@[simp] theorem resetCore_regD : (resetCore s).regD = 0 := rfl
@[simp] theorem resetCore_regQX : (resetCore s).regQX = 0 := rfl
@[simp] theorem resetCore_regQY : (resetCore s).regQY = 0 := rfl
@[simp] theorem resetCore_qcid : (resetCore s).qcid = 0 := rfl
@[simp] theorem resetCore_regR : (resetCore s).regR = 0 := rfl
@[simp] theorem resetCore_regS : (resetCore s).regS = 0 := rfl
@[simp] theorem resetCore_keyst : (resetCore s).keyst = false := rfl
@[simp] theorem resetCore_vres : (resetCore s).vres = false := rfl
@[simp] theorem resetCore_malf : (resetCore s).malf = false := rfl
@[simp] theorem resetCore_rrep : (resetCore s).rrep = false := rfl
@[simp] theorem resetCore_errf : (resetCore s).errf = false := rfl
@[simp] theorem resetCore_errcode : (resetCore s).errcode = 0 := rfl
@[simp] theorem resetCore_lastop : (resetCore s).lastop = 0 := rfl
@[simp] theorem resetCore_lastr : (resetCore s).lastr = 0 := rfl
@[simp] theorem resetCore_lastrv : (resetCore s).lastrv = false := rfl
@[simp] theorem resetCore_draws : (resetCore s).draws = s.draws := rfl
@[simp] theorem resetCore_drawCount : (resetCore s).drawCount = s.drawCount := rfl
@[simp] theorem resetCore_pending : (resetCore s).pending = s.pending := rfl
@[simp] theorem resetCore_resp : (resetCore s).resp = s.resp := rfl

/-! ### Big-integer registers -/

/-- A write of one big-integer register is read back, and leaves the other eight. -/
@[simp] theorem setBig_big (x y : BigReg) (v : Nat) :
    (s.setBig x v).big y = if y = x then v else s.big y := by
  cases x <;> cases y <;> rfl

@[simp] theorem setBig_cfg (x : BigReg) (v : Nat) : (s.setBig x v).cfg = s.cfg := by cases x <;> rfl
@[simp] theorem setBig_h (x : BigReg) (v : Nat) : (s.setBig x v).h = s.h := by cases x <;> rfl
@[simp] theorem setBig_mbuf (x : BigReg) (v : Nat) : (s.setBig x v).mbuf = s.mbuf := by cases x <;> rfl
@[simp] theorem setBig_len (x : BigReg) (v : Nat) : (s.setBig x v).len = s.len := by cases x <;> rfl
@[simp] theorem setBig_hashing (x : BigReg) (v : Nat) : (s.setBig x v).hashing = s.hashing := by cases x <;> rfl
@[simp] theorem setBig_dvalid (x : BigReg) (v : Nat) : (s.setBig x v).dvalid = s.dvalid := by cases x <;> rfl
@[simp] theorem setBig_qcid (x : BigReg) (v : Nat) : (s.setBig x v).qcid = s.qcid := by cases x <;> rfl
@[simp] theorem setBig_keyst (x : BigReg) (v : Nat) : (s.setBig x v).keyst = s.keyst := by cases x <;> rfl
@[simp] theorem setBig_vres (x : BigReg) (v : Nat) : (s.setBig x v).vres = s.vres := by cases x <;> rfl
@[simp] theorem setBig_malf (x : BigReg) (v : Nat) : (s.setBig x v).malf = s.malf := by cases x <;> rfl
@[simp] theorem setBig_rrep (x : BigReg) (v : Nat) : (s.setBig x v).rrep = s.rrep := by cases x <;> rfl
@[simp] theorem setBig_errf (x : BigReg) (v : Nat) : (s.setBig x v).errf = s.errf := by cases x <;> rfl
@[simp] theorem setBig_errcode (x : BigReg) (v : Nat) : (s.setBig x v).errcode = s.errcode := by cases x <;> rfl
@[simp] theorem setBig_lastop (x : BigReg) (v : Nat) : (s.setBig x v).lastop = s.lastop := by cases x <;> rfl
@[simp] theorem setBig_lastr (x : BigReg) (v : Nat) : (s.setBig x v).lastr = s.lastr := by cases x <;> rfl
@[simp] theorem setBig_lastrv (x : BigReg) (v : Nat) : (s.setBig x v).lastrv = s.lastrv := by cases x <;> rfl
@[simp] theorem setBig_draws (x : BigReg) (v : Nat) : (s.setBig x v).draws = s.draws := by cases x <;> rfl
@[simp] theorem setBig_drawCount (x : BigReg) (v : Nat) : (s.setBig x v).drawCount = s.drawCount := by cases x <;> rfl
@[simp] theorem setBig_pending (x : BigReg) (v : Nat) : (s.setBig x v).pending = s.pending := by cases x <;> rfl
@[simp] theorem setBig_resp (x : BigReg) (v : Nat) : (s.setBig x v).resp = s.resp := by cases x <;> rfl

end Sys2Proof.Machine
end

