-- ==== Sys2Proof/Laws/Bus.lean ====
section
/-!
SUPPORT. Lemmas about the words of big-integer registers, the register map and the transactions
(20_memory.md).
-/
namespace Sys2Proof.Machine

/-! ## Words of a big integer (R64) -/

theorem bigWord_toNat (v i : Nat) : (bigWord v i).toNat = v / 2 ^ (32 * i) % 2 ^ 32 := by simp [bigWord]

theorem two_pow_word_succ (i : Nat) : 2 ^ (32 * (i + 1)) = 2 ^ 32 * 2 ^ (32 * i) := by
  rw [← pow_add]; congr 1; omega

/-- The part of the replaced value from word `i` on. -/
theorem withBigWord_div (v i : Nat) (w : Word) :
    withBigWord v i w / 2 ^ (32 * i) = v / 2 ^ (32 * (i + 1)) * 2 ^ 32 + w.toNat := by
  have hpos : 0 < 2 ^ (32 * i) := Nat.two_pow_pos _
  have e : withBigWord v i w
      = v % 2 ^ (32 * i) + 2 ^ (32 * i) * (v / 2 ^ (32 * (i + 1)) * 2 ^ 32 + w.toNat) := by
    rw [withBigWord, two_pow_word_succ]; ring
  rw [e, Nat.add_mul_div_left _ _ hpos, Nat.div_eq_of_lt (Nat.mod_lt _ hpos), Nat.zero_add]

/-- The part below word `i` is kept. -/
theorem withBigWord_mod (v i : Nat) (w : Word) : withBigWord v i w % 2 ^ (32 * i) = v % 2 ^ (32 * i) := by
  have e : withBigWord v i w
      = v % 2 ^ (32 * i) + 2 ^ (32 * i) * (v / 2 ^ (32 * (i + 1)) * 2 ^ 32 + w.toNat) := by
    rw [withBigWord, two_pow_word_succ]; ring
  rw [e, Nat.add_mul_mod_self_left, Nat.mod_mod]

/-- The part above word `i` is kept. -/
theorem withBigWord_div_succ (v i : Nat) (w : Word) :
    withBigWord v i w / 2 ^ (32 * (i + 1)) = v / 2 ^ (32 * (i + 1)) := by
  have e : (2 : Nat) ^ (32 * (i + 1)) = 2 ^ (32 * i) * 2 ^ 32 := by rw [two_pow_word_succ, Nat.mul_comm]
  have d : ∀ a : Nat, (a * 2 ^ 32 + w.toNat) / 2 ^ 32 = a := fun a => by have := w.isLt; omega
  calc withBigWord v i w / 2 ^ (32 * (i + 1)) = withBigWord v i w / 2 ^ (32 * i) / 2 ^ 32 := by
        rw [e, Nat.div_div_eq_div_mul]
    _ = v / 2 ^ (32 * (i + 1)) := by rw [withBigWord_div, d]

@[simp] theorem bigWord_withBigWord_same (v i : Nat) (w : Word) : bigWord (withBigWord v i w) i = w := by
  apply BitVec.eq_of_toNat_eq
  rw [bigWord_toNat, withBigWord_div, Nat.add_comm, Nat.add_mul_mod_self_right, Nat.mod_eq_of_lt w.isLt]

theorem bigWord_withBigWord_other (v : Nat) {i j : Nat} (w : Word) (h : j ≠ i) :
    bigWord (withBigWord v i w) j = bigWord v j := by
  apply BitVec.eq_of_toNat_eq
  rw [bigWord_toNat, bigWord_toNat]
  rcases Nat.lt_or_gt_of_ne h with hlt | hgt
  · obtain ⟨d, rfl⟩ : ∃ d, i = j + 1 + d := ⟨i - (j + 1), by omega⟩
    have key : ∀ x : Nat, x / 2 ^ (32 * j) % 2 ^ 32 = x % 2 ^ (32 * (j + 1 + d)) / 2 ^ (32 * j) % 2 ^ 32 := by
      intro x
      rw [show 32 * (j + 1 + d) = 32 * j + (32 + 32 * d) by omega, pow_add, Nat.mod_mul_right_div_self, pow_add,
        Nat.mod_mul_right_mod]
    rw [key, withBigWord_mod, ← key]
  · obtain ⟨d, rfl⟩ : ∃ d, j = i + 1 + d := ⟨j - (i + 1), by omega⟩
    rw [show 32 * (i + 1 + d) = 32 * (i + 1) + 32 * d by omega, pow_add, ← Nat.div_div_eq_div_mul,
      ← Nat.div_div_eq_div_mul, withBigWord_div_succ]

/-- Replacing a word below NW keeps the value below 2^NBITS. -/
theorem withBigWord_lt {v i nw : Nat} (w : Word) (hv : v < 2 ^ (32 * nw)) (hi : i < nw) :
    withBigWord v i w < 2 ^ (32 * nw) := by
  obtain ⟨d, rfl⟩ : ∃ d, nw = i + 1 + d := ⟨nw - (i + 1), by omega⟩
  rw [show 32 * (i + 1 + d) = 32 * d + 32 * (i + 1) by omega, pow_add] at hv ⊢
  rw [← Nat.div_lt_iff_lt_mul (Nat.two_pow_pos _)] at hv ⊢
  rwa [withBigWord_div_succ]

/-- A value below 2^NBITS is the sum of its words. -/
theorem sum_bigWord (v : Nat) : ∀ nw, v % 2 ^ (32 * nw)
    = ∑ i ∈ Finset.range nw, (bigWord v i).toNat * 2 ^ (32 * i)
  | 0 => by simp [Nat.mod_one]
  | nw + 1 => by
    rw [Finset.sum_range_succ, ← sum_bigWord v nw, bigWord_toNat, two_pow_word_succ, Nat.mul_comm (2 ^ 32), Nat.mod_mul]
    ring

/-- A value below 2^NBITS is determined by its words. -/
theorem eq_of_bigWords {v u nw : Nat} (hv : v < 2 ^ (32 * nw)) (hu : u < 2 ^ (32 * nw))
    (h : ∀ i < nw, bigWord v i = bigWord u i) : v = u := by
  rw [← Nat.mod_eq_of_lt hv, ← Nat.mod_eq_of_lt hu, sum_bigWord, sum_bigWord]
  exact Finset.sum_congr rfl fun i hi => by rw [h i (Finset.mem_range.1 hi)]

/-! ## The register map (R61) -/

/-- Word `i` of register X lies at `base(X) + 4i`. -/
theorem windowWord_base (p : Params) (x : BigReg) {i : Nat} (hi : i < p.nw) (hn : p.nw ≤ 32) :
    windowWord p (x.base + 4 * i) = some (x, i) := by
  have h1 : (x.base + 4 * i) / 0x80 = x.base / 0x80 := by cases x <;> simp only [BigReg.base] <;> omega
  have h2 : (x.base + 4 * i) % 0x80 / 4 = i := by cases x <;> simp only [BigReg.base] <;> omega
  have h3 : windowReg (x.base + 4 * i) = some x := by
    rw [windowReg, h1]; cases x <;> rfl
  rw [windowWord, h3, h2]
  simp [hi]

/-- An aligned offset in a window is `base(X) + 4i` for a word `i` below NW. -/
theorem windowWord_some {p : Params} {off i : Nat} {x : BigReg} (h : windowWord p off = some (x, i))
    (ha : off % 4 = 0) : off = x.base + 4 * i ∧ i < p.nw := by
  rw [windowWord] at h
  cases hw : windowReg off with
  | none => rw [hw] at h; cases h
  | some y =>
    rw [hw] at h
    dsimp only at h
    split at h
    · next hlt =>
      cases h
      refine ⟨?_, hlt⟩
      rw [windowReg] at hw
      split at hw <;> cases hw <;> simp only [BigReg.base] <;> omega
    · cases h

/-- The windows are 0x80-aligned and lie between 0x080 and 0x4FF. -/
theorem base_bounds (x : BigReg) : 0x80 ≤ x.base ∧ x.base ≤ 0x480 ∧ x.base % 0x80 = 0 := by
  cases x <;> simp [BigReg.base]

/-- NW of legal parameters. -/
theorem nw_of_legal {p : Params} (h : p.legal = true) : 1 ≤ p.nw ∧ p.nw ≤ 32 := by
  simp only [Params.legal, Bool.and_eq_true, decide_eq_true_eq] at h
  exact h.1.1.1

/-- The read of a word of a big-integer register (R64, R75). -/
theorem busRead_big {s : State} (x : BigReg) {i : Nat} (hn : s.cfg.nw ≤ 32) (hi : i < s.cfg.nw) :
    busRead s (x.base + 4 * i) = some (bigWord (s.big x) i) := by
  have := base_bounds x
  rw [busRead, if_neg (by omega), if_neg (by omega), if_neg (by omega), if_neg (by omega), if_neg (by omega),
    if_neg (by omega), if_neg (by omega), windowWord_base _ _ hi hn]

/-- The write of a word of a big-integer register that the host may write (R64, R75). -/
theorem busWrite_big {s : State} {x : BigReg} {i : Nat} (v : Word) (hn : s.cfg.nw ≤ 32)
    (hw : x.writable = true) (hi : i < s.cfg.nw) :
    busWrite s (x.base + 4 * i) v = some { s.setBig x (withBigWord (s.big x) i v) with
      keyst := if x.isKey then false else s.keyst } := by
  have := base_bounds x
  rw [busWrite, if_neg (by omega), if_neg (by omega), windowWord_base _ _ hi hn]
  cases x <;> first | rfl | cases hw

/-! ## Transactions -/

/-- The target of the host's access at an offset below 4096. -/
theorem busTarget_offset (p : Params) {acc : BusAccess} {off : Nat} (h : acc.addr = p.base + off) (ho : off < 4096) :
    busTarget p acc = match acc.size, acc.kind with
      | .b32, .write v => if off = 0x000 then .command v else if off = 0x00C then .message v else .register off
      | _, _ => .register off := by
  rw [busTarget, h, if_neg (by omega), Nat.add_sub_cancel_left]
  all_goals rfl

/-- A write of CMD or MSGW is a command. -/
theorem busTarget_commandWrite (p : Params) (port : Port) (c : Word) :
    busTarget p (commandWrite p port c) = match port with
      | .cmd => .command c
      | .msgw => .message c := by
  cases port
  · rw [busTarget_offset p (off := 0) rfl (by norm_num)]; rfl
  · rw [busTarget_offset p (off := 0x00C) rfl (by norm_num)]; rfl

/-- Only the host's 32-bit write at offset 0 is a command of CMD. -/
theorem busTarget_command {p : Params} {acc : BusAccess} {c : Word} (h : busTarget p acc = .command c) :
    acc = commandWrite p .cmd c := by
  obtain ⟨addr, size, kind⟩ := acc
  rw [busTarget] at h
  split at h
  · cases h
  · next hb =>
    split at h
    · next v h1 h2 =>
      dsimp only at h1 h2 h hb
      subst h1 h2
      split at h
      · next h0 => cases h; simp only [commandWrite, BusAccess.mk.injEq, and_true]; omega
      · split at h <;> cases h
    · cases h

/-- Only the host's 32-bit write at offset 0x00C is a push of MSGW. -/
theorem busTarget_message {p : Params} {acc : BusAccess} {c : Word} (h : busTarget p acc = .message c) :
    acc = commandWrite p .msgw c := by
  obtain ⟨addr, size, kind⟩ := acc
  rw [busTarget] at h
  split at h
  · cases h
  · next hb =>
    split at h
    · next v h1 h2 =>
      dsimp only at h1 h2 h hb
      subst h1 h2
      split at h
      · cases h
      · split at h
        · next h0 => cases h; simp only [commandWrite, BusAccess.mk.injEq, and_true]; omega
        · cases h
    · cases h

/-- A register target is the offset of an address in the block. -/
theorem busTarget_register {p : Params} {acc : BusAccess} {off : Nat} (h : busTarget p acc = .register off) :
    acc.addr = p.base + off ∧ off < 4096 := by
  rw [busTarget] at h
  split at h
  · cases h
  · next hb =>
    repeat' split at h
    all_goals cases h
    all_goals omega

/-- Everything a register write can do: QCID, or one word of a writable big-integer register; KEYST is
dropped for the key (R75, 10_state.md R45). -/
theorem busWrite_cases {s s' : State} {off : Nat} {v : Word} (h : busWrite s off v = some s') :
    off % 4 = 0 ∧ ((off = 0x02C ∧ s' = { s with qcid := v, keyst := false })
      ∨ ∃ x i, x.writable = true ∧ i < s.cfg.nw ∧ off = x.base + 4 * i
        ∧ s' = { s.setBig x (withBigWord (s.big x) i v) with
                 keyst := if x.isKey then false else s.keyst }) := by
  rw [busWrite] at h
  split at h
  · cases h
  · next ha =>
    rw [not_not] at ha
    refine ⟨ha, ?_⟩
    split at h
    · next hq => cases h; exact .inl ⟨hq, rfl⟩
    · cases hw : windowWord s.cfg off with
      | none => rw [hw] at h; cases h
      | some xi =>
        obtain ⟨x, i⟩ := xi
        rw [hw] at h
        obtain ⟨ho, hi⟩ := windowWord_some hw ha
        refine .inr ⟨x, i, ?_, hi, ho, ?_⟩ <;> cases x <;> cases h <;> rfl

/-- A transaction that starts no command answers the read, does the write, or ends BUSERR with nothing
changed (R63). -/
theorem busRegister_cases (off : Nat) (acc : BusAccess) (s : State) :
    (∃ v, acc.size = .b32 ∧ acc.kind = .read ∧ busRead s off = some v
        ∧ busRegister off acc s = respond (some (.okRead v)) s)
      ∨ (∃ v s', acc.size = .b32 ∧ acc.kind = .write v ∧ busWrite s off v = some s'
        ∧ busRegister off acc s = respond (some .okWrite) s')
      ∨ busRegister off acc s = respond (some .busErr) s := by
  rw [busRegister]
  split
  · next h1 h2 =>
    cases h : busRead s off with
    | none => exact .inr (.inr rfl)
    | some v => exact .inl ⟨v, h1, h2, rfl, rfl⟩
  · next v h1 h2 =>
    cases h : busWrite s off v with
    | none => exact .inr (.inr rfl)
    | some s' => exact .inr (.inl ⟨v, s', h1, h2, h, rfl⟩)
  · exact .inr (.inr rfl)

/-- A register access leaves the parameters and the waiting events alone. -/
theorem busRegister_outside (off : Nat) (acc : BusAccess) (s : State) :
    (busRegister off acc s).pending = s.pending ∧ (busRegister off acc s).cfg = s.cfg := by
  obtain ⟨_, _, _, _, e⟩ | ⟨_, _, _, _, hw, e⟩ | e := busRegister_cases off acc s <;> rw [e]
  · exact ⟨rfl, rfl⟩
  · obtain ⟨_, ⟨_, rfl⟩ | ⟨x, _, _, _, _, rfl⟩⟩ := busWrite_cases hw
    · exact ⟨rfl, rfl⟩
    · simp
  · exact ⟨rfl, rfl⟩

end Sys2Proof.Machine
end

