-- ==== Sys2Proof/Laws/Decode.lean ====
section
/-!
SUPPORT. Concatenations as numbers, and the fields of a word built from four bytes or from a format.
-/
namespace Sys2Proof.Machine

/-- A concatenation as a number. -/
theorem toNat_append_eq {m n : Nat} (x : BitVec m) (y : BitVec n) : (x ++ y).toNat = x.toNat * 2 ^ n + y.toNat := by
  rw [BitVec.toNat_append, ← Nat.shiftLeft_add_eq_or_of_lt y.isLt, Nat.shiftLeft_eq]

/-- A slice as a number. -/
theorem toNat_extract_eq {m : Nat} (x : BitVec m) (lo len : Nat) :
    (x.extractLsb' lo len).toNat = x.toNat / 2 ^ lo % 2 ^ len := by
  rw [BitVec.extractLsb'_toNat, Nat.shiftRight_eq_div_pow]

/-- The four bytes of a word, most significant first. -/
theorem fields_of_bytes (b0 b1 b2 b3 : Byte) :
    opField (b0 ++ b1 ++ b2 ++ b3) = b0 ∧ field2 (b0 ++ b1 ++ b2 ++ b3) = b1
      ∧ field1 (b0 ++ b1 ++ b2 ++ b3) = b2 ∧ field0 (b0 ++ b1 ++ b2 ++ b3) = b3 := by
  have h0 := b0.isLt
  have h1 := b1.isLt
  have h2 := b2.isLt
  have h3 := b3.isLt
  refine ⟨?_, ?_, ?_, ?_⟩ <;> apply BitVec.eq_of_toNat_eq <;>
    simp only [opField, field2, field1, field0, toNat_extract_eq, toNat_append_eq] <;> omega

/-- A word is the concatenation of its four fields. -/
theorem bytes_of_fields (c : Word) : opField c ++ field2 c ++ field1 c ++ field0 c = c := by
  have h := c.isLt
  apply BitVec.eq_of_toNat_eq
  simp only [opField, field2, field1, field0, toNat_extract_eq, toNat_append_eq]
  omega

/-- Four bytes as a big-endian number (20_memory.md R65). -/
theorem be32_toNat (b0 b1 b2 b3 : Byte) :
    (be32 b0 b1 b2 b3).toNat = b0.toNat * 2 ^ 24 + b1.toNat * 2 ^ 16 + b2.toNat * 2 ^ 8 + b3.toNat := by
  simp only [be32, toNat_append_eq]
  omega

end Sys2Proof.Machine
end

