-- ==== Sys2Proof/Laws/Ops.lean ====
section
/-!
SUPPORT. For each shared operation, once, everything it can do.
-/
namespace Sys2Proof.Machine

/-! ## Ports -/

/-- `FetchOrder()` answers either InvalidModulus, for an order out of range, or the order with N written. -/
theorem fetchOrder_cases (s : State) :
    ((grpOrder s.cfg < 2 ∨ 2 ^ s.cfg.nbits ≤ grpOrder s.cfg) ∧ fetchOrder s = .error .invalidModulus)
      ∨ ∃ n, OrderIs s.cfg n ∧ fetchOrder s = .ok (n, { s with regN := n }) := by
  rw [fetchOrder]
  split
  · next h => exact .inl ⟨h, rfl⟩
  · next h =>
    rw [not_or, not_lt, not_le] at h
    have h0 : ((grpOrder s.cfg).toNat : Int) = grpOrder s.cfg := Int.toNat_of_nonneg (by omega)
    refine .inr ⟨_, ⟨h0.symm, by omega, ?_⟩, rfl⟩
    have h2 := h.2
    rw [← h0] at h2
    exact_mod_cast h2

theorem fetchOrder_ok {s : State} {n : Nat} (h : OrderIs s.cfg n) :
    fetchOrder s = .ok (n, { s with regN := n }) := by
  obtain ⟨h1, h2, h3⟩ := h
  have h4 : (n : Int) < 2 ^ s.cfg.nbits := by exact_mod_cast h3
  rw [fetchOrder, h1, if_neg (by omega), Int.toNat_natCast]

theorem fetchOrder_bad {s : State} (h : grpOrder s.cfg < 2 ∨ 2 ^ s.cfg.nbits ≤ grpOrder s.cfg) :
    fetchOrder s = .error .invalidModulus := by
  rw [fetchOrder, if_pos h]

/-- The order is one number. -/
theorem OrderIs.unique {p : Params} {n m : Nat} (hn : OrderIs p n) (hm : OrderIs p m) : n = m := by
  have := hn.1.symm.trans hm.1
  omega

/-- `DrawScalar` answers RngFailure, or the integer drawn, which lies in `[1, n-1]`. -/
theorem checkDraw_cases (n : Nat) (answer : Option Int) :
    checkDraw n answer = .error .rngFailure
      ∨ ∃ k : Nat, answer = some (k : Int) ∧ 1 ≤ k ∧ k ≤ n - 1 ∧ checkDraw n answer = .ok k := by
  cases answer with
  | none => exact .inl rfl
  | some k =>
    rw [checkDraw]
    split
    · exact .inl rfl
    · refine .inr ⟨k.toNat, ?_, ?_, ?_, rfl⟩
      · rw [Int.toNat_of_nonneg (by omega)]
      · omega
      · omega

theorem checkDraw_ok {n k : Nat} (h1 : 1 ≤ k) (h2 : k ≤ n - 1) : checkDraw n (some (k : Int)) = .ok k := by
  rw [checkDraw, if_neg (by omega), Int.toNat_natCast]

theorem checkDraw_bad {n : Nat} {answer : Option Int}
    (h : answer = none ∨ ∃ d : Int, answer = some d ∧ (d < 1 ∨ (n : Int) - 1 < d)) :
    checkDraw n answer = .error .rngFailure := by
  obtain rfl | ⟨d, rfl, h⟩ := h
  · rfl
  · rw [checkDraw, if_pos h]

theorem outOfRange_eq_true (n v : Nat) : outOfRange n v = true ↔ v < 1 ∨ n - 1 < v := by
  simp [outOfRange]

/-- A port element has coordinates of NBITS bits (00_scope.md R6(c)). -/
theorem portElement_fits (p : Params) (e : GroupElement) :
    (portElement p e).x < 2 ^ p.nbits ∧ (portElement p e).y < 2 ^ p.nbits :=
  ⟨Nat.mod_lt _ (Nat.two_pow_pos _), Nat.mod_lt _ (Nat.two_pow_pos _)⟩

/-! ## Message bytes -/

/-- One byte appended changes H, MBUF and LEN only. -/
theorem appendByte_eq (s : State) (x : Byte) :
    ∃ h mbuf, appendByte s x = { s with h := h, mbuf := mbuf, len := s.len + 8 } := by
  rw [appendByte]
  split
  · exact ⟨_, _, rfl⟩
  · exact ⟨_, _, rfl⟩

/-- Bytes appended change H, MBUF and LEN only. -/
theorem foldl_appendByte_eq (bs : List Byte) : ∀ s : State,
    ∃ h mbuf len, bs.foldl appendByte s = { s with h := h, mbuf := mbuf, len := len } := by
  induction bs with
  | nil => exact fun s => ⟨_, _, _, rfl⟩
  | cons x bs ih =>
    intro s
    obtain ⟨h, m, e⟩ := appendByte_eq s x
    obtain ⟨h', m', l', e'⟩ := ih (appendByte s x)
    exact ⟨h', m', l', by rw [List.foldl_cons, e', e]⟩

/-- A push ends in SequenceError, in MsgTooLong, or appends its bytes (41_hash.md R142). -/
theorem appendBytes_cases (bs : List Byte) (s : State) :
    (s.hashing = false ∧ appendBytes bs s = raise .sequenceError s)
      ∨ (s.hashing = true ∧ 2 ^ 64 ≤ s.len.toNat + 8 * bs.length ∧ appendBytes bs s = raise .msgTooLong s)
      ∨ (s.hashing = true ∧ s.len.toNat + 8 * bs.length < 2 ^ 64
          ∧ appendBytes bs s = bs.foldl appendByte s) := by
  rw [appendBytes]
  split
  · next h => exact .inl ⟨h, rfl⟩
  · next h =>
    rw [Bool.not_eq_false] at h
    split
    · next h' => exact .inr (.inl ⟨h, h', rfl⟩)
    · next h' => exact .inr (.inr ⟨h, by omega, rfl⟩)

/-! ## The loop of SIGN -/

@[simp] theorem afterDraws_zero (s : State) : afterDraws 0 s = s := rfl

@[simp] theorem afterDraws_afterDraw (m : Nat) (s : State) :
    afterDraws m (afterDraw s) = afterDraws (m + 1) s := by
  simp only [afterDraws, afterDraw, State.mk.injEq, true_and, and_true]
  exact ⟨by rw [← List.drop_one, List.drop_drop, Nat.add_comm], by omega⟩

/-- A nonce in `[1, n-1]` fails only for want of an inverse, and a signature lies in `[1, n-1]`. -/
theorem tryNonce_cases (p : Params) {n k : Nat} (d h : Nat) (hk : 1 ≤ k) (hn : k ≤ n - 1) :
    tryNonce p n d h k = .degenerate
      ∨ tryNonce p n d h k = .failed .noInverseExists
      ∨ ∃ r sv, tryNonce p n d h k = .signature r sv ∧ 1 ≤ r ∧ r ≤ n - 1 ∧ 1 ≤ sv ∧ sv ≤ n - 1 := by
  have hpos : 0 < n := by omega
  have hmod : ∀ a : Nat, a % n ≤ n - 1 := fun a => by have := Nat.mod_lt a hpos; omega
  simp only [tryNonce, modNat_eq]
  split
  · exact .inl rfl
  · next hr =>
    rw [modInverse, if_neg (by omega), if_neg (by omega), if_neg (by omega)]
    split
    · next he => split at he <;> cases he; exact .inr (.inl rfl)
    · split
      · exact .inl rfl
      · next hs => exact .inr (.inr ⟨_, _, rfl, Nat.one_le_iff_ne_zero.2 hr, hmod _, Nat.one_le_iff_ne_zero.2 hs, hmod _⟩)

/-- The loop of SIGN makes `m ≤ tries` draws and then reports an error, or returns a signature in
`[1, n-1]`, with nothing else touched (42_signature.md R169, R170). -/
theorem signLoop_cases (n d h : Nat) : ∀ (tries : Nat) (s : State), ∃ m, m ≤ tries ∧
    ((∃ e ∈ [Err.rngFailure, .noInverseExists, .retryExhausted], signLoop tries n d h s = raise e (afterDraws m s))
      ∨ ∃ r sv, 1 ≤ m ∧ 1 ≤ r ∧ r ≤ n - 1 ∧ 1 ≤ sv ∧ sv ≤ n - 1
        ∧ signLoop tries n d h s = setSignature r sv (afterDraws m s))
  | 0, s => ⟨0, le_rfl, .inl ⟨.retryExhausted, by simp, rfl⟩⟩
  | tries + 1, s => by
    rw [signLoop]
    have one : afterDraw s = afterDraws 1 s := by rw [← afterDraws_afterDraw]; rfl
    obtain hd | ⟨k, -, hk, hkn, hd⟩ := checkDraw_cases n (rngAnswer s n)
    · exact ⟨1, by omega, .inl ⟨.rngFailure, by simp, by rw [hd, one]⟩⟩
    · rw [hd]
      obtain ht | ht | ⟨r, sv, ht, hr⟩ := tryNonce_cases s.cfg d h hk hkn
      · obtain ⟨m, hm, ih⟩ := signLoop_cases n d h tries (afterDraw s)
        rw [afterDraws_afterDraw] at ih
        refine ⟨m + 1, by omega, ?_⟩
        simp only [ht]
        exact ih.imp id fun ⟨r, sv, _, hr⟩ => ⟨r, sv, by omega, hr⟩
      · exact ⟨1, by omega, .inl ⟨.noInverseExists, by simp, by simp only [ht, one]⟩⟩
      · exact ⟨1, by omega, .inr ⟨r, sv, le_rfl, hr.1, hr.2.1, hr.2.2.1, hr.2.2.2, by simp only [ht, one]⟩⟩

/-! ## One nonce (42_signature.md R169, R170) -/

/-- A degenerate nonce is retried. -/
theorem tryNonce_degenerate {p : Params} {n d h k : Nat} (hn : 2 ≤ n) (hd : DegenerateNonce p n d h k) :
    tryNonce p n d h k = .degenerate := by
  obtain ⟨-, -, h3⟩ := hd
  simp only [tryNonce, modNat_eq]
  split
  · rfl
  · next hr =>
    obtain h3 | ⟨hc, h3⟩ := h3
    · exact absurd h3 hr
    · obtain ⟨t, ht, -, -⟩ := modInverse_of_coprime hn hc
      rw [nonceR] at h3
      simp only [ht]
      rw [if_pos (by rw [Nat.mul_mod, h3]; simp)]

/-- A nonce with an inverse whose r and s are not 0 gives a signature with `s * k ≡ h + r * d`. -/
theorem tryNonce_signature {p : Params} {n d h k : Nat} (hn : 2 ≤ n) (hc : Nat.Coprime k n)
    (hr : nonceR p n k ≠ 0) (hs : (h + nonceR p n k * d) % n ≠ 0) :
    ∃ sv, tryNonce p n d h k = .signature (nonceR p n k) sv ∧ 1 ≤ sv ∧ sv ≤ n - 1
      ∧ sv * k % n = (h + nonceR p n k * d) % n := by
  have e : tryNonce p n d h k = if nonceR p n k = 0 then .degenerate
      else match modInverse (k : Int) (n : Int) with
        | .error e => .failed e
        | .ok kinv => if kinv * (h + nonceR p n k * d) % n = 0 then .degenerate
            else .signature (nonceR p n k) (kinv * (h + nonceR p n k * d) % n) := by
    simp only [tryNonce, modNat_eq, nonceR]
    rfl
  rw [e]
  generalize h + nonceR p n k * d = x at *
  obtain ⟨t, ht, -, h1⟩ := modInverse_of_coprime hn hc
  have h2 : t * x % n * k % n = x % n := by
    rw [Nat.mod_mul_mod, show t * x * k = t * k * x by ring, Nat.mul_mod, h1, Nat.one_mul, Nat.mod_mod]
  have h3 : t * x % n ≠ 0 := by
    intro h0
    rw [h0, Nat.zero_mul, Nat.zero_mod] at h2
    exact hs h2.symm
  have := Nat.mod_lt (t * x) (show 0 < n by omega)
  simp only [ht, if_neg hr, if_neg h3]
  exact ⟨_, rfl, by omega, by omega, h2⟩

/-- The answers to later draws, seen from the state after the first. -/
theorem drawAnswer_afterDraw (s : State) (n j : Nat) : drawAnswer (afterDraw s) n j = drawAnswer s n (j + 1) := by
  rw [drawAnswer, afterDraws_afterDraw, drawAnswer]

/-- Degenerate answers of RNG are consumed one by one, and the loop goes on (R170). -/
theorem signLoop_degenerate {n d h : Nat} (hn : 2 ≤ n) (tries : Nat) : ∀ (m : Nat) (k : Nat → Nat) (s : State),
    (∀ j < m, drawAnswer s n j = some (k j : Int) ∧ DegenerateNonce s.cfg n d h (k j)) →
      signLoop (m + tries) n d h s = signLoop tries n d h (afterDraws m s)
  | 0, _, s, _ => by simp
  | m + 1, k, s, hd => by
    obtain ⟨ha, hk⟩ := hd 0 (by omega)
    rw [drawAnswer, afterDraws_zero] at ha
    rw [show m + 1 + tries = m + tries + 1 by omega, signLoop, ha, checkDraw_ok hk.1 (by have := hk.2.1; omega)]
    simp only [tryNonce_degenerate hn hk]
    rw [signLoop_degenerate hn tries m (fun j => k (j + 1)) (afterDraw s)
      (fun j hj => by rw [drawAnswer_afterDraw]; exact hd (j + 1) (by omega)), afterDraws_afterDraw]

/-- As `signLoop_cases`, with the nonce that gave the signature. -/
theorem signLoop_nonce (n d h : Nat) : ∀ (tries : Nat) (s : State),
    (∃ m e, m ≤ tries ∧ signLoop tries n d h s = raise e (afterDraws m s))
      ∨ ∃ m k r sv, m ≤ tries ∧ 1 ≤ m ∧ 1 ≤ k ∧ k ≤ n - 1 ∧ tryNonce s.cfg n d h k = .signature r sv
        ∧ signLoop tries n d h s = setSignature r sv (afterDraws m s)
  | 0, s => .inl ⟨0, _, le_rfl, rfl⟩
  | tries + 1, s => by
    have one : afterDraw s = afterDraws 1 s := by rw [← afterDraws_afterDraw]; rfl
    rw [signLoop]
    obtain hd | ⟨k, -, h1, h2, hd⟩ := checkDraw_cases n (rngAnswer s n)
    · exact .inl ⟨1, _, by omega, by rw [hd, one]⟩
    · rw [hd]
      cases ht : tryNonce s.cfg n d h k with
      | degenerate =>
        have ih := signLoop_nonce n d h tries (afterDraw s)
        simp only [afterDraw_cfg, afterDraws_afterDraw] at ih
        obtain ⟨m, e, hm, ih⟩ | ⟨m, j, r, sv, hm, h3, h4, h5, h6, ih⟩ := ih
        · exact .inl ⟨m + 1, e, by omega, by simp only [ht, ih]⟩
        · exact .inr ⟨m + 1, j, r, sv, by omega, by omega, h4, h5, h6, by simp only [ht, ih]⟩
      | failed e => exact .inl ⟨1, e, by omega, by simp only [ht, one]⟩
      | signature r sv => exact .inr ⟨1, k, r, sv, by omega, le_rfl, h1, h2, ht, by simp only [ht, one]⟩

end Sys2Proof.Machine
end

