-- ==== Sys2Proof/Laws/Exec.lean ====
section
/-!
SUPPORT. For each command, once, everything it can do, on the state whose result flags are cleared.
-/
namespace Sys2Proof.Machine

/-! ## `exec`, one equation per instruction -/

theorem exec_srst (s : State) : exec .srst s = .next { resetCore (beginCommand 0x01 s) with lastop := 0x01 } := rfl

theorem exec_hstart (s : State) : exec .hstart s =
    .next { beginCommand 0x10 s with h := hInit, mbuf := [], len := 0, hashing := true, dvalid := false } := rfl

theorem exec_hfinal (s : State) : exec .hfinal s = .next (finishHash (beginCommand 0x14 s)) := rfl

theorem exec_modinv (neg : Bool) (s : State) : exec (.modinv neg) s = .next (invertA neg (beginCommand 0x20 s)) := rfl

theorem exec_modred (neg : Bool) (s : State) : exec (.modred neg) s = .next (reduceA neg (beginCommand 0x21 s)) := rfl

theorem exec_keygen (s : State) : exec .keygen s = .next (generateKey (beginCommand 0x30 s)) := rfl

theorem exec_keyload (s : State) : exec .keyload s = .next (loadKey (beginCommand 0x31 s)) := rfl

theorem exec_sign (s : State) : exec .sign s = .next (signDigest (beginCommand 0x32 s)) := rfl

theorem exec_verify (s : State) : exec .verify s = .next (verifyDigest (beginCommand 0x33 s)) := rfl

/-- LASTOP of the four pushes (41_hash.md R143 to R146). -/
def pushOp : Nat → Byte
  | 1 => 0x11
  | 2 => 0x12
  | 3 => 0x13
  | _ => 0x1F

/-- The four pushes are one operation on the bytes they carry. -/
theorem exec_push {i : Instr} {bs : List Byte} (h : pushedBytes i = some bs) (s : State) :
    exec i s = .next (appendBytes bs (beginCommand (pushOp bs.length) s)) := by
  cases i <;> cases h <;> rfl

theorem pushedBytes_length {i : Instr} {bs : List Byte} (h : pushedBytes i = some bs) :
    1 ≤ bs.length ∧ bs.length ≤ 4 := by
  cases i <;> cases h <;> simp

/-- An instruction is a push, or one of the nine that are not. -/
theorem instr_cases (i : Instr) : (∃ bs, pushedBytes i = some bs) ∨ i = .srst ∨ i = .hstart ∨ i = .hfinal
    ∨ (∃ neg, i = .modinv neg) ∨ (∃ neg, i = .modred neg) ∨ i = .keygen ∨ i = .keyload ∨ i = .sign ∨ i = .verify := by
  cases i <;> simp [pushedBytes]

/-- The codes of errors are 1 to 10 (60_exceptions.md R211): none is the code of no error. -/
theorem code_ne_zero (e : Err) : e.code ≠ 0 := by cases e <;> decide

/-- Different errors have different codes (R211). -/
@[simp] theorem code_inj (e f : Err) : e.code = f.code ↔ e = f := by cases e <;> cases f <;> decide

theorem lastopOf_push {i : Instr} {bs : List Byte} (h : pushedBytes i = some bs) :
    lastopOf i = pushOp bs.length := by
  cases i <;> cases h
  case hpush1 b0 =>
    have := b0.isLt
    apply BitVec.eq_of_toNat_eq
    simp only [lastopOf, encode, pushOp, toNat_extract_eq, toNat_append_eq]
    simp
    omega
  case hpush2 b0 b1 => exact (fields_of_bytes 0x12 0 b0 b1).1
  case hpush3 b0 b1 b2 => exact (fields_of_bytes 0x13 b0 b1 b2).1
  case hpush4 => rfl

theorem lastopOf_modinv (neg : Bool) : lastopOf (.modinv neg) = 0x20 := by cases neg <;> decide

theorem lastopOf_modred (neg : Bool) : lastopOf (.modred neg) = 0x21 := by cases neg <;> decide

/-- The result flags of the command before play no part: `BeginCommand` clears them (43_control.md R201). -/
theorem exec_beginCommand (i : Instr) (op : Byte) (s : State) : exec i (beginCommand op s) = exec i s := by
  cases i <;> rfl

/-! ## The commands -/

theorem finishHash_cases (s : State) :
    (s.hashing = false ∧ finishHash s = raise .sequenceError s)
      ∨ (s.hashing = true
          ∧ finishHash s = { s with h := finalChain s, mbuf := [], hashing := false, dvalid := true }) := by
  rw [finishHash]
  split
  · next h => exact .inl ⟨h, rfl⟩
  · next h => exact .inr ⟨by simpa using h, rfl⟩

theorem invertA_cases (neg : Bool) (s : State) :
    (∃ e ∈ [Err.invalidModulus, .divisionByZero, .noInverseExists],
        modInverse (operandA neg s) (operandM s) = .error e ∧ invertA neg s = raise e s)
      ∨ ∃ t, modInverse (operandA neg s) (operandM s) = .ok t ∧ (t : Int) < s.regM
          ∧ invertA neg s = { s with regT := t } := by
  rw [invertA]
  cases h : modInverse (operandA neg s) (operandM s) with
  | error e =>
    refine .inl ⟨e, ?_, rfl, rfl⟩
    rw [modInverse] at h
    repeat' split at h
    all_goals cases h
    all_goals simp
  | ok t =>
    refine .inr ⟨t, rfl, ?_, rfl⟩
    rw [modInverse] at h
    repeat' split at h
    all_goals cases h
    next h0 _ _ _ =>
      have hm : 0 < operandM s := by omega
      rw [Int.toNat_of_nonneg (modInt_nonneg _ hm)]
      exact modInt_lt _ hm

theorem reduceA_cases (neg : Bool) (s : State) :
    (s.regM = 0 ∧ reduceA neg s = raise .invalidModulus s)
      ∨ (s.regM ≠ 0 ∧ ∃ t : Nat, (t : Int) = modInt (operandA neg s) s.regM ∧ t < s.regM
          ∧ reduceA neg s = { s with regT := t }) := by
  rw [reduceA]
  split
  · next h => exact .inl ⟨h, rfl⟩
  · next h =>
    have hm : (0 : Int) < s.regM := by omega
    have h0 := modInt_nonneg (operandA neg s) hm
    have h1 := modInt_lt (operandA neg s) hm
    exact .inr ⟨h, _, Int.toNat_of_nonneg h0, by omega, rfl⟩

/-- KEYGEN: a bad order, a bad draw, or a key pair (42_signature.md R166). -/
theorem generateKey_cases (s : State) :
    ((grpOrder s.cfg < 2 ∨ 2 ^ s.cfg.nbits ≤ grpOrder s.cfg) ∧ generateKey s = raise .invalidModulus s)
      ∨ ∃ n, OrderIs s.cfg n
        ∧ ((checkDraw n (rngAnswer s n) = .error .rngFailure
              ∧ generateKey s = raise .rngFailure (afterDraw { s with regN := n }))
          ∨ ∃ d : Nat, rngAnswer s n = some (d : Int) ∧ 1 ≤ d ∧ d ≤ n - 1
              ∧ generateKey s = setKeyPair d (grpScalarMultiply s.cfg d (grpBasePoint s.cfg))
                  (afterDraw { s with regN := n })) := by
  obtain ⟨h, e⟩ | ⟨n, h, e⟩ := fetchOrder_cases s
  · exact .inl ⟨h, by rw [generateKey, e]⟩
  · refine .inr ⟨n, h, ?_⟩
    rw [generateKey, e]
    have hr : rngAnswer { s with regN := n } n = rngAnswer s n := rfl
    dsimp only
    rw [hr]
    obtain hd | ⟨d, ha, h1, h2, hd⟩ := checkDraw_cases n (rngAnswer s n)
    · exact .inl ⟨hd, by rw [hd]⟩
    · exact .inr ⟨d, ha, h1, h2, by rw [hd]⟩

theorem loadKey_cases (s : State) :
    (grpIsOnCurve s.cfg (operandQ s) = false ∧ loadKey s = raise .invalidPublicKey s)
      ∨ (grpIsOnCurve s.cfg (operandQ s) = true ∧ loadKey s = { s with keyst := true }) := by
  rw [loadKey]
  split
  · next h => exact .inl ⟨h, rfl⟩
  · next h => exact .inr ⟨by simpa using h, rfl⟩

/-- SIGN: out of sequence, a bad order, a key out of range, or the loop (42_signature.md R169). -/
theorem signDigest_cases (s : State) :
    ((s.keyst = false ∨ s.dvalid = false) ∧ signDigest s = raise .sequenceError s)
      ∨ (s.keyst = true ∧ s.dvalid = true
        ∧ (((grpOrder s.cfg < 2 ∨ 2 ^ s.cfg.nbits ≤ grpOrder s.cfg) ∧ signDigest s = raise .invalidModulus s)
          ∨ ∃ n, OrderIs s.cfg n
            ∧ (((s.regD < 1 ∨ n - 1 < s.regD) ∧ signDigest s = raise .keyRange { s with regN := n })
              ∨ (1 ≤ s.regD ∧ s.regD ≤ n - 1
                ∧ signDigest s
                    = signLoop s.cfg.retryCap n s.regD (digestInt s.h) { s with regN := n })))) := by
  rw [signDigest]
  split
  · next h => exact .inl ⟨h, rfl⟩
  · next h =>
    rw [not_or, Bool.not_eq_false, Bool.not_eq_false] at h
    refine .inr ⟨h.1, h.2, ?_⟩
    obtain ⟨ho, e⟩ | ⟨n, ho, e⟩ := fetchOrder_cases s
    · exact .inl ⟨ho, by rw [e]⟩
    · refine .inr ⟨n, ho, ?_⟩
      rw [e]
      dsimp only
      split
      · next hr => exact .inl ⟨(outOfRange_eq_true _ _).1 hr, rfl⟩
      · next hr =>
        rw [outOfRange_eq_true, not_or, Nat.not_lt, Nat.not_lt] at hr
        exact .inr ⟨hr.1, hr.2, rfl⟩

/-- VERIFY: out of sequence, a bad order, a malformed signature, no inverse, or an answer
(42_signature.md R171, R172). -/
theorem verifyDigest_cases (s : State) :
    ((s.keyst = false ∨ s.dvalid = false) ∧ verifyDigest s = raise .sequenceError s)
      ∨ (s.keyst = true ∧ s.dvalid = true
        ∧ (((grpOrder s.cfg < 2 ∨ 2 ^ s.cfg.nbits ≤ grpOrder s.cfg) ∧ verifyDigest s = raise .invalidModulus s)
          ∨ ∃ n, OrderIs s.cfg n
            ∧ (((s.regR < 1 ∨ n - 1 < s.regR ∨ s.regS < 1 ∨ n - 1 < s.regS)
                  ∧ verifyDigest s = { s with regN := n, malf := true, vres := false })
              ∨ (1 ≤ s.regR ∧ s.regR ≤ n - 1 ∧ 1 ≤ s.regS ∧ s.regS ≤ n - 1
                ∧ ((modInverse s.regS n = .error .noInverseExists
                      ∧ verifyDigest s = raise .noInverseExists { s with regN := n })
                  ∨ ∃ w, modInverse s.regS n = .ok w
                    ∧ verifyDigest s = { s with
                        regN := n
                        vres := decide (modNat (verifyPoint n w { s with regN := n }).x n = s.regR) }))))) := by
  rw [verifyDigest]
  split
  · next h => exact .inl ⟨h, rfl⟩
  · next h =>
    rw [not_or, Bool.not_eq_false, Bool.not_eq_false] at h
    refine .inr ⟨h.1, h.2, ?_⟩
    obtain ⟨ho, e⟩ | ⟨n, ho, e⟩ := fetchOrder_cases s
    · exact .inl ⟨ho, by rw [e]⟩
    · refine .inr ⟨n, ho, ?_⟩
      rw [e]
      dsimp only
      split
      · next hr =>
        rw [outOfRange_eq_true, outOfRange_eq_true, or_assoc] at hr
        exact .inl ⟨hr, rfl⟩
      · next hr =>
        rw [outOfRange_eq_true, outOfRange_eq_true, or_assoc] at hr
        simp only [not_or, Nat.not_lt] at hr
        refine .inr ⟨hr.1, hr.2.1, hr.2.2.1, hr.2.2.2, ?_⟩
        cases hi : modInverse s.regS n with
        | ok w => exact .inr ⟨w, rfl, rfl⟩
        | error er =>
          have hn := ho.2.1
          rw [modInverse, if_neg (by omega), if_neg (by omega), if_neg (by omega)] at hi
          split at hi
          · cases hi
            exact .inl ⟨rfl, rfl⟩
          · cases hi

end Sys2Proof.Machine
end

