-- ==== Sys2Proof/Laws/Hash.lean ====
section
/-!
SUPPORT. Lemmas about the hash as a pure function (41_hash.md), and about the append of bytes.
-/
namespace Sys2Proof.Machine

/-! ## Padding (R132) -/

/-- `z` fits. -/
theorem padZeros_fits (n : Nat) : (n + 1 + padZeros n) % 64 = 56 := by rw [padZeros]; omega

@[simp] theorem be64_length (l : BitVec 64) : (be64 l).length = 8 := rfl

/-- The length bytes are the length, most significant byte first. -/
theorem be64_foldl (l : BitVec 64) : (be64 l).foldl (fun v b => 256 * v + b.toNat) 0 = l.toNat := by
  have := l.isLt
  simp only [be64, List.foldl, toNat_extract_eq]
  omega

@[simp] theorem padding_length (n : Nat) (l : BitVec 64) : (padding n l).length = padZeros n + 9 := by simp [padding]

/-! ## The schedule (R133, R134) and the rounds (R137) -/

theorem splitWords_length : ∀ bs : List Byte, (splitWords bs).length = bs.length / 4
  | _ :: _ :: _ :: _ :: rest => by
    rw [splitWords, List.length_cons, splitWords_length rest]
    simp only [List.length_cons]
    omega
  | [] => by simp [splitWords]
  | [_] => by simp [splitWords]
  | [_, _] => by simp [splitWords]
  | [_, _, _] => by simp [splitWords]

/-- Word `j` of a block is made of its bytes `4j` to `4j+3`. -/
theorem splitWords_getD : ∀ (bs : List Byte) (j : Nat), 4 * j + 3 < bs.length →
    (splitWords bs).getD j 0 = be32 (bs.getD (4 * j) 0) (bs.getD (4 * j + 1) 0) (bs.getD (4 * j + 2) 0) (bs.getD (4 * j + 3) 0)
  | _ :: _ :: _ :: _ :: _, 0, _ => by simp [splitWords]
  | _ :: _ :: _ :: _ :: rest, j + 1, h => by
    rw [splitWords, List.getD_cons_succ, splitWords_getD rest j (by simp at h; omega)]
    simp [Nat.mul_add]
  | [], _, h => by simp at h
  | [_], _, h => by simp at h
  | [_, _], _, h => by simp at h
  | [_, _, _], _, h => by simp at h

/-- The extension keeps the words it starts from and continues them by the recurrence. -/
theorem extendWords_spec : ∀ (k : Nat) (ws : List Word), 16 ≤ ws.length →
    (extendWords k ws).length = k + ws.length
      ∧ (∀ i < ws.length, (extendWords k ws).reverse.getD i 0 = ws.reverse.getD i 0)
      ∧ ∀ i, ws.length ≤ i → i < k + ws.length →
        (extendWords k ws).reverse.getD i 0
          = rotl32 ((extendWords k ws).reverse.getD (i - 3) 0 ^^^ (extendWords k ws).reverse.getD (i - 8) 0
              ^^^ (extendWords k ws).reverse.getD (i - 14) 0 ^^^ (extendWords k ws).reverse.getD (i - 16) 0) 1
  | 0, ws, _ => ⟨by simp [extendWords], by simp [extendWords], by intros; omega⟩
  | k + 1, ws, h => by
    obtain ⟨h1, h2, h3⟩ := extendWords_spec k (nextWord ws :: ws) (by simp; omega)
    rw [extendWords]
    simp only [List.length_cons] at h1 h2 h3
    have h4 : ∀ i < ws.length, (extendWords k (nextWord ws :: ws)).reverse.getD i 0 = ws.reverse.getD i 0 := by
      intro i hi
      rw [h2 i (by omega), List.reverse_cons, List.getD_append _ _ _ _ (by simpa using hi)]
    refine ⟨by omega, h4, fun i hi hk => ?_⟩
    rcases Nat.lt_or_eq_of_le hi with h | rfl
    · exact h3 i h (by omega)
    · have g : ∀ m, 1 ≤ m → m ≤ ws.length → ws.reverse.getD (ws.length - m) 0 = ws.getD (m - 1) 0 := by
        intro m h1 h2
        rw [List.getD_eq_getElem _ _ (by simp; omega), List.getD_eq_getElem _ _ (by omega), List.getElem_reverse]
        congr 1
        omega
      rw [h2 _ (by omega), h4 _ (by omega), h4 _ (by omega), h4 _ (by omega), h4 _ (by omega), List.reverse_cons,
        List.getD_append_right _ _ _ _ (by simp), g 3 (by omega) (by omega), g 8 (by omega) (by omega),
        g 14 (by omega) (by omega), g 16 (by omega) (by omega)]
      simp [nextWord]

/-- The rounds as a sequence of working variables. -/
theorem rounds_spec : ∀ (ws : List Word) (t : Nat) (c : Chain), ∃ v : Nat → Chain,
    v 0 = c ∧ (∀ i < ws.length, v (i + 1) = oneRound (t + i) (ws.getD i 0) (v i)) ∧ rounds t ws c = v ws.length
  | [], _, c => ⟨fun _ => c, rfl, by simp, rfl⟩
  | w :: ws, t, c => by
    obtain ⟨v, h1, h2, h3⟩ := rounds_spec ws (t + 1) (oneRound t w c)
    refine ⟨fun i => i.casesOn c v, rfl, fun i hi => ?_, by rw [rounds, h3]; rfl⟩
    cases i with
    | zero => simpa using h1
    | succ i =>
      have := h2 i (by simpa using hi)
      simp only [this]
      rw [show t + 1 + i = t + (i + 1) by omega]
      rfl

/-! ## Blocks in order (R139) -/

/-- Bytes after the blocks play no part. -/
theorem compressBlocks_append : ∀ (k : Nat) (c : Chain) (a b : List Byte), 64 * k ≤ a.length →
    compressBlocks k c (a ++ b) = compressBlocks k c a
  | 0, _, _, _, _ => rfl
  | k + 1, c, a, b, h => by
    rw [compressBlocks, compressBlocks, List.take_append_of_le_length (by omega),
      List.drop_append_of_le_length (by omega)]
    exact compressBlocks_append k _ _ _ (by rw [List.length_drop]; omega)

/-- The last of `k + 1` blocks. -/
theorem compressBlocks_succ : ∀ (k : Nat) (c : Chain) (a : List Byte),
    compressBlocks (k + 1) c a = compress (compressBlocks k c a) ((a.drop (64 * k)).take 64)
  | 0, _, _ => rfl
  | k + 1, c, a => by
    rw [compressBlocks, compressBlocks_succ k, compressBlocks, List.drop_drop, Nat.mul_add, Nat.add_comm]

/-! ## The append of bytes (R142) -/

/-- Bytes that do not fill the block are only held. -/
theorem foldl_appendByte_held : ∀ (bs : List Byte) (s : State), (s.mbuf ++ bs).length < 64 →
    bs.foldl appendByte s = { s with mbuf := s.mbuf ++ bs, len := s.len + BitVec.ofNat 64 (8 * bs.length) }
  | [], s, _ => by simp
  | x :: bs, s, h => by
    simp only [List.length_append, List.length_cons] at h
    have e : appendByte s x = { s with mbuf := s.mbuf ++ [x], len := s.len + 8 } := by rw [appendByte, if_neg (by omega)]
    rw [List.foldl_cons, e, foldl_appendByte_held bs _ (by simp; omega)]
    simp only [List.append_assoc, List.singleton_append, State.mk.injEq, true_and, and_true, List.length_cons]
    rw [BitVec.add_assoc]
    congr 1
    apply BitVec.eq_of_toNat_eq
    simp
    omega

/-- Absorbing one more byte. -/
theorem Absorbed.append {msg : List Byte} {s : State} (x : Byte) (h : Absorbed msg s)
    (hl : 8 * (msg.length + 1) < 2 ^ 64) : Absorbed (msg ++ [x]) (appendByte s x) := by
  obtain ⟨h1, h2, h3⟩ := h
  have hb : s.mbuf.length = msg.length % 64 := by rw [h2, List.length_drop]; omega
  have hlen : (s.len + 8).toNat = 8 * (msg ++ [x]).length := by
    rw [BitVec.toNat_add, h3, List.length_append, List.length_singleton]
    simp
    omega
  have hd : s.mbuf ++ [x] = (msg ++ [x]).drop (64 * (msg.length / 64)) := by
    rw [h2, List.drop_append_of_le_length (by omega)]
  rw [appendByte]
  split
  · have e : (msg ++ [x]).length / 64 = msg.length / 64 + 1 := by
      rw [List.length_append, List.length_singleton]; omega
    refine ⟨?_, ?_, hlen⟩ <;> rw [e]
    · rw [compressBlocks_succ, compressBlocks_append _ _ _ _ (by omega), ← h1, ← hd,
        List.take_of_length_le (by rw [List.length_append, List.length_singleton]; omega)]
    · rw [List.drop_eq_nil_of_le (by rw [List.length_append, List.length_singleton]; omega)]
  · have e : (msg ++ [x]).length / 64 = msg.length / 64 := by
      rw [List.length_append, List.length_singleton]; omega
    refine ⟨?_, ?_, hlen⟩ <;> rw [e]
    · rw [compressBlocks_append _ _ _ _ (by omega), ← h1]
    · exact hd

/-- What `Absorbed` reads of the state. -/
theorem Absorbed.congr {msg : List Byte} {s t : State} (h : SameDigest s t) (a : Absorbed msg s) : Absorbed msg t := by
  obtain ⟨h1, h2, h3, -, -⟩ := h
  rw [Absorbed, h1, h2, h3]
  exact a

end Sys2Proof.Machine
end

