-- ==== Sys2Proof/Laws/PerInstr.lean ====
section
/-!
SUPPORT. Statements made of each instruction as syntax, one lemma per constructor.
-/

/-- The word of an instruction is legal at its port: it is in the table of 30_encoding.md R95. -/
def Sys2Proof.Laws.EncodedWordIsLegal.Statement (i : Sys2Proof.Instr) : Prop :=
  Sys2Proof.wellFormedWord (Sys2Proof.encode i).1 (Sys2Proof.encode i).2 = true

namespace Sys2Proof.Laws.EncodedWordIsLegal

open Sys2Proof

/-- A word is legal when one row of the table matches it. -/
theorem of_row {p : Port} {c : Word} (row : OpcodeRow) (h : row ∈ opcodeTable) (hp : row.port = p)
    (hc : c &&& row.mask = row.pattern) : wellFormedWord p c = true :=
  List.any_eq_true.2 ⟨row, h, by simp [OpcodeRow.matchesWord, hp, hc]⟩

theorem srst : Statement .srst := by unfold Statement; decide

theorem hstart : Statement .hstart := by unfold Statement; decide

theorem hpush1 (b0 : Byte) : Statement (.hpush1 b0) := by
  refine of_row ⟨"HPUSH1", .cmd, 0xFFFFFF00, 0x11000000⟩ (by decide) rfl ?_
  apply BitVec.eq_of_getLsbD_eq
  intro j hj
  simp only [encode, BitVec.getLsbD_and, BitVec.getLsbD_append]
  interval_cases j <;> simp

theorem hpush2 (b0 b1 : Byte) : Statement (.hpush2 b0 b1) := by
  refine of_row ⟨"HPUSH2", .cmd, 0xFFFF0000, 0x12000000⟩ (by decide) rfl ?_
  apply BitVec.eq_of_getLsbD_eq
  intro j hj
  simp only [encode, BitVec.getLsbD_and, BitVec.getLsbD_append]
  interval_cases j <;> simp

theorem hpush3 (b0 b1 b2 : Byte) : Statement (.hpush3 b0 b1 b2) := by
  refine of_row ⟨"HPUSH3", .cmd, 0xFF000000, 0x13000000⟩ (by decide) rfl ?_
  apply BitVec.eq_of_getLsbD_eq
  intro j hj
  simp only [encode, BitVec.getLsbD_and, BitVec.getLsbD_append]
  interval_cases j <;> simp

theorem hfinal : Statement .hfinal := by unfold Statement; decide

theorem hpush4 (b0 b1 b2 b3 : Byte) : Statement (.hpush4 b0 b1 b2 b3) :=
  of_row ⟨"HPUSH4", .msgw, 0x00000000, 0x00000000⟩ (by decide) rfl (BitVec.and_zero)

theorem modinv (neg : Bool) : Statement (.modinv neg) := by unfold Statement; cases neg <;> decide

theorem modred (neg : Bool) : Statement (.modred neg) := by unfold Statement; cases neg <;> decide

theorem keygen : Statement .keygen := by unfold Statement; decide

theorem keyload : Statement .keyload := by unfold Statement; decide

theorem sign : Statement .sign := by unfold Statement; decide

theorem verify : Statement .verify := by unfold Statement; decide

end Sys2Proof.Laws.EncodedWordIsLegal
end

