-- ==== Sys2Proof/Laws/Step.lean ====
section
/-!
SUPPORT. Everything a step can do.
-/
namespace Sys2Proof.Machine

/-- Every command ends: no meaning faults or refuses (00_scope.md R13). -/
theorem exec_is_next (i : Instr) (s : State) : ∃ t, exec i s = .next t := by
  cases i <;> exact ⟨_, rfl⟩

theorem execIllegal_is_next (c : Word) (s : State) : ∃ t, execIllegal c s = .next t := ⟨_, rfl⟩

theorem startCommand_is_next (port : Port) (c : Word) (s : State) : ∃ t, startCommand port c s = .next t := by
  cases port with
  | msgw => exact exec_is_next (decodeMsgw c) s
  | cmd =>
    rw [startCommand, executeCommand]
    cases decodeCmd c with
    | ok i => exact exec_is_next _ _
    | error e => exact execIllegal_is_next _ _

/-- Only draws and their count tell the state after some draws. -/
theorem resetEvent_afterDraws (k : Nat) (s : State) :
    resetEvent (afterDraws k s) = { State.resetWith s.cfg with
      draws := s.draws.drop k, drawCount := s.drawCount + k, pending := s.pending, resp := none } := rfl

/-- A step on the reset event while a command runs: `u` is where the command would have ended. -/
theorem step_resetDuring {s : State} {rest : List HostEvent} {port : Port} {c : Word} {taken : Nat}
    (h : s.pending = .resetDuring port c taken :: rest) :
    ∃ u, startCommand port c { s with pending := rest, resp := some .okWrite } = .next u
      ∧ step s = .next (resetEvent (afterDraws (min taken (u.drawCount - s.drawCount)) { s with pending := rest })) := by
  obtain ⟨u, hu⟩ := startCommand_is_next port c { s with pending := rest, resp := some .okWrite }
  exact ⟨u, hu, by simp only [step, h, stepAbandoned, respond, hu, abandonCommand]⟩

/-- The inversion of the step: idle, the reset event (after some draws, where it falls in a command), an
access outside the block, a command of either port, an illegal word, or a register access. -/
theorem step_cases {s t : State} (h : step s = .next t) :
    (s.pending = [] ∧ t = s)
      ∨ (∃ e rest, s.pending = e :: rest ∧ e.isReset = true
          ∧ ∃ k, t = resetEvent (afterDraws k { s with pending := rest }))
      ∨ ∃ acc rest, s.pending = .access acc :: rest
        ∧ ((busTarget s.cfg acc = .outside ∧ t = { s with pending := rest, resp := none })
          ∨ (∃ p c i, acc = commandWrite s.cfg p c ∧ decode p c = .ok i
              ∧ exec i { s with pending := rest, resp := some .okWrite } = .next t)
          ∨ (∃ c e, acc = commandWrite s.cfg .cmd c ∧ decode .cmd c = .error e
              ∧ execIllegal c { s with pending := rest, resp := some .okWrite } = .next t)
          ∨ (∃ off, busTarget s.cfg acc = .register off
              ∧ t = busRegister off acc { s with pending := rest })) := by
  cases hp : s.pending with
  | nil => rw [step, hp] at h; cases h; exact .inl ⟨rfl, rfl⟩
  | cons ev rest =>
    cases ev with
    | reset => rw [step, hp] at h; cases h; exact .inr (.inl ⟨_, rest, rfl, rfl, 0, by rw [afterDraws_zero]⟩)
    | resetDuring port c taken =>
      obtain ⟨u, -, hs⟩ := step_resetDuring hp
      rw [hs] at h
      cases h
      exact .inr (.inl ⟨_, rest, rfl, rfl, _, rfl⟩)
    | access acc =>
      rw [step, hp] at h
      refine .inr (.inr ⟨acc, rest, rfl, ?_⟩)
      dsimp only at h
      rw [stepAccess] at h
      dsimp only at h
      cases hb : busTarget s.cfg acc with
      | outside => rw [hb] at h; cases h; exact .inl ⟨rfl, rfl⟩
      | command c =>
        rw [hb] at h
        dsimp only at h
        rw [startCommand, executeCommand] at h
        cases hd : decodeCmd c with
        | ok i => rw [hd] at h; exact .inr (.inl ⟨.cmd, c, i, busTarget_command hb, hd, h⟩)
        | error e => rw [hd] at h; exact .inr (.inr (.inl ⟨c, e, busTarget_command hb, hd, h⟩))
      | message c =>
        rw [hb] at h
        exact .inr (.inl ⟨.msgw, c, decodeMsgw c, busTarget_message hb, rfl, h⟩)
      | register off => rw [hb] at h; cases h; exact .inr (.inr (.inr ⟨off, rfl, rfl⟩))

/-- With nothing pending the core is idle. -/
theorem step_idle {s : State} (h : s.pending = []) : step s = .next s := by simp only [step, h]

/-- A step on the reset event. -/
theorem step_reset {s : State} {rest : List HostEvent} (h : s.pending = .reset :: rest) :
    step s = .next (resetEvent { s with pending := rest }) := by simp only [step, h]

/-- A step on an access. -/
theorem step_access {s : State} {rest : List HostEvent} {acc : BusAccess} (h : s.pending = .access acc :: rest) :
    step s = stepAccess acc { s with pending := rest } := by
  simp only [step, h]

/-- A step on the write of a word to CMD. -/
theorem step_cmdWrite {s : State} {rest : List HostEvent} {c : Word}
    (h : s.pending = .access (commandWrite s.cfg .cmd c) :: rest) :
    step s = executeCommand c { s with pending := rest, resp := some .okWrite } := by
  simp only [step_access h, stepAccess, busTarget_commandWrite, respond, startCommand]

/-- A step on the write of a word to MSGW. -/
theorem step_msgwWrite {s : State} {rest : List HostEvent} {c : Word}
    (h : s.pending = .access (commandWrite s.cfg .msgw c) :: rest) :
    step s = exec (decodeMsgw c) { s with pending := rest, resp := some .okWrite } := by
  simp only [step_access h, stepAccess, busTarget_commandWrite, respond, startCommand]

/-- A step on an access that is neither outside the block nor the start of a command. -/
theorem step_register {s : State} {rest : List HostEvent} {acc : BusAccess} {off : Nat}
    (h : s.pending = .access acc :: rest) (ht : busTarget s.cfg acc = .register off) :
    step s = .next (busRegister off acc { s with pending := rest }) := by
  simp only [step_access h, stepAccess, ht]

/-- A step on the host's read of a word. -/
theorem step_readAt {s : State} {rest : List HostEvent} {off : Nat} (ho : off < 4096)
    (h : s.pending = .access (readAt s.cfg off) :: rest) :
    step s = .next (match busRead s off with
      | some v => { s with pending := rest, resp := some (.okRead v) }
      | none => { s with pending := rest, resp := some .busErr }) := by
  rw [step_register (off := off) h (by rw [busTarget_offset s.cfg (off := off) rfl ho]; rfl)]
  have e : busRead { s with pending := rest } off = busRead s off := rfl
  simp only [busRegister, readAt, e]
  cases busRead s off <;> rfl

/-- A step on the host's write of a word that starts no command. -/
theorem step_writeAt {s : State} {rest : List HostEvent} {off : Nat} {v : Word} (ho : off < 4096)
    (h0 : off ≠ 0x000) (h1 : off ≠ 0x00C) (h : s.pending = .access (writeAt s.cfg off v) :: rest) :
    step s = .next (match busWrite { s with pending := rest } off v with
      | some s' => { s' with resp := some .okWrite }
      | none => { s with pending := rest, resp := some .busErr }) := by
  rw [step_register (off := off) h (by
    rw [busTarget_offset s.cfg (off := off) rfl ho]; simp only [writeAt, if_neg h0, if_neg h1])]
  simp only [busRegister, writeAt]
  cases busWrite { s with pending := rest } off v <;> rfl

/-! ## Runs -/

/-- The first of `k + 1` steps. -/
theorem stepMany_cons (k : Nat) {s t : State} (h : step s = .next t) : stepMany (k + 1) s = stepMany k t := by
  rw [stepMany, h]

/-- The last of `k + 1` steps. -/
theorem stepMany_snoc {k : Nat} {s t u : State} (h : stepMany k s = .next t) (h' : step t = .next u) :
    stepMany (k + 1) s = .next u := by
  induction k generalizing s with
  | zero => cases h; exact stepMany_cons 0 h'
  | succ k ih =>
    cases hs : step s with
    | next s' => rw [stepMany_cons k hs] at h; rw [stepMany_cons (k + 1) hs]; exact ih h
    | fault f => cases f
    | refused r =>
      rw [stepMany, hs] at h
      cases h

/-- The first command of a list. -/
theorem execAll_cons {i : Instr} {s t : State} (is : List Instr) (h : exec i s = .next t) :
    execAll (i :: is) s = execAll is t := by rw [execAll, h]

/-- A list of commands and then another. -/
theorem execAll_append {xs ys : List Instr} {s t : State} (h : execAll xs s = .next t) :
    execAll (xs ++ ys) s = execAll ys t := by
  induction xs generalizing s with
  | nil => cases h; rfl
  | cons i xs ih =>
    obtain ⟨u, hu⟩ := exec_is_next i s
    rw [execAll_cons _ hu] at h
    rw [List.cons_append, execAll_cons _ hu, ih h]

end Sys2Proof.Machine
end

