-- ==== Sys2Proof/Tests/Slice0.lean ====
section
/-!
SUPPORT. Tests. Expected values are those of spec/95_test_vectors.md (each docstring names the vector)
or hand calculations from the rules. Then one witness for the hypotheses of each obligation.
-/
namespace Sys2Proof.Tests

open Sys2Proof.Machine

/-! ## Fixtures -/

/-- A field of the state after a meaning. -/
def after {α : Type} (r : Result) (f : State → α) : Option α :=
  match r with
  | .next t => some (f t)
  | .fault _ => none
  | .refused _ => none

/-- The tables of a cyclic group: the powers modulo `q` of a generator of order `n`. -/
def powerGroup (q gen n : Nat) (cid : Word) (isOn : Nat → Bool) : Grp :=
  let members := (List.range n).map fun k => gen ^ k % q
  let el : Nat → GroupElement := fun x => ⟨x, 0, cid⟩
  { order := n
    base := el gen
    add := members.flatMap fun x => members.map fun y => ((el x, el y), el (x * y % q))
    mul := (List.range n).flatMap fun k => members.map fun x => ((k, el x), el (x ^ k % q))
    onCurve := (List.range q).map fun x => (el x, isOn x) }

/-- Fixture F1 of 95_test_vectors.md: the subgroup of order 11 modulo 23, with NBITS = 32, RETRY_CAP = 4. -/
def f1 : Params := { nw := 1, retryCap := 4, base := 0, grp := powerGroup 23 2 11 1 fun x => x ^ 11 % 23 == 1 }

/-- Fixture F4 of 95_test_vectors.md: a group of composite order 12. -/
def f4 : Params := { nw := 1, retryCap := 4, base := 0, grp := powerGroup 13 2 12 4 fun x => x != 0 }

/-- A collaborator whose order is out of range (vector G28). -/
def badOrder (n : Int) : Params :=
  { nw := 1, retryCap := 4, base := 0
    grp := { order := n, base := ⟨2, 0, 1⟩, add := [], mul := [], onCurve := [] } }

/-- The digest of "abc" (vector H2): `h mod 11 = 9`, `h mod 12 = 5`. -/
def abc : Chain := ⟨0xA9993E36, 0x4706816A, 0xBA3E2571, 0x7850C26C, 0x9CD0D89D⟩

/-- Reset with fixture F1. -/
def s0 : State := State.resetWith f1

/-- F1 with private key 7 and a held digest of "abc" (vectors G1, G2). -/
def signer (draws : List (Option Int)) : State :=
  { s0 with regD := 7, regQX := 13, qcid := 1, keyst := true, h := abc, len := 24, dvalid := true, draws := draws }

/-- F1 with a signature to verify (vector G8). -/
def verifier (r sv : Nat) : State := { signer [] with regR := r, regS := sv }

/-- F4 with private key 5 and the digest of "abc" (vector G25). -/
def signer4 (draws : List (Option Int)) : State :=
  { State.resetWith f4 with
    regD := 5, regQX := 6, qcid := 4, keyst := true, h := abc, len := 24, dvalid := true, draws := draws }

/-- An open hash call that holds `bytes` with the bit length `len`. -/
def opened (bytes : List Byte) (len : BitVec 64) : State := { s0 with hashing := true, mbuf := bytes, len := len }

/-- The host's next event. -/
def sends (e : HostEvent) (s : State) : State := { s with pending := [e] }

/-- The host's next transaction. -/
def asks (acc : BusAccess) (s : State) : State := sends (.access acc) s

/-! ## Well-formed words (30_encoding.md R96; the list of 95_test_vectors.md section 5) -/

/-- A non-zero must-be-zero field of format Z. -/
theorem test_wellFormed_formatZ : [0x10000001, 0x01000001, 0x14000100, 0x30800000].all
    (fun c => !wellFormedWord .cmd c) = true := by decide

/-- Bits above the byte fields of formats B1 and B2. -/
theorem test_wellFormed_formatB : [0x11000100, 0x12010000].all (fun c => !wellFormedWord .cmd c) = true := by
  decide

/-- Bits between the opcode and the sign of format S. -/
theorem test_wellFormed_formatS : [0x20000002, 0x21000003].all (fun c => !wellFormedWord .cmd c) = true := by
  decide

/-- Opcode bytes the table does not list. -/
theorem test_wellFormed_opcode :
    [0x00000000, 0xFFFFFFFF, 0x15000000, 0x1F000000, 0x22000000, 0x34000000, 0x02000000, 0x00000001].all
      (fun c => !wellFormedWord .cmd c) = true := by decide

/-- Format B3 has no zero field, and no word of MSGW is illegal. -/
theorem test_wellFormed_always :
    wellFormedWord .cmd 0x13FFFFFF = true ∧ wellFormedWord .msgw 0 = true ∧ wellFormedWord .msgw 0xFFFFFFFF = true := by
  decide

/-! ## Decoding: the words of 95_test_vectors.md section 5, and for MSGW vector C8 -/

theorem test_decode_control : decode .cmd 0x01000000 = .ok .srst := by decide

theorem test_decode_hash :
    decode .cmd 0x10000000 = .ok .hstart ∧ decode .cmd 0x11000031 = .ok (.hpush1 0x31)
      ∧ decode .cmd 0x1200ABCD = .ok (.hpush2 0xAB 0xCD) ∧ decode .cmd 0x13ABCDEF = .ok (.hpush3 0xAB 0xCD 0xEF)
      ∧ decode .cmd 0x14000000 = .ok .hfinal ∧ decode .msgw 0x61626364 = .ok (.hpush4 0x61 0x62 0x63 0x64) := by
  decide

theorem test_decode_modarith :
    decode .cmd 0x20000000 = .ok (.modinv false) ∧ decode .cmd 0x20000001 = .ok (.modinv true)
      ∧ decode .cmd 0x21000000 = .ok (.modred false) ∧ decode .cmd 0x21000001 = .ok (.modred true) := by decide

theorem test_decode_signature :
    decode .cmd 0x30000000 = .ok .keygen ∧ decode .cmd 0x31000000 = .ok .keyload
      ∧ decode .cmd 0x32000000 = .ok .sign ∧ decode .cmd 0x33000000 = .ok .verify := by decide

/-- The two kinds of illegal word. -/
theorem test_decode_illegal :
    decode .cmd 0x10000001 = .error .nonZeroField ∧ decode .cmd 0x15000000 = .error .unassignedOpcode := by decide

/-- A word of a row's pattern is that row's instruction, and a word of no CMD row is HPUSH4 (log entry 9). -/
theorem test_decode_table :
    decodeTableWord 32 0x33000000 = some .verify
      ∧ decodeTableWord 32 0x00000000 = some (.hpush4 0x00 0x00 0x00 0x00)
      ∧ decodeTableWord 32 0xFFFFFFFF = some (.hpush4 0xFF 0xFF 0xFF 0xFF) := by decide

/-! ## The bus (95_test_vectors.md section 6) -/

/-- NBITS = 64: the value of vector section 6, `WR 0x084, 0xDEADBEEF`. -/
theorem test_bus_write_word :
    after (step (asks (writeAt f1 0x084 0xDEADBEEF) { s0 with cfg := { f1 with nw := 2 } }))
      (fun t => (t.regA, t.resp)) = some (0xDEADBEEF00000000, some .okWrite) := by decide

/-- Slot 2 of A with NW = 2, a write-only port, a reserved offset, an unaligned offset. -/
theorem test_bus_refused :
    [0x088, 0x000, 0x030, 0x002].map
      (fun off => after (step (asks (readAt f1 off) { s0 with cfg := { f1 with nw := 2 } })) (fun t => t.resp))
      = List.replicate 4 (some (some .busErr)) := by decide

/-- A byte access, and a write to a read-only register. -/
theorem test_bus_size_and_direction :
    after (step (asks { addr := 0x004, size := .b8, kind := .read } s0)) (fun t => t.resp) = some (some .busErr)
      ∧ after (step (asks (writeAt f1 0x180 0) s0)) (fun t => t.resp) = some (some .busErr) := by decide

/-- Vectors `WR 0x280, 5` and `WR 0x400, 5` with KEYST = 1. -/
theorem test_bus_key_write :
    after (step (asks (writeAt f1 0x280 5) (signer []))) (fun t => (t.regD, t.keyst)) = some (5, false)
      ∧ after (step (asks (writeAt f1 0x400 5) (signer []))) (fun t => (t.regR, t.keyst)) = some (5, true) := by
  decide

/-- CONFIG for NBITS = 64 and RETRY_CAP = 4, and H4 after reset. -/
theorem test_bus_reads :
    after (step (asks (readAt f1 0x008) { s0 with cfg := { f1 with nw := 2 } })) (fun t => t.resp)
        = some (some (.okRead 0x00000402))
      ∧ after (step (asks (readAt f1 0x020) s0)) (fun t => t.resp) = some (some (.okRead 0xC3D2E1F0)) := by decide

/-! ## Control -/

/-- 43_control.md R202: SRST wipes the key and leaves STATUS = 0x00010000. -/
theorem test_srst : after (exec .srst (signer [])) (fun t => (statusWord t, t.regD, t.h)) = some (0x00010000, 0, hInit) := by
  decide

/-- 43_control.md R203: the zero word, and HSTART with a non-zero zero field. -/
theorem test_illegal :
    after (step (asks (writeAt f1 0x000 0x00000000) s0)) statusWord = some 0x00000680
      ∧ after (step (asks (writeAt f1 0x000 0x10000001) s0)) statusWord = some 0x00100680 := by decide

/-! ## The hash -/

/-- Vectors B1 to B4. -/
theorem test_rotl32 :
    rotl32 0x80000000 1 = 0x00000001 ∧ rotl32 0x00000001 30 = 0x40000000 ∧ rotl32 0xFFFFFFFF 5 = 0xFFFFFFFF
      ∧ rotl32 0x80000001 5 = 0x00000030 := by decide

/-- Vectors B7 and B9. -/
theorem test_roundF : [0, 19, 20, 39, 40, 59, 60, 79].map (fun t => roundF t 0xFFFFFFFF 0x12345678 0x9ABCDEF0)
    = [0x12345678, 0x12345678, 0x77777777, 0x77777777, 0x9ABCDEF8, 0x9ABCDEF8, 0x77777777, 0x77777777] := by decide

/-- The schedule of "abc" (95_test_vectors.md section 3.3). -/
theorem test_schedule : [16, 17, 18, 19, 79].map ((schedule (pad [0x61, 0x62, 0x63])).getD · 0)
    = [0xC2C4C700, 0x00000000, 0x00000030, 0x85898E01, 0x822E0879] := by decide +kernel

/-- Vector K2: every addition wraps. -/
theorem test_compress : compress ⟨0, 0, 0, 0, 0⟩ (List.replicate 64 0xFF)
    = ⟨0xD21FA547, 0x30867DE7, 0x4C374871, 0xC1865E49, 0x1ECE2C16⟩ := by decide +kernel

/-- Vectors H1 and H7: the empty message, and a padding of two blocks. -/
theorem test_hash :
    hashMsg [] = ⟨0xDA39A3EE, 0x5E6B4B0D, 0x3255BFEF, 0x95601890, 0xAFD80709⟩
      ∧ hashMsg (List.replicate 56 0x61) = ⟨0xC2DB330F, 0x6083854C, 0x99D4B5BF, 0xB6E8F29F, 0x201BE699⟩ := by
  decide +kernel

/-- Vector C9: HSTART abandons an open call; it also discards a digest. -/
theorem test_hstart :
    after (exec .hstart (opened [0x78, 0x78, 0x78] 24)) (fun t => (statusWord t, t.mbuf, t.len)) = some (0x00100001, [], 0)
      ∧ after (exec .hstart (signer [])) (fun t => (statusWord t, t.h)) = some (0x00100005, hInit) := by decide

/-- Vector C12: one byte up to LEN = 2^64 - 8. Vector C11: not one more. -/
theorem test_hpush1 :
    after (exec (.hpush1 0x41) (opened (List.replicate 62 0) 0xFFFFFFFFFFFFFFF0)) (fun t => (statusWord t, t.len))
        = some (0x00110001, 0xFFFFFFFFFFFFFFF8)
      ∧ after (exec (.hpush1 0x41) (opened (List.replicate 63 0) 0xFFFFFFFFFFFFFFF8)) (fun t => (statusWord t, t.len))
        = some (0x00110A81, 0xFFFFFFFFFFFFFFF8) := by decide

/-- Program P2: HPUSH2 '1', '2' in an open call keeps the order of the bytes. -/
theorem test_hpush2 : after (exec (.hpush2 0x31 0x32) (opened [] 512)) (fun t => (statusWord t, t.mbuf, t.len))
    = some (0x00120001, [0x31, 0x32], 528) := by decide

/-- Vector C2. -/
theorem test_hpush3 : after (exec (.hpush3 0x61 0x62 0x63) (opened [] 0)) (fun t => (statusWord t, t.mbuf, t.len))
    = some (0x00130001, [0x61, 0x62, 0x63], 24) := by decide

/-- Vector C10: the sixteenth word fills the block. -/
theorem test_hpush4_full_block :
    after (exec (.hpush4 0x61 0x61 0x61 0x61) (opened (List.replicate 60 0x61) 480))
        (fun t => (statusWord t, t.h, t.mbuf, t.len))
      = some (0x001F0001, ⟨0xDA4968EB, 0x2E377C1F, 0x884E8F52, 0x83524BEB, 0xE74EBDBD⟩, [], 512) := by
  decide +kernel

/-- Vector C6: no call is open. -/
theorem test_hpush4_sequence : after (exec (.hpush4 0x31 0x32 0x33 0x34) s0) statusWord = some 0x001F0780 := by decide

/-- Vector C3. -/
theorem test_hfinal : after (exec .hfinal (opened [0x61, 0x62, 0x63] 24)) (fun t => (statusWord t, t.h, t.len))
    = some (0x00140002, abc, 24) := by decide +kernel

/-- Vector C4: a second HFINAL keeps the digest. -/
theorem test_hfinal_sequence : after (exec .hfinal { s0 with h := abc, dvalid := true }) (fun t => (statusWord t, t.h))
    = some (0x00140782, abc) := by decide

/-! ## Modular arithmetic -/

/-- Vectors M1 to M8, M13, M14. -/
theorem test_modInverse :
    modInverse 3 7 = .ok 5 ∧ modInverse (-3) 7 = .ok 2 ∧ modInverse 10 7 = .ok 5
      ∧ modInverse 4 8 = .error .noInverseExists ∧ modInverse 0 7 = .error .divisionByZero
      ∧ modInverse (-7) 7 = .error .noInverseExists ∧ modInverse 0 1 = .error .invalidModulus
      ∧ modInverse 0 0 = .error .invalidModulus ∧ modInverse (2 ^ 31) (2 ^ 32 - 1) = .ok 2
      ∧ modInverse (2 ^ 32 - 1) (2 ^ 32) = .ok 4294967295 := by decide

/-- Vectors A1 and A2. -/
theorem test_modinv :
    after (exec (.modinv false) { s0 with regA := 17, regM := 3120 }) (fun t => (t.regT, statusWord t))
        = some (0x00000AC1, 0x00200000)
      ∧ after (exec (.modinv true) { s0 with regA := 17, regM := 3120 }) (fun t => (t.regT, statusWord t))
        = some (0x0000016F, 0x00200000) := by decide

/-- Vectors A3, A4 and A5: T keeps its value. -/
theorem test_modinv_errors :
    [(4, 8), (0, 8), (0, 0)].map
        (fun am => after (exec (.modinv false) { s0 with regA := am.1, regM := am.2, regT := 0x16F })
          (fun t => (t.regT, statusWord t)))
      = [some (0x16F, 0x00200280), some (0x16F, 0x00200380), some (0x16F, 0x00200180)] := by decide

/-- Program P3, `Mod(-10, 7)`, and vector A7, m = 1. -/
theorem test_modred :
    after (exec (.modred true) { s0 with regA := 10, regM := 7 }) (fun t => (t.regT, statusWord t))
        = some (4, 0x00210000)
      ∧ after (exec (.modred false) { s0 with regA := 5, regM := 1, regT := 9 }) (fun t => (t.regT, statusWord t))
        = some (0, 0x00210000) := by decide

/-- 40_modarith.md R116: M = 0. -/
theorem test_modred_zero : after (exec (.modred false) { s0 with regA := 5, regT := 9 }) (fun t => (t.regT, statusWord t))
    = some (9, 0x00210180) := by decide

/-! ## Signatures -/

/-- Vector G1. -/
theorem test_keygen : after (exec .keygen { s0 with draws := [some 7] })
      (fun t => (t.regN, t.regD, t.regQX, t.regQY, t.qcid, statusWord t))
    = some (11, 7, 13, 0, 1, 0x00300004) := by decide +kernel

/-- Vectors G17 and G28: a draw out of range writes N, a bad order writes nothing. -/
theorem test_keygen_errors :
    after (exec .keygen { s0 with draws := [some 11] }) (fun t => (t.regN, t.regD, statusWord t)) = some (11, 0, 0x00300580)
      ∧ after (exec .keygen (State.resetWith (badOrder 1))) (fun t => (t.regN, statusWord t)) = some (0, 0x00300180)
      ∧ after (exec .keygen (State.resetWith (badOrder (2 ^ 32)))) (fun t => (t.regN, statusWord t))
        = some (0, 0x00300180) := by decide +kernel

/-- 42_signature.md R167, its example: 9 is in the subgroup, 5 is not. -/
theorem test_keyload :
    after (exec .keyload { s0 with regQX := 9, qcid := 1 }) statusWord = some 0x00310004
      ∧ after (exec .keyload { s0 with regQX := 5, qcid := 1 }) statusWord = some 0x00310980 := by decide +kernel

/-- Vectors G2 and G5: a degenerate draw is retried. -/
theorem test_sign :
    after (exec .sign (signer [some 3])) (fun t => (t.regR, t.regS, t.lastr, statusWord t)) = some (8, 7, 8, 0x00320006)
      ∧ after (exec .sign (signer [some 4, some 3, some 9])) (fun t => (t.regR, t.regS, t.draws))
        = some (8, 7, [some 9]) := by decide +kernel

/-- Vectors G4 (RREP), G6 (exhaustion), G7 (a draw fails), G16 (D = 0) and G25 (composite order). -/
theorem test_sign_flags :
    after (exec .sign { signer [some 3] with lastr := 8, lastrv := true }) statusWord = some 0x00320026
      ∧ after (exec .sign (signer [some 4, some 4, some 4, some 4])) (fun t => (t.draws, statusWord t))
        = some ([], 0x00320486)
      ∧ after (exec .sign (signer [none])) statusWord = some 0x00320586
      ∧ after (exec .sign { signer [] with regD := 0 }) statusWord = some 0x00320886
      ∧ after (exec .sign (signer4 [some 4])) (fun t => (t.regN, t.regR, statusWord t)) = some (12, 0, 0x00320286) := by
  decide +kernel

/-- Vector G8, and G27 with a composite order. -/
theorem test_verify :
    [(0, 7), (8, 11), (8, 6), (8, 7)].map (fun rs => after (exec .verify (verifier rs.1 rs.2)) statusWord)
        = [some 0x00330016, some 0x00330016, some 0x00330006, some 0x0033000E]
      ∧ after (exec .verify { signer4 [] with regR := 6, regS := 6 }) statusWord = some 0x00330286 := by decide +kernel

/-- Vector C13: a call is open, so there is no digest. -/
theorem test_verify_sequence : after (exec .verify { opened [] 0 with keyst := true }) statusWord = some 0x00330785 := by
  decide

/-- 70_reset_and_hazards.md R240, R241, on vector G5: a reset during a SIGN of two draws, when RNG has
answered one and when it has answered all it is asked. The key is gone, and the draws stay taken. -/
theorem test_reset_during_sign :
    after (step (sends (.resetDuring .cmd 0x32000000 1) (signer [some 4, some 3, some 9])))
          (fun t => (t.regD, t.regR, t.draws, statusWord t)) = some (0, 0, [some 3, some 9], 0)
      ∧ after (step (sends (.resetDuring .cmd 0x32000000 5) (signer [some 4, some 3, some 9])))
          (fun t => (t.draws, t.drawCount)) = some ([some 9], 2) := by decide +kernel

/-! ## Witnesses: for each obligation with hypotheses, concrete values that meet them all -/

/-- A command word waiting at either port. -/
theorem witness_StepRunsTheDecodedCommand :
    ∃ (s₁ s₂ : State) (rest : List HostEvent) (c : Word) (i j : Instr),
      s₁.pending = .access (commandWrite s₁.cfg .cmd c) :: rest ∧ decode .cmd c = .ok i
        ∧ s₂.pending = .access (commandWrite s₂.cfg .msgw c) :: rest ∧ decode .msgw c = .ok j :=
  ⟨asks (commandWrite f1 .cmd 0x14000000) s0, asks (commandWrite f1 .msgw 0x14000000) s0, [], 0x14000000, .hfinal,
    .hpush4 0x14 0 0 0, rfl, rfl, rfl, rfl⟩

theorem witness_EncodeOfDecodeIsTheWord :
    decode .cmd 0x1200ABCD = .ok (.hpush2 0xAB 0xCD) ∧ decode .msgw 0x10000001 = .ok (.hpush4 0x10 0 0 1) := by decide

/-- A row and a word it matches; a row and a word it does not. -/
theorem witness_TableRowsAndDecoderAgree :
    ∃ row ∈ opcodeTable, row.matchesWord .cmd 0x20000001 = true ∧ row.matchesWord .cmd 0x20000002 = false
      ∧ row.matchesWord .msgw 0x20000001 = false := by decide

theorem witness_PlacedTableWordRunsNext :
    decodeTableWord 32 0x11000031 = some (.hpush1 0x31) ∧ decodeTableWord 32 0 = some (.hpush4 0 0 0 0) := by decide

theorem witness_IllegalWordOnlyReportsIllegalCommand :
    ∃ (s : State) (rest : List HostEvent) (c : Word),
      s.pending = .access (commandWrite s.cfg .cmd c) :: rest ∧ wellFormedWord .cmd c = false :=
  ⟨asks (commandWrite f1 .cmd 0x12010000) s0, [], 0x12010000, rfl, by decide⟩

theorem witness_SoftResetIsResetExceptLastop :
    ∃ (s : State) (rest : List HostEvent), s.keyst = true ∧ s.pending = .reset :: rest :=
  ⟨sends .reset (signer []), [], rfl, rfl⟩

theorem witness_ResetValues : ∃ (p : Params) (s : State), s = State.resetWith p ∧ p.legal = true :=
  ⟨f1, s0, rfl, by decide⟩

theorem witness_EventsAreTakenInOrder :
    ∃ (s t : State) (e : HostEvent) (rest : List HostEvent), s.pending = [] ∧ t.pending = e :: rest ∧ rest ≠ [] :=
  ⟨s0, { s0 with pending := [.reset, .reset] }, .reset, [.reset], rfl, rfl, by decide⟩

/-- Each clause at the boundaries of the block and of the windows, with BASE = 4096 and NW = 2: just
outside the block, the first and last readable and writable offsets, and refused ones next to them. -/
theorem witness_AccessOutcomeByTarget :
    ∃ p : Params, p.legal = true
      ∧ (4095 < p.base ∧ p.base + 4096 ≤ 8192)
      ∧ (readableOffset p.nw 0x004 ∧ readableOffset p.nw 0x010 ∧ readableOffset p.nw 0x02C ∧ readableOffset p.nw 0x080
          ∧ readableOffset p.nw 0x484)
      ∧ (writableOffset p.nw 0x000 ∧ writableOffset p.nw 0x00C ∧ writableOffset p.nw 0x02C ∧ writableOffset p.nw 0x080
          ∧ writableOffset p.nw 0x484)
      ∧ (¬ readableOffset p.nw 0x000 ∧ ¬ readableOffset p.nw 0x00C ∧ ¬ readableOffset p.nw 0x030
          ∧ ¬ readableOffset p.nw 0x088 ∧ ¬ readableOffset p.nw 0xFFC ∧ ¬ readableOffset p.nw 0x005)
      ∧ (¬ writableOffset p.nw 0x004 ∧ ¬ writableOffset p.nw 0x028 ∧ ¬ writableOffset p.nw 0x180
          ∧ ¬ writableOffset p.nw 0x204 ∧ ¬ writableOffset p.nw 0x488 ∧ ¬ writableOffset p.nw 0x002) := by
  refine ⟨{ f1 with nw := 2, base := 4096 }, by decide, by decide, ?_, ?_, ?_, ?_⟩ <;>
    simp only [readableOffset, writableOffset] <;> decide

theorem witness_access_pending :
    ∃ (s : State) (acc : BusAccess) (rest : List HostEvent), s.cfg.legal = true ∧ s.pending = .access acc :: rest
      ∧ acc.size ≠ .b32 :=
  ⟨asks { addr := 0, size := .burst, kind := .read } s0, _, [], by decide, rfl, by decide⟩

/-- CONFIG of the example in 10_state.md R38. -/
theorem witness_ConfigReadsTheParameters :
    (∃ (s : State) (rest : List HostEvent), s.cfg.legal = true ∧ s.pending = .access (readAt s.cfg 0x008) :: rest
        ∧ s.cfg.nbits = 256 ∧ s.cfg.retryCap = 4)
      ∧ ∃ (s : State) (v : Word) (rest : List HostEvent), s.pending = .access (writeAt s.cfg 0x008 v) :: rest :=
  ⟨⟨asks (readAt { f1 with nw := 8 } 0x008) { s0 with cfg := { f1 with nw := 8 } }, [], by decide, rfl, by decide, rfl⟩,
    ⟨asks (writeAt f1 0x008 1) s0, 1, [], rfl⟩⟩

theorem witness_StatusReadsTheFlags :
    (∃ (s : State) (rest : List HostEvent), s.pending = .access (readAt s.cfg 0x004) :: rest ∧ s.keyst = true)
      ∧ ∃ (s : State) (v : Word) (rest : List HostEvent), s.pending = .access (writeAt s.cfg 0x004 v) :: rest :=
  ⟨⟨asks (readAt f1 0x004) (signer []), [], rfl, rfl⟩, ⟨asks (writeAt f1 0x004 1) s0, 1, [], rfl⟩⟩

/-- A read, a refused write, and an access that starts no command, with the longest length. -/
theorem witness_LengthReadsInTwoHalves :
    (∃ s t : State, t = { s with pending := .access (readAt s.cfg 0x028) :: [] } ∧ s.len.toNat = 2 ^ 64 - 8)
      ∧ (∃ (s : State) (v : Word) (rest : List HostEvent), s.pending = .access (writeAt s.cfg 0x028 v) :: rest)
      ∧ ∃ (s : State) (acc : BusAccess) (rest : List HostEvent), s.pending = .access acc :: rest
        ∧ ∀ (p : Port) (c : Word), acc ≠ commandWrite s.cfg p c := by
  refine ⟨⟨opened [] 0xFFFFFFFFFFFFFFF8, _, rfl, by decide⟩, ⟨asks (writeAt f1 0x028 1) s0, 1, [], rfl⟩,
    ⟨asks (writeAt f1 0x280 5) (signer []), writeAt f1 0x280 5, [], rfl, ?_⟩⟩
  intro p c h
  cases p
  · exact absurd (show (0x280 : Nat) = 0x000 from congrArg BusAccess.addr h) (by decide)
  · exact absurd (show (0x280 : Nat) = 0x00C from congrArg BusAccess.addr h) (by decide)

theorem witness_DigestReadsInFiveWords :
    ∃ s t : State, t = { s with pending := .access (readAt s.cfg (0x010 + 4 * 4)) :: [] } ∧ s.h = abc :=
  ⟨signer [], _, rfl, rfl⟩

/-- A legal state with a key, a digest, a signature and the greatest value of M. -/
theorem signer_legal : Legal { signer [] with regR := 8, regS := 7, regM := 2 ^ 32 - 1, lastr := 8, lastrv := true } where
  params := by decide
  widths := by intro x; cases x <;> decide
  lastr := by decide
  bcnt := by decide
  bcntOfLen := by decide
  lenBytes := by decide
  oneHashState := by decide
  errors := (rfl : (0 : Byte) = 0)
  results := by decide

theorem witness_BigRegisterReadsLeastWordFirst : ∃ s : State, Legal s ∧ 0 < s.cfg.nw := ⟨_, signer_legal, by decide⟩

/-- The last word of a register, for a register of the key and one that is not. -/
theorem witness_BigRegisterWriteChangesOneWord :
    ∃ (s t : State) (v : Word) (rest : List HostEvent), s.cfg.legal = true ∧ t.cfg.legal = true
      ∧ BigReg.d.writable = true ∧ BigReg.s.writable = true ∧ s.cfg.nw - 1 < s.cfg.nw ∧ t.cfg.nw - 1 < t.cfg.nw
      ∧ s.pending = .access (writeAt s.cfg (BigReg.d.base + 4 * (s.cfg.nw - 1)) v) :: rest
      ∧ t.pending = .access (writeAt t.cfg (BigReg.s.base + 4 * (t.cfg.nw - 1)) v) :: rest
      ∧ ∃ u : State, u.pending = .access (writeAt u.cfg 0x02C v) :: rest ∧ u.keyst = true ∧ u.qcid ≠ v :=
  ⟨asks (writeAt f1 0x280 5) (signer []), asks (writeAt f1 0x480 5) (signer []), 5, [], by decide, by decide, rfl, rfl,
    by decide, by decide, rfl, rfl, asks (writeAt f1 0x02C 5) (signer []), rfl, rfl, by decide⟩

/-- A write of QCID, of the last word of QY, and a refused one; a KEYGEN without error. -/
theorem witness_KeyWriteClearsKeyState :
    (∃ (s : State) (v : Word) (rest : List HostEvent), s.cfg.legal = true
        ∧ s.pending = .access (writeAt s.cfg 0x02C v) :: rest)
      ∧ (∃ (s : State) (off : Nat) (v : Word) (rest : List HostEvent), s.cfg.legal = true
        ∧ (∃ base ∈ [0x280, 0x300, 0x380], ∃ i, i < s.cfg.nw ∧ off = base + 4 * i)
        ∧ s.pending = .access (writeAt s.cfg off v) :: rest)
      ∧ (∃ (s t : State) (off : Nat) (v : Word) (rest : List HostEvent),
        s.pending = .access (writeAt s.cfg off v) :: rest ∧ step s = .next t ∧ t.resp = some .busErr)
      ∧ after (exec .keygen { s0 with draws := [some 7] }) (fun t => t.errf) = some false :=
  ⟨⟨asks (writeAt f1 0x02C 1) (signer []), 1, [], by decide, rfl⟩,
    ⟨asks (writeAt f1 0x380 1) (signer []), 0x380, 1, [], by decide, ⟨0x380, by decide, 0, by decide, rfl⟩, rfl⟩,
    ⟨asks (writeAt f1 0x384 1) (signer []), _, 0x384, 1, [], rfl, rfl, by decide⟩, by decide +kernel⟩

theorem witness_LoadingEveryWordLoadsTheValue :
    ∃ (s : State) (x : BigReg) (v : Nat) (rest : List HostEvent),
      Legal s ∧ x.writable = true ∧ v < 2 ^ s.cfg.nbits ∧ v = 2 ^ 32 - 1
        ∧ s.pending = (List.range s.cfg.nw).map
            (fun i => .access (writeAt s.cfg (x.base + 4 * i) (BitVec.ofNat 32 (v / 2 ^ (32 * i))))) ++ rest := by
  obtain ⟨h1, h2, h3, h4, h5, h6, h7, h8, h9⟩ := signer_legal
  exact ⟨asks (writeAt f1 0x100 0xFFFFFFFF)
      { signer [] with regR := 8, regS := 7, regM := 2 ^ 32 - 1, lastr := 8, lastrv := true },
    .m, 2 ^ 32 - 1, [], ⟨h1, fun x => by cases x <;> decide, h3, h4, h5, h6, h7, h8, h9⟩, rfl, by decide, rfl, by decide⟩

/-- Commands that set VRES, MALF and RREP, and one that ends in error. -/
theorem witness_ResultFlagsDescribeTheLastCommand :
    after (exec .verify (verifier 8 7)) (fun t => t.vres) = some true
      ∧ after (exec .verify (verifier 0 7)) (fun t => t.malf) = some true
      ∧ after (exec .sign { signer [some 3] with lastr := 8, lastrv := true }) (fun t => t.rrep) = some true
      ∧ after (exec .hfinal s0) (fun t => t.errf) = some true := by decide +kernel

/-- Errors before and after the order has passed its check. -/
theorem witness_ErrorsArePrecise :
    after (exec .keygen { s0 with draws := [none] }) (fun t => (t.errf, t.errcode)) = some (true, Err.rngFailure.code)
      ∧ after (exec .sign s0) (fun t => (t.errf, t.errcode)) = some (true, Err.sequenceError.code)
      ∧ after (exec (.modinv false) s0) (fun t => (t.errf, t.errcode)) = some (true, Err.invalidModulus.code)
      ∧ after (execIllegal 0 s0) (fun t => t.errf) = some true := by decide +kernel

theorem witness_SequenceErrorByState :
    outOfSequence .sign s0 = true ∧ outOfSequence .sign (signer []) = false ∧ outOfSequence .hfinal (opened [] 0) = false
      ∧ Legal (opened [] 0) ∧ (opened [] 0).hashing = true := by
  refine ⟨rfl, rfl, rfl, ⟨by decide, ?_, by decide, by decide, by decide, by decide, by decide,
    (rfl : (0 : Byte) = 0), by decide⟩, rfl⟩
  intro x; cases x <;> decide

/-- The four events that change HASHING or DVALID. -/
theorem witness_HashStateChangesOnlyAsListed :
    after (step (sends .reset (signer []))) (fun t => t.dvalid) = some false
      ∧ after (step (sends (.resetDuring .cmd 0x32000000 1) (signer [some 3]))) (fun t => t.dvalid) = some false
      ∧ after (step (asks (writeAt f1 0 0x01000000) (signer []))) (fun t => t.dvalid) = some false
      ∧ after (step (asks (writeAt f1 0 0x10000000) (signer []))) (fun t => (t.hashing, t.dvalid)) = some (true, false)
      ∧ after (step (asks (writeAt f1 0 0x14000000) (opened [] 0))) (fun t => (t.hashing, t.dvalid))
        = some (false, true) := by decide +kernel

/-- Events that set KEYST, and events that clear it. -/
theorem witness_KeyStateChangesOnlyAsListed :
    f1.legal = true
      ∧ after (step (asks (writeAt f1 0 0x30000000) { s0 with draws := [some 1] })) (fun t => t.keyst) = some true
      ∧ after (step (asks (writeAt f1 0 0x31000000) { s0 with regQX := 9, qcid := 1 })) (fun t => t.keyst) = some true
      ∧ after (step (sends .reset (signer []))) (fun t => t.keyst) = some false
      ∧ after (step (sends (.resetDuring .cmd 0x32000000 1) (signer [some 3]))) (fun t => t.keyst) = some false
      ∧ after (step (asks (writeAt f1 0 0x01000000) (signer []))) (fun t => t.keyst) = some false
      ∧ after (step (asks (writeAt f1 0x02C 1) (signer []))) (fun t => t.keyst) = some false := by decide +kernel

theorem witness_CommandsLeaveOtherUnitsAlone :
    ∃ (s t u : State), exec .sign s = .next t ∧ exec (.modinv false) s = .next u ∧ s.keyst = true :=
  ⟨signer [some 3], _, _, rfl, rfl, rfl⟩

/-- The modulus at its least value, and an argument of either sign. -/
theorem witness_ModIsTheFlooredModulus :
    (0 : Int) < 1 ∧ (0 : Int) ≤ 4 ∧ (4 : Int) < 7 ∧ (7 : Int) ∣ -10 - 4 := by decide

theorem witness_ModInverseMeetsItsContract :
    (1 : Int) < 2 ∧ modInverse 1 2 = .ok 1 ∧ modInverse (-3) 7 = .ok 2 ∧ (0 : Int) ≤ 2 ∧ (2 : Int) ≤ 7 - 1
      ∧ modInt (-3 * 2) 7 = 1 := by decide

/-- One input for each signal and one for none, at the moduli 0, 1 and 2 where the clauses meet. -/
theorem witness_ModInverseSignalByInput :
    modInverse 5 0 = .error .invalidModulus ∧ modInverse 0 1 = .error .invalidModulus
      ∧ modInverse 0 2 = .error .divisionByZero ∧ ((2 : Int) ∣ -2 ∧ modInverse (-2) 2 = .error .noInverseExists)
      ∧ (Int.gcd (modInt 4 8) 8 ≠ 1 ∧ modInverse 4 8 = .error .noInverseExists)
      ∧ (Int.gcd (modInt (-1) 2) 2 = 1 ∧ modInverse (-1) 2 = .ok 1) := by decide

theorem witness_ModInverseLaws :
    modInverse 17 3120 = .ok 2753 ∧ modInverse 1 2 = .ok 1 ∧ Nat.Prime 2 ∧ Nat.Prime 11 ∧ (0 : Int) < 10 ∧ (10 : Int) < 11 := by
  refine ⟨by decide, by decide, Nat.prime_two, by norm_num, by decide, by decide⟩

/-- The least modulus, and A = 0 excluded by no modulus above 1. -/
theorem witness_ModinvWritesTheInverse :
    ∃ s t : State, 1 < s.regM ∧ Nat.Coprime s.regA s.regM ∧ 1 < t.regM ∧ Nat.Coprime t.regA t.regM ∧ t.regM < t.regA :=
  ⟨{ s0 with regA := 1, regM := 2 }, { s0 with regA := 2 ^ 32 - 1, regM := 3120 - 1 }, by decide, by decide, by decide,
    by decide, by decide⟩

/-- One state for each error, at M = 0, 1, 2. -/
theorem witness_ModinvErrorsInOrder :
    ∃ s₁ s₂ s₃ s₄ : State, s₁.regM = 0 ∧ s₂.regM = 1 ∧ (2 ≤ s₃.regM ∧ s₃.regA = 0)
      ∧ (2 ≤ s₄.regM ∧ s₄.regA ≠ 0 ∧ ¬ Nat.Coprime s₄.regA s₄.regM) :=
  ⟨s0, { s0 with regM := 1 }, { s0 with regM := 2 }, { s0 with regA := 2, regM := 2 }, rfl, rfl, by decide, by decide⟩

theorem witness_ModredWritesTheResidue : ∃ s t : State, s.regM ≠ 0 ∧ t.regM = 0 :=
  ⟨{ s0 with regM := 1 }, s0, by decide, rfl⟩

theorem witness_RotateLeftFormula : 1 ≤ 1 ∧ 31 ≤ 31 ∧ rotl32 0x00000003 31 = 0x80000001 := by decide

/-- The edges of the four ranges of rounds and of the bits. -/
theorem witness_RoundFunctionPerBit : 19 < 20 ∧ ¬ 20 < 20 ∧ (40 ≤ 40 ∧ 59 < 60) ∧ ¬ 60 < 60 ∧ 79 < 80 ∧ 31 < 32 := by
  decide

/-- Messages of 55 and 56 bytes: one and two padding blocks. -/
theorem witness_PadLayout :
    (pad (List.replicate 55 0)).length = 64 ∧ (pad (List.replicate 56 0)).length = 128
      ∧ 8 * (List.replicate 56 (0 : Byte)).length < 2 ^ 64 := by decide +kernel

/-- A block, the first and last words of its halves. -/
theorem witness_block : ∃ block : List Byte, block.length = 64 ∧ 15 < 16 ∧ 16 ≤ 16 ∧ 79 < 80 :=
  ⟨List.replicate 64 0xFF, by decide⟩

/-- BCNT = 63 and LEN = 2^64 - 16: the byte that fills the block and is the last to fit; and BCNT = 60
with one byte less than a block. -/
theorem witness_PushAppendsItsBytes :
    ∃ (i j : Instr) (bs cs : List Byte) (s t : State), pushedBytes i = some bs ∧ pushedBytes j = some cs
      ∧ s.hashing = true ∧ s.mbuf.length < 64 ∧ s.len.toNat + 8 * bs.length < 2 ^ 64 ∧ ¬ (s.mbuf ++ bs).length < 64
      ∧ t.hashing = true ∧ t.mbuf.length < 64 ∧ t.len.toNat + 8 * cs.length < 2 ^ 64 ∧ (t.mbuf ++ cs).length < 64 :=
  ⟨.hpush1 0x41, .hpush3 1 2 3, [0x41], [1, 2, 3], opened (List.replicate 63 0) 0xFFFFFFFFFFFFFFF0,
    opened (List.replicate 60 0) 480, rfl, rfl, rfl, by decide, by decide, by decide, rfl, by decide, by decide,
    by decide⟩

/-- LEN = 2^64 - 8 and one byte more. -/
theorem witness_PushBeyondTheLimitIsRefused :
    ∃ (i : Instr) (bs : List Byte) (s : State), pushedBytes i = some bs ∧ s.hashing = true
      ∧ 2 ^ 64 ≤ s.len.toNat + 8 * bs.length :=
  ⟨.hpush1 0x41, [0x41], opened (List.replicate 63 0) 0xFFFFFFFFFFFFFFF8, rfl, rfl, by decide⟩

theorem witness_ScheduleRecurrence : (pad [0x61, 0x62, 0x63]).length = 64 := by decide

theorem witness_CompressIsEightyRoundsAndFold : (pad []).length = 64 := by decide

/-- BCNT = 55 and BCNT = 56, where the clauses meet, and BCNT = 63. -/
theorem witness_HfinalClosesTheCall :
    ∃ s t u : State, (s.hashing = true ∧ s.mbuf.length < 64 ∧ s.mbuf.length ≤ 55)
      ∧ (t.hashing = true ∧ t.mbuf.length < 64 ∧ ¬ t.mbuf.length ≤ 55) ∧ (u.hashing = true ∧ u.mbuf.length = 63)
      ∧ s0.hashing = false :=
  ⟨opened (List.replicate 55 0) 440, opened (List.replicate 56 0) 448, opened (List.replicate 63 0) 504, by decide, by decide,
    by decide, rfl⟩

/-- An open call that has taken "abc", and the digest of the empty message. -/
theorem witness_StepsKeepTheMeaningOfTheDigest :
    (∃ s t : State, DigestMeaning s ∧ s.hashing = true ∧ step s = .next t)
      ∧ (∃ s t : State, DigestMeaning s ∧ s.dvalid = true ∧ step s = .next t) :=
  ⟨⟨asks (writeAt f1 0 0x14000000) (opened [0x61, 0x62, 0x63] 24), _,
      ⟨fun _ => ⟨[0x61, 0x62, 0x63], rfl, rfl, by decide⟩, fun h => (by cases h)⟩, rfl, rfl⟩,
    ⟨asks (writeAt f1 0 0x10000000) { s0 with h := hashMsg [], dvalid := true }, _,
      ⟨fun h => (by cases h), fun _ => ⟨rfl, [], rfl, by decide⟩⟩, rfl, rfl⟩⟩

/-- Pushes of several sizes with a command of another family between them. -/
theorem witness_StreamingEqualsHash :
    ∃ (is : List Instr) (msg : List Byte), (∀ i ∈ is, i ≠ .srst ∧ i ≠ .hstart ∧ i ≠ .hfinal)
      ∧ msg = (is.filterMap pushedBytes).flatten ∧ msg.length = 3 ∧ 8 * msg.length < 2 ^ 64 :=
  ⟨[.hpush1 0x61, .modinv true, .hpush2 0x62 0x63], [0x61, 0x62, 0x63], by decide, rfl, rfl, by decide⟩

/-- A good order, and orders just outside its range. -/
theorem witness_GroupOrderIsFetchedAndChecked :
    OrderIs f1 11 ∧ (s0.cfg = f1 ∧ (signer []).cfg = f1 ∧ (signer []).keyst = true ∧ (signer []).dvalid = true)
      ∧ grpOrder (badOrder 1) < 2 ∧ 2 ^ (badOrder (2 ^ 32)).nbits ≤ grpOrder (badOrder (2 ^ 32))
      ∧ OrderIs (badOrder 2) 2 ∧ OrderIs (badOrder (2 ^ 32 - 1)) (2 ^ 32 - 1) := by
  simp only [OrderIs]; decide

/-- The draws 1 and n - 1, and 0, n and a failure. -/
theorem witness_KeygenMakesAKeyPair :
    OrderIs s0.cfg 11
      ∧ (rngAnswer { s0 with draws := [some 1] } 11 = some 1 ∧ rngAnswer { s0 with draws := [some 10] } 11 = some 10)
      ∧ rngAnswer { s0 with draws := [some 0] } 11 = some 0 ∧ rngAnswer { s0 with draws := [some 11] } 11 = some 11
      ∧ rngAnswer { s0 with draws := [none] } 11 = none := by
  simp only [OrderIs]; decide

theorem witness_KeyloadValidatesThePublicKey :
    grpIsOnCurve f1 ⟨9, 0, 1⟩ = true ∧ grpIsOnCurve f1 ⟨5, 0, 1⟩ = false := by decide +kernel

/-- Vector G5: one degenerate draw (s = 0), then k = 3. -/
theorem witness_SignReturnsASignature :
    ∃ (s : State) (n m : Nat) (k : Nat → Nat),
      OrderIs s.cfg n ∧ s.keyst = true ∧ s.dvalid = true ∧ 1 ≤ s.regD ∧ s.regD ≤ n - 1 ∧ m < s.cfg.retryCap
        ∧ (∀ j < m, drawAnswer s n j = some (k j : Int) ∧ DegenerateNonce s.cfg n s.regD (digestInt s.h) (k j))
        ∧ drawAnswer s n m = some (k m : Int) ∧ 1 ≤ k m ∧ k m ≤ n - 1 ∧ Nat.Coprime (k m) n
        ∧ nonceR s.cfg n (k m) ≠ 0 ∧ (digestInt s.h + nonceR s.cfg n (k m) * s.regD) % n ≠ 0 ∧ 0 < m := by
  refine ⟨signer [some 4, some 3, some 9], 11, 1, fun j => if j = 0 then 4 else 3, ?_⟩
  simp only [OrderIs, DegenerateNonce]
  decide +kernel

/-- Vector G6. -/
theorem witness_SignEndsWhenRetriesAreExhausted :
    ∃ (s : State) (n : Nat) (k : Nat → Nat),
      OrderIs s.cfg n ∧ s.keyst = true ∧ s.dvalid = true ∧ 1 ≤ s.regD ∧ s.regD ≤ n - 1
        ∧ (∀ j < s.cfg.retryCap, drawAnswer s n j = some (k j : Int)
          ∧ DegenerateNonce s.cfg n s.regD (digestInt s.h) (k j)) := by
  refine ⟨signer [some 4, some 4, some 4, some 4], 11, fun _ => 4, ?_⟩
  simp only [OrderIs, DegenerateNonce]
  decide +kernel

/-- D at 0 and n; D = n - 1 with a draw of 0 and of n; and vector G25, a nonce that is not coprime. -/
theorem witness_SignErrorsInOrder :
    OrderIs (signer []).cfg 11 ∧ (signer []).cfg.legal = true
      ∧ ({ signer [] with regD := 0 } : State).regD < 1 ∧ 11 - 1 < ({ signer [] with regD := 11 } : State).regD
      ∧ (1 ≤ (signer []).regD ∧ (signer []).regD ≤ 11 - 1
        ∧ rngAnswer (signer [none]) 11 = none ∧ rngAnswer (signer [some 0]) 11 = some 0
        ∧ rngAnswer (signer [some 11]) 11 = some 11)
      ∧ (OrderIs (signer4 [some 4]).cfg 12 ∧ (signer4 [some 4]).keyst = true ∧ (signer4 [some 4]).dvalid = true
        ∧ (signer4 [some 4]).cfg.legal = true ∧ 1 ≤ (signer4 [some 4]).regD ∧ (signer4 [some 4]).regD ≤ 12 - 1
        ∧ rngAnswer (signer4 [some 4]) 12 = some 4
        ∧ nonceR (signer4 [some 4]).cfg 12 4 ≠ 0 ∧ ¬ Nat.Coprime 4 12) := by
  simp only [OrderIs]
  decide +kernel

/-- Two draws (one degenerate) and a success. -/
theorem witness_SignDrawsAtMostRetryCap :
    after (exec .sign (signer [some 4, some 3])) (fun t => (t.errf, t.drawCount)) = some (false, 2) := by decide +kernel

/-- The same signature after one draw and after two. -/
theorem witness_SignLeavesNoTraceOfTheNonce :
    [[some 3], [some 4, some 3]].map
        (fun ds => after (exec .sign { signer [] with draws := ds }) (fun t => (t.errf, t.regR, t.regS)))
      = [some (false, 8, 7), some (false, 8, 7)] := by decide +kernel

theorem witness_RepeatedRIsFlagged :
    OrderIs (signer [some 3]).cfg 11 ∧ after (exec .sign (signer [some 3])) (fun t => t.errf) = some false := by
  simp only [OrderIs]
  decide +kernel

/-- Vectors G3 and G8: w = 8 is the inverse of 7 modulo 11, and 2 that of 6. -/
theorem witness_VerifyAnswersTheEquation :
    ∃ (s t : State) (n w v : Nat), (OrderIs s.cfg n ∧ s.keyst = true ∧ s.dvalid = true
        ∧ 1 ≤ s.regR ∧ s.regR ≤ n - 1 ∧ 1 ≤ s.regS ∧ s.regS ≤ n - 1 ∧ w ≤ n - 1 ∧ (s.regS * w) % n = 1)
      ∧ (OrderIs t.cfg n ∧ t.keyst = true ∧ t.dvalid = true
        ∧ 1 ≤ t.regR ∧ t.regR ≤ n - 1 ∧ 1 ≤ t.regS ∧ t.regS ≤ n - 1 ∧ v ≤ n - 1 ∧ (t.regS * v) % n = 1) := by
  refine ⟨verifier 8 7, verifier 8 6, 11, 8, 2, ?_⟩
  simp only [OrderIs]
  decide

/-- r at 0 and n, s at 0 and n. -/
theorem witness_VerifyRejectsAMalformedSignature :
    OrderIs (verifier 0 7).cfg 11 ∧ (verifier 0 7).keyst = true ∧ (verifier 0 7).dvalid = true
      ∧ (verifier 0 7).regR < 1 ∧ 11 - 1 < (verifier 11 7).regR ∧ (verifier 8 0).regS < 1
      ∧ 11 - 1 < (verifier 8 11).regS := by
  simp only [OrderIs]
  decide

/-- Vector G27 (an error), and F1, whose order is prime. -/
theorem witness_VerifyErrsOnlyForACompositeOrder :
    (∃ s : State, OrderIs s.cfg 12 ∧ s.keyst = true ∧ s.dvalid = true ∧ 1 ≤ s.regR ∧ s.regR ≤ 12 - 1 ∧ 1 ≤ s.regS
        ∧ s.regS ≤ 12 - 1 ∧ ¬ Nat.Coprime s.regS 12)
      ∧ OrderIs (verifier 8 7).cfg 11 ∧ Nat.Prime 11 := by
  refine ⟨⟨{ signer4 [] with regR := 6, regS := 6 }, ?_⟩, ?_, by norm_num⟩ <;> simp only [OrderIs] <;> decide

/-- The powers of 2 modulo 23, the points of F1. -/
def f1Point (a : Nat) : GroupElement := ⟨2 ^ a % 23, 0, 1⟩

theorem f1Point_mod (a : Nat) : f1Point (a % 11) = f1Point a := by
  have h : 2 ^ a % 23 = 2 ^ (a % 11) % 23 := by
    have h1 : (2 ^ 11) ^ (a / 11) ≡ 1 ^ (a / 11) [MOD 23] := Nat.ModEq.pow _ (by decide)
    conv_lhs => rw [← Nat.mod_add_div a 11, pow_add, pow_mul]
    have h2 := (Nat.ModEq.refl (2 ^ (a % 11))).mul h1
    rwa [one_pow, mul_one] at h2
  simp only [f1Point, h]

theorem f1_cyclic : CyclicGroup f1 11 f1Point := by
  refine ⟨by decide, f1Point_mod, fun k a hk => ?_, fun a b => ?_⟩
  · have h : ∀ k < 11, ∀ a < 11, grpScalarMultiply f1 k (f1Point a) = f1Point (k * a % 11) := by decide +kernel
    have ha := Nat.mod_lt a (show 0 < 11 by decide)
    rw [← f1Point_mod a, h k hk _ ha, ← f1Point_mod (k * a), Nat.mul_mod_mod]
  · have h : ∀ a < 11, ∀ b < 11, grpAddPoints f1 (f1Point a) (f1Point b) = f1Point ((a + b) % 11) := by decide +kernel
    have ha := Nat.mod_lt a (show 0 < 11 by decide)
    have hb := Nat.mod_lt b (show 0 < 11 by decide)
    rw [← f1Point_mod a, ← f1Point_mod b, h _ ha _ hb, ← Nat.add_mod, f1Point_mod]

/-- F1 with the key pair of vector G1 (Q = 7·G = 13) and the draw 3. -/
theorem witness_VerifyAcceptsWhatSignReturns :
    ∃ (s t : State) (n : Nat) (point : Nat → GroupElement), OrderIs s.cfg n ∧ n.Prime ∧ CyclicGroup s.cfg n point
      ∧ (⟨s.regQX, s.regQY, s.qcid⟩ : GroupElement) = point s.regD ∧ exec .sign s = .next t ∧ t.errf = false :=
  ⟨signer [some 3], _, 11, f1Point, by simp only [OrderIs]; decide, by norm_num, f1_cyclic, by decide, rfl,
    by decide +kernel⟩

theorem witness_StepsKeepTheStateLegal :
    ∃ s t : State, Legal s ∧ s.keyst = true ∧ s.dvalid = true ∧ step s = .next t :=
  ⟨_, _, signer_legal, rfl, rfl, rfl⟩

theorem witness_ResetAbandonsTheRunningCommand :
    ∃ (s : State) (rest : List HostEvent), s.pending = .resetDuring .cmd 0x32000000 1 :: rest ∧ s.draws.length = 2 :=
  ⟨sends (.resetDuring .cmd 0x32000000 1) (signer [some 4, some 3]), [], rfl, rfl⟩

theorem witness_ResetIsLegal : f1.legal = true ∧ ({ f1 with nw := 32, base := 4096 } : Params).legal = true := by decide

end Sys2Proof.Tests
end

section
/-!
PROOFS. The scope and conventions (spec/00_scope.md): the left rotation of R11.
-/
namespace Sys2Proof.Proofs

open Sys2Proof Sys2Proof.Machine

/-- What `x` moved up `n` places keeps of a 32-bit word: its low `32 - n` bits, above `n` zeros. -/
theorem mul_two_pow_mod_word (x : Nat) {n : Nat} (hn : n ≤ 32) :
    x * 2 ^ n % 2 ^ 32 = 2 ^ n * (x % 2 ^ (32 - n)) := by
  rw [← pow_mul_pow_sub 2 hn, mul_comm x, Nat.mul_mod_mul_left]

/-- The bits that leave the top of a word fit below bit `n`. -/
theorem word_div_two_pow_lt (x : Word) {n : Nat} (hn : n ≤ 32) : x.toNat / 2 ^ (32 - n) < 2 ^ n :=
  Nat.div_lt_of_lt_mul (by rw [pow_sub_mul_pow 2 hn]; exact x.isLt)

/-- The two parts of a rotation have no bit in common, so their disjunction is their sum. -/
theorem rotl32_toNat (x : Word) {n : Nat} (hn : n ≤ 32) :
    (rotl32 x n).toNat = x.toNat * 2 ^ n % 2 ^ 32 + x.toNat / 2 ^ (32 - n) := by
  rw [rotl32, BitVec.toNat_or, BitVec.toNat_shiftLeft, BitVec.toNat_ushiftRight, Nat.shiftLeft_eq,
    Nat.shiftRight_eq_div_pow, mul_two_pow_mod_word _ hn, Nat.two_pow_add_eq_or_of_lt (word_div_two_pow_lt x hn)]

/-- Settles O33: the formula from `rotl32_toNat`, the rule's three examples by evaluation. -/
theorem rotateLeftFormula : Obligations.RotateLeftFormula := by
  unfold Obligations.RotateLeftFormula
  refine ⟨fun x n _ hn => rotl32_toNat x (hn.trans (by decide)), ?_, ?_, ?_⟩ <;> decide

end Sys2Proof.Proofs
end

section
/-!
PROOFS. The state (spec/10_state.md): the reset values of R46, CONFIG of R38, LENLO and LENHI of R41, and the
key registers of R45. First what every command and every step leaves alone, and how the accesses to the
read-only registers end.
-/
namespace Sys2Proof.Proofs

open Sys2Proof Sys2Proof.Machine

/-! ## No command touches what lies outside CDL-CORE -/

theorem appendBytes_outside (bs : List Byte) (s : State) : SameOutside s (appendBytes bs s) := by
  obtain ⟨-, e⟩ | ⟨-, -, e⟩ | ⟨-, -, e⟩ := appendBytes_cases bs s <;> rw [e]
  · exact ⟨rfl, rfl, rfl⟩
  · exact ⟨rfl, rfl, rfl⟩
  · obtain ⟨_, _, _, e⟩ := foldl_appendByte_eq bs s
    rw [e]
    exact ⟨rfl, rfl, rfl⟩

theorem finishHash_outside (s : State) : SameOutside s (finishHash s) := by
  obtain ⟨-, e⟩ | ⟨-, e⟩ := finishHash_cases s <;> rw [e] <;> exact ⟨rfl, rfl, rfl⟩

theorem invertA_outside (neg : Bool) (s : State) : SameOutside s (invertA neg s) := by
  obtain ⟨_, -, -, e⟩ | ⟨_, -, -, e⟩ := invertA_cases neg s <;> rw [e] <;> exact ⟨rfl, rfl, rfl⟩

theorem reduceA_outside (neg : Bool) (s : State) : SameOutside s (reduceA neg s) := by
  obtain ⟨-, e⟩ | ⟨-, _, -, -, e⟩ := reduceA_cases neg s <;> rw [e] <;> exact ⟨rfl, rfl, rfl⟩

theorem generateKey_outside (s : State) : SameOutside s (generateKey s) := by
  obtain ⟨-, e⟩ | ⟨_, -, ⟨-, e⟩ | ⟨_, -, -, -, e⟩⟩ := generateKey_cases s <;> rw [e] <;> exact ⟨rfl, rfl, rfl⟩

theorem loadKey_outside (s : State) : SameOutside s (loadKey s) := by
  obtain ⟨-, e⟩ | ⟨-, e⟩ := loadKey_cases s <;> rw [e] <;> exact ⟨rfl, rfl, rfl⟩

theorem signLoop_outside (n d h tries : Nat) (s : State) : SameOutside s (signLoop tries n d h s) := by
  obtain ⟨_, -, ⟨_, -, e⟩ | ⟨_, _, -, -, -, -, -, e⟩⟩ := signLoop_cases n d h tries s <;> rw [e] <;>
    exact ⟨rfl, rfl, rfl⟩

theorem signDigest_outside (s : State) : SameOutside s (signDigest s) := by
  obtain ⟨-, e⟩ | ⟨-, -, ⟨-, e⟩ | ⟨n, -, ⟨-, e⟩ | ⟨-, -, e⟩⟩⟩ := signDigest_cases s <;> rw [e]
  · exact ⟨rfl, rfl, rfl⟩
  · exact ⟨rfl, rfl, rfl⟩
  · exact ⟨rfl, rfl, rfl⟩
  · exact signLoop_outside n _ _ _ { s with regN := n }

theorem verifyDigest_outside (s : State) : SameOutside s (verifyDigest s) := by
  obtain ⟨-, e⟩ | ⟨-, -, ⟨-, e⟩ | ⟨_, -, ⟨-, e⟩ | ⟨-, -, -, -, ⟨-, e⟩ | ⟨_, -, e⟩⟩⟩⟩ := verifyDigest_cases s <;>
    rw [e] <;> exact ⟨rfl, rfl, rfl⟩

/-- A command leaves the parameters, the host's waiting events and the outcome of the transaction. -/
theorem exec_outside {i : Instr} {s t : State} (h : exec i s = .next t) : SameOutside s t := by
  cases i <;> cases h
  case srst => exact ⟨rfl, rfl, rfl⟩
  case hstart => exact ⟨rfl, rfl, rfl⟩
  case hpush1 | hpush2 | hpush3 | hpush4 => exact appendBytes_outside _ (beginCommand _ s)
  case hfinal => exact finishHash_outside (beginCommand _ s)
  case modinv neg => exact invertA_outside neg (beginCommand _ s)
  case modred neg => exact reduceA_outside neg (beginCommand _ s)
  case keygen => exact generateKey_outside (beginCommand _ s)
  case keyload => exact loadKey_outside (beginCommand _ s)
  case sign => exact signDigest_outside (beginCommand _ s)
  case verify => exact verifyDigest_outside (beginCommand _ s)

theorem execIllegal_outside {c : Word} {s t : State} (h : execIllegal c s = .next t) : SameOutside s t := by
  cases h
  exact ⟨rfl, rfl, rfl⟩

/-! ## What every step keeps -/

/-- The parameters are no state (R47): no event changes them. -/
theorem step_cfg {s t : State} (h : step s = .next t) : t.cfg = s.cfg := by
  obtain ⟨-, rfl⟩ | ⟨_, _, -, -, _, rfl⟩
    | ⟨_, _, -, ⟨-, rfl⟩ | ⟨_, _, _, -, -, he⟩ | ⟨_, _, -, -, he⟩ | ⟨_, -, rfl⟩⟩ := step_cases h
  · rfl
  · rfl
  · rfl
  · obtain ⟨hcfg, -, -⟩ := exec_outside he
    exact hcfg
  · obtain ⟨hcfg, -, -⟩ := execIllegal_outside he
    exact hcfg
  · exact (busRegister_outside _ _ _).2

/-- A register access is no command, and LEN is no register that the host may write (R41). -/
theorem busRegister_len (off : Nat) (acc : BusAccess) (s : State) : (busRegister off acc s).len = s.len := by
  obtain ⟨_, -, -, -, e⟩ | ⟨_, _, -, -, hw, e⟩ | e := busRegister_cases off acc s <;> rw [e]
  · rfl
  · obtain ⟨-, ⟨-, rfl⟩ | ⟨x, _, -, -, -, rfl⟩⟩ := busWrite_cases hw
    · rfl
    · exact setBig_len ..
  · rfl

/-- A transaction that is no write of CMD or MSGW leaves LEN. -/
theorem step_len_of_no_command {s : State} {acc : BusAccess} {rest : List HostEvent}
    (h : s.pending = .access acc :: rest) (hc : ∀ (p : Port) (c : Word), acc ≠ commandWrite s.cfg p c) :
    ∃ t, step s = .next t ∧ t.len = s.len := by
  cases ht : busTarget s.cfg acc with
  | outside => exact ⟨respond none { s with pending := rest }, by simp only [step_access h, stepAccess, ht], rfl⟩
  | command c => exact absurd (busTarget_command ht) (hc .cmd c)
  | message c => exact absurd (busTarget_message ht) (hc .msgw c)
  | register off => exact ⟨_, step_register h ht, busRegister_len off acc _⟩

/-! ## Refused accesses -/

/-- Whatever access ends BUSERR changes nothing (20_memory.md R63): a write that starts a command ends OK, so
only the refusal of a register access is left. -/
theorem step_eq_of_busErr {s t : State} {acc : BusAccess} {rest : List HostEvent}
    (h : s.pending = .access acc :: rest) (hs : step s = .next t) (hb : t.resp = some .busErr) :
    t = { s with pending := rest, resp := some .busErr } := by
  obtain ⟨hp, -⟩ | ⟨_, _, hp, hr, -⟩
    | ⟨acc', rest', hp, ⟨-, rfl⟩ | ⟨_, _, _, -, -, he⟩ | ⟨_, _, -, -, he⟩ | ⟨off, -, rfl⟩⟩ := step_cases hs
  · rw [h] at hp; cases hp
  · rw [h] at hp; cases hp; cases hr
  · cases hb
  · obtain ⟨-, -, hresp⟩ := exec_outside he
    rw [hresp] at hb
    cases hb
  · obtain ⟨-, -, hresp⟩ := execIllegal_outside he
    rw [hresp] at hb
    cases hb
  · rw [h] at hp
    cases hp
    obtain ⟨_, -, -, -, e⟩ | ⟨_, _, -, -, -, e⟩ | e := busRegister_cases off acc { s with pending := rest } <;>
      rw [e] at hb ⊢
    · cases hb
    · cases hb
    · rfl

/-- Below the windows of the big-integer registers QCID alone takes a register write (20_memory.md R61, R75). -/
theorem busWrite_below_windows {s : State} {off : Nat} (v : Word) (h : off < 0x080) (hq : off ≠ 0x02C) :
    busWrite s off v = none := by
  cases hw : busWrite s off v with
  | none => rfl
  | some s' =>
    obtain ⟨-, ⟨ho, -⟩ | ⟨x, i, -, -, ho, -⟩⟩ := busWrite_cases hw
    · exact absurd ho hq
    · have := base_bounds x
      omega

/-- The host's write of a read-only or reserved offset below the windows is refused. -/
theorem step_writeAt_refused {s : State} {off : Nat} {v : Word} {rest : List HostEvent} (ho : off < 0x080)
    (h0 : off ≠ 0x000) (h1 : off ≠ 0x00C) (hq : off ≠ 0x02C) (h : s.pending = .access (writeAt s.cfg off v) :: rest) :
    step s = .next { s with pending := rest, resp := some .busErr } := by
  rw [step_writeAt (by omega) h0 h1 h, busWrite_below_windows v ho hq]

/-! ## The read-only registers -/

theorem busRead_status (s : State) : busRead s 0x004 = some (statusWord s) := rfl

theorem busRead_config (s : State) : busRead s 0x008 = some (configWord s.cfg) := rfl

theorem busRead_lenLo (s : State) : busRead s 0x024 = some (s.len.extractLsb' 0 32) := rfl

theorem busRead_lenHi (s : State) : busRead s 0x028 = some (s.len.extractLsb' 32 32) := rfl

/-- After reset LASTOP, ERRCODE and every flag are 0. -/
theorem statusWord_resetWith (p : Params) : statusWord (State.resetWith p) = 0 := by
  simp only [statusWord, State.resetWith]
  decide

/-- The constraints of 00_scope.md R5 on the parameters that CONFIG holds, as bounds of its two fields. -/
theorem config_bounds {p : Params} (h : p.legal = true) : p.nw < 2 ^ 8 ∧ p.retryCap < 2 ^ 24 := by
  simp only [Params.legal, Bool.and_eq_true, decide_eq_true_eq] at h
  omega

/-- The two fields of CONFIG do not overlap and none is cut off. -/
theorem configWord_toNat {p : Params} (h : p.legal = true) : (configWord p).toNat = p.retryCap * 256 + p.nw := by
  have := config_bounds h
  rw [configWord, BitVec.toNat_ofNat, Nat.mod_eq_of_lt (by omega)]

theorem configWord_nw {p : Params} (h : p.legal = true) : ((configWord p).extractLsb' 0 8).toNat = p.nw := by
  have := config_bounds h
  rw [toNat_extract_eq, configWord_toNat h]
  omega

theorem configWord_retryCap {p : Params} (h : p.legal = true) :
    ((configWord p).extractLsb' 8 24).toNat = p.retryCap := by
  have := config_bounds h
  rw [toNat_extract_eq, configWord_toNat h]
  omega

/-- The example of R38. -/
theorem configWord_example {p : Params} (hb : p.nbits = 256) (hr : p.retryCap = 4) : configWord p = 0x00000408 := by
  have hn : p.nw = 8 := by rw [Params.nbits] at hb; omega
  rw [configWord, hr, hn]
  rfl

/-! ## The key registers -/

/-- A register write that is taken is the whole step. -/
theorem step_writeAt_taken {s s' : State} {off : Nat} {v : Word} {rest : List HostEvent} (ho : off < 4096)
    (h0 : off ≠ 0x000) (h1 : off ≠ 0x00C) (h : s.pending = .access (writeAt s.cfg off v) :: rest)
    (hw : busWrite { s with pending := rest } off v = some s') :
    step s = .next { s' with resp := some .okWrite } := by
  rw [step_writeAt ho h0 h1 h, hw]

/-- T and N, the registers that the host may not write, are no part of the key (R27, R45). -/
theorem writable_of_isKey {x : BigReg} (h : x.isKey = true) : x.writable = true := by
  cases x <;> cases h <;> rfl

/-- The windows of D, QX and QY (20_memory.md R61). -/
theorem exists_keyReg_of_base {base : Nat} (h : base ∈ [0x280, 0x300, 0x380]) :
    ∃ x : BigReg, x.isKey = true ∧ x.base = base := by
  simp only [List.mem_cons, List.not_mem_nil, or_false] at h
  obtain rfl | rfl | rfl := h
  · exact ⟨.d, rfl, rfl⟩
  · exact ⟨.qx, rfl, rfl⟩
  · exact ⟨.qy, rfl, rfl⟩

/-- A write of word `i` of a key register is taken and drops KEYST, whatever the value. -/
theorem step_writeAt_keyReg {s : State} {x : BigReg} {i : Nat} {v : Word} {rest : List HostEvent}
    (hl : s.cfg.legal = true) (hk : x.isKey = true) (hi : i < s.cfg.nw)
    (h : s.pending = .access (writeAt s.cfg (x.base + 4 * i) v) :: rest) :
    ∃ t, step s = .next t ∧ t.resp = some .okWrite ∧ t.keyst = false := by
  have hn := (nw_of_legal hl).2
  have hb := base_bounds x
  have hw := busWrite_big (s := { s with pending := rest }) v hn (writable_of_isKey hk) hi
  exact ⟨_, step_writeAt_taken (by omega) (by omega) (by omega) h hw, rfl, if_pos hk⟩

/-- A write of QCID is taken and drops KEYST, whatever the value. -/
theorem step_writeAt_qcid {s : State} {v : Word} {rest : List HostEvent}
    (h : s.pending = .access (writeAt s.cfg 0x02C v) :: rest) :
    step s = .next { s with qcid := v, keyst := false, pending := rest, resp := some .okWrite } :=
  step_writeAt_taken (by decide) (by decide) (by decide) h rfl

/-- KEYGEN without error leaves KEYST = 1, though it writes the key registers itself (R45). -/
theorem generateKey_keyst {s : State} (h : (generateKey s).errf = false) : (generateKey s).keyst = true := by
  obtain ⟨-, e⟩ | ⟨_, -, ⟨-, e⟩ | ⟨_, -, -, -, e⟩⟩ := generateKey_cases s <;> rw [e] at h ⊢
  · cases h
  · cases h
  · rfl

/-! ## The statements -/

/-- Settles O18: the host's writes by `step_writeAt_qcid` and `step_writeAt_keyReg`, the refused ones by
`step_eq_of_busErr`, KEYGEN by `generateKey_keyst`. -/
theorem keyWriteClearsKeyState : Obligations.KeyWriteClearsKeyState := by
  unfold Obligations.KeyWriteClearsKeyState
  refine ⟨?_, fun s t off v rest h hs hb => step_eq_of_busErr h hs hb, ?_⟩
  · intro s off v rest hl ho h
    obtain rfl | ⟨base, hbase, i, hi, rfl⟩ := ho
    · exact ⟨_, step_writeAt_qcid h, rfl, rfl⟩
    · obtain ⟨x, hk, rfl⟩ := exists_keyReg_of_base hbase
      exact step_writeAt_keyReg hl hk hi h
  · intro s t h he
    rw [exec_keygen] at h
    cases h
    exact generateKey_keyst he

/-- Settles O9: the fields are the reset state's by definition, STATUS is 0 by `statusWord_resetWith`. -/
theorem resetValues : Obligations.ResetValues := by
  unfold Obligations.ResetValues
  rintro p _ rfl
  have hbig : ∀ x : BigReg, (State.resetWith p).big x = 0 := by intro x; cases x <;> rfl
  refine ⟨rfl, rfl, rfl, rfl, rfl, hbig, rfl, rfl, rfl, rfl, rfl, rfl, rfl, rfl, rfl, rfl, ?_, ?_⟩
  · rw [busRead_status, statusWord_resetWith]
  · exact busRead_config _

/-- Settles O12: the fields of the word by `configWord_nw` and `configWord_retryCap`, its constancy by
`step_cfg`. -/
theorem configReadsTheParameters : Obligations.ConfigReadsTheParameters := by
  unfold Obligations.ConfigReadsTheParameters
  refine ⟨fun s rest hl h => ⟨configWord s.cfg, ?_, configWord_nw hl, configWord_retryCap hl, configWord_example⟩,
    fun s v rest h => step_writeAt_refused (by decide) (by decide) (by decide) (by decide) h, fun s t => step_cfg⟩
  rw [step_readAt (by decide) h, busRead_config]

/-- Settles O14: the two halves are slices of LEN, and `step_len_of_no_command` keeps them consistent. -/
theorem lengthReadsInTwoHalves : Obligations.LengthReadsInTwoHalves := by
  unfold Obligations.LengthReadsInTwoHalves
  refine ⟨fun s => ⟨s.len.extractLsb' 0 32, s.len.extractLsb' 32 32, ?_, ?_, ?_, ?_⟩, ?_,
    fun s acc rest h hc => step_len_of_no_command h hc⟩
  · rintro rest t rfl
    rw [step_readAt (by decide) rfl, busRead_lenLo]
  · rintro rest t rfl
    rw [step_readAt (by decide) rfl, busRead_lenHi]
  · rw [toNat_extract_eq, Nat.pow_zero, Nat.div_one]
  · have := s.len.isLt
    rw [toNat_extract_eq]
    omega
  · intro s off v rest ho h
    exact step_writeAt_refused (by omega) (by omega) (by omega) (by omega) h

end Sys2Proof.Proofs
end

section
/-!
PROOFS. The register block (spec/20_memory.md): the words of the big-integer registers of R64.
-/
namespace Sys2Proof.Proofs

open Sys2Proof Sys2Proof.Machine

/-- A register below `2 ^ NBITS` has no bits above its NW words, so `sum_bigWord` gives all of it. -/
theorem big_eq_sum_bigWord {s : State} (hl : Legal s) (x : BigReg) :
    s.big x = ∑ i ∈ Finset.range s.cfg.nw, (bigWord (s.big x) i).toNat * 2 ^ (32 * i) := by
  rw [← sum_bigWord]
  exact (Nat.mod_eq_of_lt (hl.widths x)).symm

/-- A read of word `i` of a big-integer register answers that word and is the whole step. -/
theorem step_readAt_big {s : State} {x : BigReg} {i : Nat} {rest : List HostEvent} (hn : s.cfg.nw ≤ 32)
    (hi : i < s.cfg.nw) (h : s.pending = .access (readAt s.cfg (x.base + 4 * i)) :: rest) :
    step s = .next { s with pending := rest, resp := some (.okRead (bigWord (s.big x) i)) } := by
  have hb := base_bounds x
  rw [step_readAt (by omega) h, busRead_big x hn hi]

/-- Settles O16: the words are those of `bigWord`, read by `step_readAt_big` and summed by
`big_eq_sum_bigWord`. -/
theorem bigRegisterReadsLeastWordFirst : Obligations.BigRegisterReadsLeastWordFirst := by
  unfold Obligations.BigRegisterReadsLeastWordFirst
  refine fun s x hl => ⟨bigWord (s.big x), ?_, big_eq_sum_bigWord hl x⟩
  rintro i hi rest t rfl
  exact step_readAt_big (nw_of_legal hl.params).2 hi rfl

end Sys2Proof.Proofs
end

section
/-!
PROOFS. The command encoding (spec/30_encoding.md): the mask and match rows of R95 against the decoding
procedure of R98. Both come down to the same two facts about a word written to CMD: its field `op`, and the
bits of `low` (23:0) that must be 0.
-/
namespace Sys2Proof.Proofs

open Sys2Proof Sys2Proof.Machine

/-! ## Bit vectors -/

theorem append_eq_append_iff {m n : Nat} {x x' : BitVec m} {y y' : BitVec n} :
    x ++ y = x' ++ y' ↔ x = x' ∧ y = y' := by
  constructor
  · intro h
    have hl := congrArg (·.extractLsb' n m) h
    have hr := congrArg (·.extractLsb' 0 n) h
    simp only [BitVec.extractLsb'_append_eq_left, BitVec.extractLsb'_append_eq_right] at hl hr
    exact ⟨hl, hr⟩
  · rintro ⟨rfl, rfl⟩
    rfl

/-- A mask of all bits from bit `k` up gives 0 exactly when the slice of those bits is 0. -/
theorem and_allOnes_shiftLeft_eq_zero_iff {w k : Nat} (x : BitVec w) (hk : k ≤ w) :
    x &&& (BitVec.allOnes w <<< k) = 0 ↔ x.extractLsb' k (w - k) = 0 := by
  have hmask : x.toNat / 2 ^ k * 2 ^ k < 2 ^ w := (Nat.div_mul_le_self _ _).trans_lt x.isLt
  have hslice : x.toNat / 2 ^ k < 2 ^ (w - k) := Nat.div_lt_of_lt_mul (by rw [pow_mul_pow_sub 2 hk]; exact x.isLt)
  rw [← BitVec.shiftLeft_ushiftRight, ← BitVec.toNat_inj, ← BitVec.toNat_inj, BitVec.toNat_shiftLeft,
    BitVec.toNat_ushiftRight, Nat.shiftLeft_eq, Nat.shiftRight_eq_div_pow, Nat.mod_eq_of_lt hmask, toNat_extract_eq,
    Nat.mod_eq_of_lt hslice]
  simp

/-! ## The rows of CMD -/

/-- The row of a command of CMD: its opcode byte, and the bits of `low` from bit `k` up that must be 0
(formats R91 to R93). -/
def commandRow (name : String) (op : Byte) (k : Nat) : OpcodeRow :=
  ⟨name, .cmd, BitVec.allOnes 8 ++ (BitVec.allOnes 24 <<< k), op ++ (0 : BitVec 24)⟩

/-- The rows of CMD: `k` is 0 in format Z, the number of operand bits in formats B1 to B3 and S. -/
def commandRows : List OpcodeRow :=
  [ commandRow "SRST" 0x01 0, commandRow "HSTART" 0x10 0, commandRow "HPUSH1" 0x11 8, commandRow "HPUSH2" 0x12 16,
    commandRow "HPUSH3" 0x13 24, commandRow "HFINAL" 0x14 0, commandRow "MODINV" 0x20 1, commandRow "MODRED" 0x21 1,
    commandRow "KEYGEN" 0x30 0, commandRow "KEYLOAD" 0x31 0, commandRow "SIGN" 0x32 0, commandRow "VERIFY" 0x33 0 ]

/-- The one row of MSGW (format P, R94). -/
def messageRow : OpcodeRow := ⟨"HPUSH4", .msgw, 0, 0⟩

theorem opcodeTable_perm : opcodeTable.Perm (messageRow :: commandRows) := by decide

theorem mem_opcodeTable_iff {row : OpcodeRow} : row ∈ opcodeTable ↔ row = messageRow ∨ row ∈ commandRows := by
  rw [opcodeTable_perm.mem_iff, List.mem_cons]

theorem row_eq_of_mnemonic_eq : ∀ row₁ ∈ opcodeTable, ∀ row₂ ∈ opcodeTable,
    row₁.mnemonic = row₂.mnemonic → row₁ = row₂ := by decide

/-- A word matches a row of CMD exactly when it has the row's opcode byte and its must-be-zero bits are 0. -/
theorem commandRow_matchesWord_iff {name : String} {op : Byte} {k : Nat} {p : Port} {c : Word} (hk : k ≤ 24) :
    (commandRow name op k).matchesWord p c = true ↔
      p = .cmd ∧ opField c = op ∧ c.extractLsb' k (24 - k) = 0 := by
  have hc : opField c ++ c.extractLsb' 0 24 = c := BitVec.extractLsb'_append_extractLsb' (w := 8) (len := 24)
  have hzero : c.extractLsb' 0 24 &&& (BitVec.allOnes 24 <<< k) = 0 ↔ c.extractLsb' k (24 - k) = 0 := by
    rw [and_allOnes_shiftLeft_eq_zero_iff _ hk, BitVec.extractLsb'_extractLsb'_of_le (by omega)]
  have hmask : c &&& (BitVec.allOnes 8 ++ (BitVec.allOnes 24 <<< k)) = op ++ (0 : BitVec 24) ↔
      opField c = op ∧ c.extractLsb' k (24 - k) = 0 := by
    conv_lhs => rw [← hc]
    rw [BitVec.and_append, append_eq_append_iff, BitVec.and_allOnes, hzero]
  rw [OpcodeRow.matchesWord, Bool.and_eq_true, decide_eq_true_eq, decide_eq_true_eq, commandRow, hmask, @eq_comm _ p]

/-- Every word written to MSGW matches its row, and no word written to CMD does. -/
theorem messageRow_matchesWord_iff {p : Port} {c : Word} : messageRow.matchesWord p c = true ↔ p = .msgw := by
  rw [OpcodeRow.matchesWord, Bool.and_eq_true, decide_eq_true_eq, decide_eq_true_eq, messageRow, @eq_comm _ p]
  exact and_iff_left BitVec.and_zero

/-! ## The decoder against the rows -/

theorem whenZero_eq_ok_iff {b : Bool} {i j : Instr} : whenZero b j = .ok i ↔ b = true ∧ j = i := by
  cases b <;> simp [whenZero]

/-- One branch of the decoder: a word that it takes matches the row of the branch's command. -/
theorem exists_commandRow_of_branch {c : Word} {b : Bool} {i j : Instr} {rest : Except Illegal Instr}
    (name : String) (op : Byte) (k : Nat) (hmem : commandRow name op k ∈ commandRows) (hname : mnemonicOf j = name)
    (hk : k ≤ 24) (hzero : b = true → c.extractLsb' k (24 - k) = 0)
    (hrest : rest = .ok i → ∃ row ∈ commandRows, row.matchesWord .cmd c = true ∧ mnemonicOf i = row.mnemonic)
    (h : (if opField c = op then whenZero b j else rest) = .ok i) :
    ∃ row ∈ commandRows, row.matchesWord .cmd c = true ∧ mnemonicOf i = row.mnemonic := by
  rcases ite_eq_iff.1 h with ⟨hop, h⟩ | ⟨-, h⟩
  · obtain ⟨hb, rfl⟩ := whenZero_eq_ok_iff.1 h
    exact ⟨_, hmem, (commandRow_matchesWord_iff hk).2 ⟨rfl, hop, hzero hb⟩, hname⟩
  · exact hrest h

/-- The twelve branches of the decoder, in its order. -/
theorem exists_commandRow_of_decodeCmd {c : Word} {i : Instr} (h : decodeCmd c = .ok i) :
    ∃ row ∈ commandRows, row.matchesWord .cmd c = true ∧ mnemonicOf i = row.mnemonic := by
  refine exists_commandRow_of_branch "SRST" 0x01 0 (by decide) rfl (by decide) (by simp) (fun h => ?_) h
  refine exists_commandRow_of_branch "HSTART" 0x10 0 (by decide) rfl (by decide) (by simp) (fun h => ?_) h
  refine exists_commandRow_of_branch "HPUSH1" 0x11 8 (by decide) rfl (by decide) (by simp) (fun h => ?_) h
  refine exists_commandRow_of_branch "HPUSH2" 0x12 16 (by decide) rfl (by decide) (by simp) (fun h => ?_) h
  refine exists_commandRow_of_branch (b := true) "HPUSH3" 0x13 24 (by decide) rfl (by decide) (by simp) (fun h => ?_) h
  refine exists_commandRow_of_branch "HFINAL" 0x14 0 (by decide) rfl (by decide) (by simp) (fun h => ?_) h
  refine exists_commandRow_of_branch "MODINV" 0x20 1 (by decide) rfl (by decide) (by simp) (fun h => ?_) h
  refine exists_commandRow_of_branch "MODRED" 0x21 1 (by decide) rfl (by decide) (by simp) (fun h => ?_) h
  refine exists_commandRow_of_branch "KEYGEN" 0x30 0 (by decide) rfl (by decide) (by simp) (fun h => ?_) h
  refine exists_commandRow_of_branch "KEYLOAD" 0x31 0 (by decide) rfl (by decide) (by simp) (fun h => ?_) h
  refine exists_commandRow_of_branch "SIGN" 0x32 0 (by decide) rfl (by decide) (by simp) (fun h => ?_) h
  refine exists_commandRow_of_branch "VERIFY" 0x33 0 (by decide) rfl (by decide) (by simp) (fun h => ?_) h
  cases h

/-- The row fixes `op`, which picks the decoder's branch, and the branch's must-be-zero bits. -/
theorem decodeCmd_of_commandRow {row : OpcodeRow} (hrow : row ∈ commandRows) {c : Word}
    (h : row.matchesWord .cmd c = true) : ∃ i, decodeCmd c = .ok i ∧ mnemonicOf i = row.mnemonic := by
  simp only [commandRows, List.mem_cons, List.not_mem_nil, or_false] at hrow
  rcases hrow with rfl | rfl | rfl | rfl | rfl | rfl | rfl | rfl | rfl | rfl | rfl | rfl
  all_goals
    obtain ⟨-, hop, hzero⟩ := (commandRow_matchesWord_iff (by decide)).1 h
    simp [decodeCmd, whenZero, hop, hzero, commandRow, mnemonicOf]

/-! ## Both ports -/

theorem port_of_commandRow {row : OpcodeRow} (hrow : row ∈ commandRows) {p : Port} {c : Word}
    (h : row.matchesWord p c = true) : p = .cmd := by
  rw [OpcodeRow.matchesWord, Bool.and_eq_true, decide_eq_true_eq] at h
  rw [← h.1]
  exact (by decide : ∀ row ∈ commandRows, row.port = .cmd) row hrow

theorem exists_row_of_decode {p : Port} {c : Word} {i : Instr} (h : decode p c = .ok i) :
    ∃ row ∈ opcodeTable, row.matchesWord p c = true ∧ mnemonicOf i = row.mnemonic := by
  cases p with
  | cmd =>
    obtain ⟨row, hrow, hmatch⟩ := exists_commandRow_of_decodeCmd h
    exact ⟨row, mem_opcodeTable_iff.2 (.inr hrow), hmatch⟩
  | msgw =>
    cases h
    exact ⟨messageRow, mem_opcodeTable_iff.2 (.inl rfl), messageRow_matchesWord_iff.2 rfl, rfl⟩

theorem decode_of_matchesWord {row : OpcodeRow} (hrow : row ∈ opcodeTable) {p : Port} {c : Word}
    (h : row.matchesWord p c = true) : ∃ i, decode p c = .ok i ∧ mnemonicOf i = row.mnemonic := by
  obtain rfl | hrow := mem_opcodeTable_iff.1 hrow
  · cases messageRow_matchesWord_iff.1 h
    exact ⟨decodeMsgw c, rfl, rfl⟩
  · obtain rfl : p = .cmd := port_of_commandRow hrow h
    exact decodeCmd_of_commandRow hrow h

/-- Settles O3: a matching word decodes by `decode_of_matchesWord`, a decoded word matches its row by
`exists_row_of_decode`, and a word of two rows decodes to both mnemonics, which tell the rows apart. -/
theorem tableRowsAndDecoderAgree : Obligations.TableRowsAndDecoderAgree := by
  unfold Obligations.TableRowsAndDecoderAgree
  refine ⟨fun row hrow p c => ⟨decode_of_matchesWord hrow, ?_⟩, fun c => ⟨?_, ?_⟩, ?_⟩
  · rintro ⟨i, hi, hm⟩
    obtain ⟨row', hrow', hmatch, hm'⟩ := exists_row_of_decode hi
    rwa [row_eq_of_mnemonic_eq row hrow row' hrow' (hm.symm.trans hm')]
  · intro h
    obtain ⟨row, hrow, hmatch⟩ := List.any_eq_true.1 h
    obtain ⟨i, hi, -⟩ := decode_of_matchesWord hrow hmatch
    exact ⟨i, hi⟩
  · rintro ⟨i, hi⟩
    obtain ⟨row, hrow, hmatch, -⟩ := exists_row_of_decode hi
    exact List.any_eq_true.2 ⟨row, hrow, hmatch⟩
  · intro row₁ h₁ row₂ h₂ p c hm₁ hm₂
    obtain ⟨i, hi, hn₁⟩ := decode_of_matchesWord h₁ hm₁
    obtain ⟨j, hj, hn₂⟩ := decode_of_matchesWord h₂ hm₂
    cases hi.symm.trans hj
    exact row_eq_of_mnemonic_eq row₁ h₁ row₂ h₂ (hn₁.symm.trans hn₂)

end Sys2Proof.Proofs
end

section
/-!
PROOFS. The modular arithmetic unit (spec/40_modarith.md): `Mod` of R110 and MODRED of R116.
-/
namespace Sys2Proof.Proofs

open Sys2Proof Sys2Proof.Machine

/-! ## `Mod` -/

/-- Two integers that differ by a multiple of `m` have one remainder, and that of an `r` in `[0, m)` is `r`. -/
theorem eq_modInt_of_dvd_sub {a m r : Int} (h0 : 0 ≤ r) (hlt : r < m) (hdvd : m ∣ a - r) : r = modInt a m :=
  calc r = r % m := (Int.emod_eq_of_lt h0 hlt).symm
    _ = a % m := Int.modEq_iff_dvd.2 hdvd

/-- For `m > 0` the quotient that belongs to `Mod` is the floor of the rational quotient. -/
theorem modInt_eq_sub_mul_floor (a : Int) {m : Int} (hm : 0 < m) : modInt a m = a - m * ⌊(a : ℚ) / (m : ℚ)⌋ := by
  rw [Int.floor_div_cast_of_nonneg hm.le, Int.floor_intCast]
  exact Int.emod_def a m

/-- Settles O26: range and congruence from the laws of `modInt`, uniqueness by `eq_modInt_of_dvd_sub`, the
floor by `modInt_eq_sub_mul_floor`, the rule's four examples by evaluation. -/
theorem modIsTheFlooredModulus : Obligations.ModIsTheFlooredModulus := by
  unfold Obligations.ModIsTheFlooredModulus
  refine ⟨fun a m hm => ?_, by decide, by decide, by decide, by decide, Int.emod_one⟩
  exact ⟨modInt_nonneg a hm, modInt_lt a hm, dvd_sub_modInt a m, fun r => eq_modInt_of_dvd_sub,
    modInt_eq_sub_mul_floor a hm⟩

/-! ## MODRED -/

/-- Whether it ends in the error or not, MODRED leaves all but T and the result flags. -/
theorem reduceA_frame (neg : Bool) (s : State) :
    (reduceA neg s).regA = s.regA ∧ (reduceA neg s).regM = s.regM ∧ (reduceA neg s).regN = s.regN
      ∧ SameDigest s (reduceA neg s) ∧ SameKey s (reduceA neg s) ∧ SameSignature s (reduceA neg s)
      ∧ SameRng s (reduceA neg s) ∧ SameOutside s (reduceA neg s) := by
  obtain ⟨-, e⟩ | ⟨-, _, -, -, e⟩ := reduceA_cases neg s <;> rw [e] <;>
    exact ⟨rfl, rfl, rfl, ⟨rfl, rfl, rfl, rfl, rfl⟩, ⟨rfl, rfl, rfl, rfl, rfl⟩, ⟨rfl, rfl, rfl, rfl⟩, ⟨rfl, rfl⟩,
      e ▸ reduceA_outside neg s⟩

/-- Settles O32: the two endings by `reduceA_cases`, the residue by `dvd_sub_modInt`, the rest of the state by
`reduceA_frame`. -/
theorem modredWritesTheResidue : Obligations.ModredWritesTheResidue := by
  unfold Obligations.ModredWritesTheResidue
  intro neg s
  have hframe := reduceA_frame neg (beginCommand 0x21 s)
  obtain ⟨h0, e⟩ | ⟨h0, t, ht, hlt, e⟩ := reduceA_cases neg (beginCommand 0x21 s)
  · refine ⟨_, exec_modred neg s, fun hM => absurd h0 hM, fun _ => ?_, hframe⟩
    rw [e]
    exact ⟨⟨rfl, rfl, rfl, rfl, rfl, rfl⟩, rfl⟩
  · have hdvd : (s.regM : Int) ∣ operandA neg s - t := ht ▸ dvd_sub_modInt _ _
    refine ⟨_, exec_modred neg s, fun _ => ?_, fun hM => absurd hM h0, hframe⟩
    rw [e]
    exact ⟨⟨rfl, rfl, rfl, rfl, rfl, rfl⟩, hlt, hdvd⟩

end Sys2Proof.Proofs
end

section
/-!
PROOFS. The hash (spec/41_hash.md): the schedule of R133 and R134, the three forms of the digest of R140, HSTART
of R141 and HFINAL of R147.
-/
namespace Sys2Proof.Proofs

open Sys2Proof Sys2Proof.Machine

/-! ## The schedule -/

/-- The extension of a block's words has the sixteen words it needs to start from. -/
theorem splitWords_reverse_length {block : List Byte} (hb : block.length = 64) :
    (splitWords block).reverse.length = 16 := by
  rw [List.length_reverse, splitWords_length, hb]

theorem schedule_length {block : List Byte} (hb : block.length = 64) : (schedule block).length = 80 := by
  have h16 := splitWords_reverse_length hb
  obtain ⟨hlen, -, -⟩ := extendWords_spec 64 (splitWords block).reverse h16.ge
  rw [schedule, List.length_reverse, hlen, h16]

/-- The first sixteen words are those of the block (R133). -/
theorem schedule_getD_of_lt {block : List Byte} (hb : block.length = 64) {j : Nat} (hj : j < 16) :
    (schedule block).getD j 0 = be32 (block.getD (4 * j) 0) (block.getD (4 * j + 1) 0) (block.getD (4 * j + 2) 0)
      (block.getD (4 * j + 3) 0) := by
  have h16 := splitWords_reverse_length hb
  obtain ⟨-, hseed, -⟩ := extendWords_spec 64 (splitWords block).reverse h16.ge
  rw [schedule, hseed j (by omega), List.reverse_reverse, splitWords_getD block j (by omega)]

/-- The other sixty-four follow the recurrence (R134). -/
theorem schedule_getD_of_ge {block : List Byte} (hb : block.length = 64) {i : Nat} (hi : 16 ≤ i) (hi' : i < 80) :
    (schedule block).getD i 0 = rotl32 ((schedule block).getD (i - 3) 0 ^^^ (schedule block).getD (i - 8) 0
      ^^^ (schedule block).getD (i - 14) 0 ^^^ (schedule block).getD (i - 16) 0) 1 := by
  have h16 := splitWords_reverse_length hb
  obtain ⟨-, -, hrec⟩ := extendWords_spec 64 (splitWords block).reverse h16.ge
  exact hrec i (by omega) (by omega)

/-- A list is the table of its own entries. -/
theorem eq_map_range_getD {α : Type} (l : List α) (d : α) : l = (List.range l.length).map (l.getD · d) := by
  refine List.ext_getElem (by simp) fun i hi _ => ?_
  rw [List.getElem_map, List.getElem_range, List.getD_eq_getElem _ _ hi]

/-- Settles O36: `w i` is entry `i` of the schedule, a block word below 16 and the recurrence from there on. -/
theorem scheduleRecurrence : Obligations.ScheduleRecurrence := by
  unfold Obligations.ScheduleRecurrence
  intro block hb
  refine ⟨((schedule block).getD · 0), ?_, fun j hj => ?_, fun i => schedule_getD_of_ge hb⟩
  · rw [← schedule_length hb]
    exact eq_map_range_getD _ _
  · exact (congrArg BitVec.toNat (schedule_getD_of_lt hb hj)).trans (be32_toNat _ _ _ _)

/-! ## The forms of the digest -/

/-- The `n` lowest digits of `v` in base `b`, most significant first, read back by Horner's rule. -/
theorem foldl_range_digits (b n v : Nat) :
    (List.range n).foldl (fun a i => b * a + v / b ^ (n - 1 - i) % b) 0 = v % b ^ n := by
  induction n generalizing v with
  | zero => simp [Nat.mod_one]
  | succ n ih =>
    have hshift : ∀ a, ∀ i ∈ List.range n,
        b * a + v / b ^ (n + 1 - 1 - i) % b = b * a + v / b / b ^ (n - 1 - i) % b := by
      intro a i hi
      have hi := List.mem_range.1 hi
      rw [Nat.div_div_eq_div_mul, ← pow_succ', show n - 1 - i + 1 = n + 1 - 1 - i by omega]
    calc (List.range (n + 1)).foldl (fun a i => b * a + v / b ^ (n + 1 - 1 - i) % b) 0
        = b * (List.range n).foldl (fun a i => b * a + v / b ^ (n + 1 - 1 - i) % b) 0 + v % b := by
          simp [List.range_succ]
      _ = b * (v / b % b ^ n) + v % b := by rw [List.foldl_ext _ _ _ hshift, ih]
      _ = v % b ^ (n + 1) := by rw [pow_succ', Nat.mod_mul, Nat.add_comm]

/-- As `foldl_range_digits`, for digits written as symbols by `write` and read by `read`. -/
theorem foldl_map_digits {α : Type} {b : Nat} {write : Nat → α} {read : α → Nat}
    (h : ∀ x, read (write x) = x % b) (n v : Nat) :
    ((List.range n).map fun i => write (v / b ^ (n - 1 - i))).foldl (fun a x => b * a + read x) 0 = v % b ^ n := by
  simp only [List.foldl_map, h]
  exact foldl_range_digits b n v

theorem digestInt_eq_append (c : Chain) : digestInt c = (c.h0 ++ c.h1 ++ c.h2 ++ c.h3 ++ c.h4).toNat := by
  simp only [digestInt, toNat_append_eq]
  omega

theorem digestInt_lt (c : Chain) : digestInt c < 2 ^ 160 := by
  rw [digestInt_eq_append]
  exact BitVec.isLt _

theorem digestBytes_foldl (c : Chain) : (digestBytes c).foldl (fun v b => 256 * v + b.toNat) 0 = digestInt c :=
  (foldl_map_digits (fun x => BitVec.toNat_ofNat x 8) 20 (digestInt c)).trans (Nat.mod_eq_of_lt (digestInt_lt c))

theorem hexDigit_mem {d : Nat} (h : d < 16) : hexDigit d ∈ "0123456789abcdef".toList :=
  (by decide : ∀ d < 16, hexDigit d ∈ "0123456789abcdef".toList) d h

theorem idxOf_hexDigit {d : Nat} (h : d < 16) : "0123456789abcdef".toList.idxOf (hexDigit d) = d :=
  (by decide : ∀ d < 16, "0123456789abcdef".toList.idxOf (hexDigit d) = d) d h

theorem digestHex_foldl (c : Chain) :
    (digestHex c).foldl (fun v ch => 16 * v + "0123456789abcdef".toList.idxOf ch) 0 = digestInt c :=
  (foldl_map_digits (write := fun x => hexDigit (x % 16)) (read := ("0123456789abcdef".toList.idxOf ·))
    (fun x => idxOf_hexDigit (Nat.mod_lt x (by decide))) 40 (digestInt c)).trans (Nat.mod_eq_of_lt (digestInt_lt c))

/-- Settles O38: the bytes and the hexadecimal digits are the 20 and 40 lowest digits of an integer below
`2 ^ 160 = 256 ^ 20 = 16 ^ 40`, read back by `foldl_map_digits`. -/
theorem digestFormsAgree : Obligations.DigestFormsAgree := by
  unfold Obligations.DigestFormsAgree
  refine fun c => ⟨digestInt_eq_append c, digestInt_lt c, by simp [digestBytes], digestBytes_foldl c,
    by simp [digestHex], fun ch hch => ?_, digestHex_foldl c⟩
  obtain ⟨i, -, rfl⟩ := List.mem_map.1 hch
  exact hexDigit_mem (Nat.mod_lt _ (by decide))

/-! ## The frame of the hash commands -/

/-- A command that ends without error in new values of the hash unit alone leaves the rest of the state. -/
theorem frame_of_digest_update {op : Byte} {s t : State} {h : Chain} {mbuf : List Byte} {len : BitVec 64}
    {hashing dvalid : Bool}
    (e : t = { beginCommand op s with h := h, mbuf := mbuf, len := len, hashing := hashing, dvalid := dvalid }) :
    EndsClean op t ∧ SameArith s t ∧ t.regN = s.regN ∧ SameKey s t ∧ SameSignature s t ∧ SameRng s t
      ∧ SameOutside s t := by
  subst e
  exact ⟨⟨rfl, rfl, rfl, rfl, rfl, rfl⟩, ⟨rfl, rfl, rfl⟩, rfl, ⟨rfl, rfl, rfl, rfl, rfl⟩, ⟨rfl, rfl, rfl, rfl⟩,
    ⟨rfl, rfl⟩, ⟨rfl, rfl, rfl⟩⟩

/-- A command that reports an error at once changes the result flags alone. -/
theorem frame_of_raise (op : Byte) (e : Err) (s : State) :
    EndsInError op e (raise e (beginCommand op s)) ∧ SameDigest s (raise e (beginCommand op s))
      ∧ SameArith s (raise e (beginCommand op s)) ∧ (raise e (beginCommand op s)).regN = s.regN
      ∧ SameKey s (raise e (beginCommand op s)) ∧ SameSignature s (raise e (beginCommand op s))
      ∧ SameRng s (raise e (beginCommand op s)) ∧ SameOutside s (raise e (beginCommand op s)) :=
  ⟨⟨rfl, rfl, rfl, rfl, rfl, rfl⟩, ⟨rfl, rfl, rfl, rfl, rfl⟩, ⟨rfl, rfl, rfl⟩, rfl, ⟨rfl, rfl, rfl, rfl, rfl⟩,
    ⟨rfl, rfl, rfl, rfl⟩, ⟨rfl, rfl⟩, ⟨rfl, rfl, rfl⟩⟩

/-- Settles O39: `exec_hstart` writes the hash unit out, `frame_of_digest_update` gives the rest. -/
theorem hstartOpensACall : Obligations.HstartOpensACall := by
  unfold Obligations.HstartOpensACall
  intro s
  obtain ⟨hclean, hframe⟩ := frame_of_digest_update (op := 0x10) (s := s) rfl
  exact ⟨_, exec_hstart s, hclean, rfl, rfl, rfl, rfl, rfl, hframe⟩

/-! ## HFINAL -/

theorem padZeros_of_le {n : Nat} (h : n ≤ 55) : padZeros n = 55 - n := by rw [padZeros]; omega

theorem padZeros_of_gt {n : Nat} (h : 55 < n) (h' : n < 64) : padZeros n = 119 - n := by rw [padZeros]; omega

theorem be64_eq_map (l : BitVec 64) : be64 l = (List.range 8).map fun j => l.extractLsb' (56 - 8 * j) 8 := rfl

theorem finalTail_eq (s : State) :
    finalTail s = s.mbuf ++ [0x80] ++ List.replicate (padZeros s.mbuf.length) 0
      ++ (List.range 8).map (fun j => s.len.extractLsb' (56 - 8 * j) 8) := by
  rw [finalTail, padding, be64_eq_map, List.append_assoc, List.append_assoc, List.singleton_append]

theorem finalTail_length (s : State) : (finalTail s).length = s.mbuf.length + padZeros s.mbuf.length + 9 := by
  rw [finalTail, List.length_append, padding_length, Nat.add_assoc]

theorem finalChain_of_one_block {s : State} (h : (finalTail s).length = 64) :
    finalChain s = compress s.h (finalTail s) := by
  rw [finalChain, if_neg (by omega), List.take_of_length_le h.le]

theorem finalChain_of_two_blocks {s : State} (h : (finalTail s).length = 128) :
    finalChain s = compress (compress s.h ((finalTail s).take 64)) ((finalTail s).drop 64) := by
  rw [finalChain, if_pos h]

/-- One block up to 55 bytes held, two from 56 on. -/
theorem finalChain_blocks {s : State} (h : s.mbuf.length < 64) :
    if s.mbuf.length ≤ 55 then
      padZeros s.mbuf.length = 55 - s.mbuf.length ∧ (finalTail s).length = 64
        ∧ finalChain s = compress s.h (finalTail s)
    else
      padZeros s.mbuf.length = 119 - s.mbuf.length ∧ (finalTail s).length = 128
        ∧ finalChain s = compress (compress s.h ((finalTail s).take 64)) ((finalTail s).drop 64) := by
  split
  · next h55 =>
    have hz := padZeros_of_le h55
    have hlen : (finalTail s).length = 64 := by rw [finalTail_length]; omega
    exact ⟨hz, hlen, finalChain_of_one_block hlen⟩
  · next h55 =>
    have hz := padZeros_of_gt (Nat.lt_of_not_le h55) h
    have hlen : (finalTail s).length = 128 := by rw [finalTail_length]; omega
    exact ⟨hz, hlen, finalChain_of_two_blocks hlen⟩

theorem exec_hfinal_open {s : State} (h : s.hashing = true) :
    exec .hfinal s = .next { beginCommand 0x14 s with
      h := finalChain s, mbuf := [], hashing := false, dvalid := true } := by
  obtain ⟨h', -⟩ | ⟨-, e⟩ := finishHash_cases (beginCommand 0x14 s)
  · exact absurd (h.symm.trans h') (by decide)
  · rw [exec_hfinal, e]
    rfl

theorem exec_hfinal_closed {s : State} (h : s.hashing = false) :
    exec .hfinal s = .next (raise .sequenceError (beginCommand 0x14 s)) := by
  obtain ⟨-, e⟩ | ⟨h', -⟩ := finishHash_cases (beginCommand 0x14 s)
  · rw [exec_hfinal, e]
  · exact absurd (h.symm.trans h') (by decide)

/-- Settles O42: in an open call the tail is `finalTail`, compressed as `finalChain_blocks` says; with no open
call HFINAL is `frame_of_raise`. -/
theorem hfinalClosesTheCall : Obligations.HfinalClosesTheCall := by
  unfold Obligations.HfinalClosesTheCall
  refine ⟨fun s ho hb => ?_, fun s hc => ⟨_, exec_hfinal_closed hc, frame_of_raise 0x14 .sequenceError s⟩⟩
  obtain ⟨hclean, hframe⟩ := frame_of_digest_update (op := 0x14) (s := s) rfl
  exact ⟨_, _, finalTail s, exec_hfinal_open ho, hclean, finalTail_eq s, finalChain_blocks hb, rfl, rfl, rfl, rfl,
    hframe⟩

end Sys2Proof.Proofs
end

section
/-!
PROOFS. The signature unit (spec/42_signature.md): the fetch of the group order of R164, KEYLOAD of R167 and the
malformed signature of R172.
-/
namespace Sys2Proof.Proofs

open Sys2Proof Sys2Proof.Machine

/-! ## The group order -/

/-- The command is one that fetches the group order (42_signature.md R164), and it is in sequence
(43_control.md R204). -/
def FetchesOrder (i : Instr) (s : State) : Prop :=
  i = .keygen ∨ (i = .sign ∨ i = .verify) ∧ s.keyst = true ∧ s.dvalid = true

/-- An order that `fetchOrder` accepts is none that it refuses. -/
theorem not_bad_of_orderIs {p : Params} {n : Nat} (h : OrderIs p n) :
    ¬ (grpOrder p < 2 ∨ 2 ^ p.nbits ≤ grpOrder p) := by
  obtain ⟨he, h2, hlt⟩ := h
  have hlt' : grpOrder p < 2 ^ p.nbits := by rw [he]; exact_mod_cast hlt
  omega

/-- With a key and a digest SIGN and VERIFY are in sequence. -/
theorem not_missing_key_or_digest {s : State} (hk : s.keyst = true) (hd : s.dvalid = true) :
    ¬ (s.keyst = false ∨ s.dvalid = false) := by
  rw [hk, hd]
  decide

/-- A bad order ends the command at once. -/
theorem exec_of_bad_order {i : Instr} {s : State} (hf : FetchesOrder i s)
    (hbad : grpOrder s.cfg < 2 ∨ 2 ^ s.cfg.nbits ≤ grpOrder s.cfg) :
    exec i s = .next (raise .invalidModulus (beginCommand (lastopOf i) s)) := by
  have he (op : Byte) : fetchOrder (beginCommand op s) = .error .invalidModulus := fetchOrder_bad hbad
  obtain rfl | ⟨rfl | rfl, hk, hd⟩ := hf
  · rw [exec_keygen, generateKey, he]
    rfl
  · rw [exec_sign, signDigest, if_neg (not_missing_key_or_digest (s := beginCommand 0x32 s) hk hd), he]
    rfl
  · rw [exec_verify, verifyDigest, if_neg (not_missing_key_or_digest (s := beginCommand 0x33 s) hk hd), he]
    rfl

/-- With a good order the old N plays no part in what `fetchOrder` returns. -/
theorem fetchOrder_of_setN {s : State} {n : Nat} (ho : OrderIs s.cfg n) (v : Nat) :
    fetchOrder { s with regN := v } = .ok (n, { s with regN := n }) :=
  fetchOrder_ok (s := { s with regN := v }) ho

theorem generateKey_of_setN {s : State} {n : Nat} (ho : OrderIs s.cfg n) (v : Nat) :
    generateKey { s with regN := v } = generateKey s := by
  rw [generateKey, generateKey, fetchOrder_of_setN ho, fetchOrder_ok ho]

theorem signDigest_of_setN {s : State} {n : Nat} (ho : OrderIs s.cfg n) (hk : s.keyst = true) (hd : s.dvalid = true)
    (v : Nat) : signDigest { s with regN := v } = signDigest s := by
  have hs := not_missing_key_or_digest hk hd
  rw [signDigest, signDigest, if_neg hs, if_neg hs, fetchOrder_of_setN ho, fetchOrder_ok ho]

theorem verifyDigest_of_setN {s : State} {n : Nat} (ho : OrderIs s.cfg n) (hk : s.keyst = true)
    (hd : s.dvalid = true) (v : Nat) : verifyDigest { s with regN := v } = verifyDigest s := by
  have hs := not_missing_key_or_digest hk hd
  rw [verifyDigest, verifyDigest, if_neg hs, if_neg hs, fetchOrder_of_setN ho, fetchOrder_ok ho]

/-- The command goes on from the state that `fetchOrder` returns, so the old N plays no part in it. -/
theorem exec_of_setN {i : Instr} {s : State} {n : Nat} (hf : FetchesOrder i s) (ho : OrderIs s.cfg n) (v : Nat) :
    exec i { s with regN := v } = exec i s := by
  obtain rfl | ⟨rfl | rfl, hk, hd⟩ := hf
  · exact congrArg Host.Outcome.next (generateKey_of_setN (s := beginCommand 0x30 s) ho v)
  · exact congrArg Host.Outcome.next (signDigest_of_setN (s := beginCommand 0x32 s) ho hk hd v)
  · exact congrArg Host.Outcome.next (verifyDigest_of_setN (s := beginCommand 0x33 s) ho hk hd v)

/-- The loop of SIGN does not write N. -/
theorem signLoop_regN (n d h tries : Nat) (s : State) : (signLoop tries n d h s).regN = s.regN := by
  obtain ⟨_, -, ⟨_, -, e⟩ | ⟨_, _, -, -, -, -, -, e⟩⟩ := signLoop_cases n d h tries s <;> rw [e] <;> rfl

/-- A good order is in N when KEYGEN ends, whatever RNG answers. -/
theorem generateKey_regN {s : State} {n : Nat} (ho : OrderIs s.cfg n) : (generateKey s).regN = n := by
  obtain ⟨hbad, -⟩ | ⟨m, hm, ⟨-, e⟩ | ⟨_, -, -, -, e⟩⟩ := generateKey_cases s
  · exact absurd hbad (not_bad_of_orderIs ho)
  all_goals
    rw [e]
    exact hm.unique ho

theorem signDigest_regN {s : State} {n : Nat} (ho : OrderIs s.cfg n) (hk : s.keyst = true) (hd : s.dvalid = true) :
    (signDigest s).regN = n := by
  obtain ⟨hseq, -⟩ | ⟨-, -, ⟨hbad, -⟩ | ⟨m, hm, ⟨-, e⟩ | ⟨-, -, e⟩⟩⟩ := signDigest_cases s
  · exact absurd hseq (not_missing_key_or_digest hk hd)
  · exact absurd hbad (not_bad_of_orderIs ho)
  · rw [e]
    exact hm.unique ho
  · rw [e, signLoop_regN]
    exact hm.unique ho

theorem verifyDigest_regN {s : State} {n : Nat} (ho : OrderIs s.cfg n) (hk : s.keyst = true)
    (hd : s.dvalid = true) : (verifyDigest s).regN = n := by
  obtain ⟨hseq, -⟩ | ⟨-, -, ⟨hbad, -⟩ | ⟨m, hm, ⟨-, e⟩ | ⟨-, -, -, -, ⟨-, e⟩ | ⟨_, -, e⟩⟩⟩⟩ := verifyDigest_cases s
  · exact absurd hseq (not_missing_key_or_digest hk hd)
  · exact absurd hbad (not_bad_of_orderIs ho)
  all_goals
    rw [e]
    exact hm.unique ho

/-- A good order is in N when the command ends, also when it ends in a later error. -/
theorem exec_writes_order {i : Instr} {s : State} {n : Nat} (hf : FetchesOrder i s) (ho : OrderIs s.cfg n) :
    ∃ t, exec i s = .next t ∧ t.regN = n := by
  obtain rfl | ⟨rfl | rfl, hk, hd⟩ := hf
  · exact ⟨_, exec_keygen s, generateKey_regN ho⟩
  · exact ⟨_, exec_sign s, signDigest_regN ho hk hd⟩
  · exact ⟨_, exec_verify s, verifyDigest_regN ho hk hd⟩

/-- Settles O45: a bad order by `exec_of_bad_order`, a good one by `exec_writes_order` and
`exec_of_setN`. -/
theorem groupOrderIsFetchedAndChecked : Obligations.GroupOrderIsFetchedAndChecked := by
  unfold Obligations.GroupOrderIsFetchedAndChecked
  intro i s hf
  refine ⟨fun hbad => ?_, fun n ho => ?_⟩
  · obtain ⟨hends, hdigest, harith, hn, hkey, hsig, hrng, hout⟩ := frame_of_raise (lastopOf i) .invalidModulus s
    exact ⟨_, exec_of_bad_order hf hbad, hends, hn, hdigest, harith, hkey, hsig, hrng, hout⟩
  · obtain ⟨t, ht, hn⟩ := exec_writes_order hf ho
    exact ⟨t, ht, hn, fun v => (exec_of_setN hf ho v).trans ht⟩

/-! ## KEYLOAD -/

/-- Settles O47: the two endings are those of `loadKey_cases`; the error is `frame_of_raise`, and the accepted
key changes KEYST alone. -/
theorem keyloadValidatesThePublicKey : Obligations.KeyloadValidatesThePublicKey := by
  unfold Obligations.KeyloadValidatesThePublicKey
  intro s
  refine ⟨_, exec_keyload s, ?_⟩
  obtain ⟨hcurve, e⟩ | ⟨hcurve, e⟩ := loadKey_cases (beginCommand 0x31 s) <;> rw [e]
  · obtain ⟨hends, hdigest, harith, hn, ⟨hregD, hx, hy, hc, hkeyst⟩, hsig, hrng, hout⟩ :=
      frame_of_raise 0x31 .invalidPublicKey s
    exact ⟨fun h => absurd (h.symm.trans hcurve) (by decide), fun _ => ⟨hends, hkeyst⟩, hregD, hx, hy, hc, hn,
      hdigest, harith, hsig, hrng, hout⟩
  · exact ⟨fun _ => ⟨⟨rfl, rfl, rfl, rfl, rfl, rfl⟩, rfl⟩, fun h => absurd (h.symm.trans hcurve) (by decide), rfl, rfl,
      rfl, rfl, rfl, ⟨rfl, rfl, rfl, rfl, rfl⟩, ⟨rfl, rfl, rfl⟩, ⟨rfl, rfl, rfl, rfl⟩, ⟨rfl, rfl⟩, ⟨rfl, rfl, rfl⟩⟩

/-! ## The malformed signature -/

/-- In sequence and with a good order, VERIFY of an R or S out of range is MALF with N written. -/
theorem verifyDigest_of_malformed {s : State} {n : Nat} (ho : OrderIs s.cfg n) (hk : s.keyst = true)
    (hd : s.dvalid = true) (hbad : s.regR < 1 ∨ n - 1 < s.regR ∨ s.regS < 1 ∨ n - 1 < s.regS) :
    verifyDigest s = { s with regN := n, malf := true, vres := false } := by
  have hr : outOfRange n s.regR = true ∨ outOfRange n s.regS = true := by
    rwa [outOfRange_eq_true, outOfRange_eq_true, or_assoc]
  rw [verifyDigest, if_neg (not_missing_key_or_digest hk hd), fetchOrder_ok ho]
  exact if_pos hr

/-- Settles O55: `verifyDigest_of_malformed` writes out the whole state in which VERIFY ends. -/
theorem verifyRejectsAMalformedSignature : Obligations.VerifyRejectsAMalformedSignature := by
  unfold Obligations.VerifyRejectsAMalformedSignature
  intro s n ho hk hd hbad
  refine ⟨_, exec_verify s, ?_⟩
  rw [verifyDigest_of_malformed (s := beginCommand 0x33 s) ho hk hd hbad]
  exact ⟨rfl, rfl, rfl, rfl, rfl, rfl, rfl, ⟨rfl, rfl, rfl, rfl, rfl⟩, ⟨rfl, rfl, rfl⟩, ⟨rfl, rfl, rfl, rfl, rfl⟩,
    ⟨rfl, rfl, rfl, rfl⟩, ⟨rfl, rfl⟩, ⟨rfl, rfl, rfl⟩⟩

end Sys2Proof.Proofs
end

section
/-!
PROOFS. The command processor (spec/43_control.md): the illegal word of R203 and the sequencing table of R204. A
command out of sequence and an illegal word both end in a report of the error at once, whose frame is
`frame_of_raise`.
-/
namespace Sys2Proof.Proofs

open Sys2Proof Sys2Proof.Machine

/-! ## The illegal word -/

/-- A word that matches no row does not decode, so only its error is reported. -/
theorem executeCommand_of_illegal {c : Word} (h : wellFormedWord .cmd c = false) (s : State) :
    executeCommand c s = .next (raise .illegalCommand (beginCommand (c.extractLsb' 24 8) s)) := by
  rw [executeCommand]
  cases hd : decodeCmd c with
  | error e => rfl
  | ok i =>
    obtain ⟨-, hlegal, -⟩ := tableRowsAndDecoderAgree
    exact absurd (h.symm.trans ((hlegal c).2 ⟨i, hd⟩)) (by decide)

/-- Settles O7: the step is `executeCommand_of_illegal` on the state with the write taken, and `frame_of_raise` is
its frame. -/
theorem illegalWordOnlyReportsIllegalCommand : Obligations.IllegalWordOnlyReportsIllegalCommand := by
  unfold Obligations.IllegalWordOnlyReportsIllegalCommand
  refine ⟨fun s rest c hp hc => ?_, by decide, by decide, by decide⟩
  obtain ⟨hends, hdigest, harith, hn, hkey, hsig, hrng, hcfg, hpending, hresp⟩ :=
    frame_of_raise (c.extractLsb' 24 8) .illegalCommand { s with pending := rest, resp := some .okWrite }
  exact ⟨_, (step_cmdWrite hp).trans (executeCommand_of_illegal hc _), hends, hdigest, harith, hn, hkey, hsig, hrng,
    hcfg, hpending, hresp⟩

/-! ## The sequencing table -/

/-- What the sequencing table demands of a command that begins in `s`, its result flags cleared, and ends in `t`:
out of sequence it only raises SequenceError, in sequence it does not report it. -/
def EndsBySequence (outOfSeq : Bool) (s t : State) : Prop :=
  if outOfSeq then t = raise .sequenceError s else t.errcode ≠ Err.sequenceError.code

theorem endsBySequence_of_raise (s t : State) {e : Err} (he : e ≠ .sequenceError) :
    EndsBySequence false s (raise e t) :=
  mt (code_inj e .sequenceError).1 he

theorem endsBySequence_of_no_error (s : State) {t : State} (h : t.errcode = 0) : EndsBySequence false s t := by
  intro he
  exact code_ne_zero .sequenceError (he.symm.trans h)

/-- The condition of R204 on SIGN and VERIFY. -/
theorem outOfSeq_of_missing {s : State} (h : s.keyst = false ∨ s.dvalid = false) :
    (!(s.keyst && s.dvalid)) = true := by
  obtain h | h := h <;> simp [h]

section
variable {s : State} (h0 : s.errcode = 0)
include h0

/-- A push checks HASHING first. -/
theorem appendBytes_sequence (bs : List Byte) : EndsBySequence (!s.hashing) s (appendBytes bs s) := by
  obtain ⟨hh, e⟩ | ⟨hh, -, e⟩ | ⟨hh, -, e⟩ := appendBytes_cases bs s <;> rw [hh, e]
  · exact rfl
  · exact endsBySequence_of_raise _ _ (by decide)
  · obtain ⟨_, _, _, e'⟩ := foldl_appendByte_eq bs s
    rw [e']
    exact endsBySequence_of_no_error _ h0

theorem finishHash_sequence : EndsBySequence (!s.hashing) s (finishHash s) := by
  obtain ⟨hh, e⟩ | ⟨hh, e⟩ := finishHash_cases s <;> rw [hh, e]
  · exact rfl
  · exact endsBySequence_of_no_error _ h0

theorem invertA_sequence (neg : Bool) : EndsBySequence false s (invertA neg s) := by
  obtain ⟨e, he, -, eq⟩ | ⟨_, -, -, eq⟩ := invertA_cases neg s <;> rw [eq]
  · exact endsBySequence_of_raise _ _ (by rintro rfl; exact absurd he (by decide))
  · exact endsBySequence_of_no_error _ h0

theorem reduceA_sequence (neg : Bool) : EndsBySequence false s (reduceA neg s) := by
  obtain ⟨-, e⟩ | ⟨-, _, -, -, e⟩ := reduceA_cases neg s <;> rw [e]
  · exact endsBySequence_of_raise _ _ (by decide)
  · exact endsBySequence_of_no_error _ h0

theorem generateKey_sequence : EndsBySequence false s (generateKey s) := by
  obtain ⟨-, e⟩ | ⟨_, -, ⟨-, e⟩ | ⟨_, -, -, -, e⟩⟩ := generateKey_cases s <;> rw [e]
  · exact endsBySequence_of_raise _ _ (by decide)
  · exact endsBySequence_of_raise _ _ (by decide)
  · exact endsBySequence_of_no_error _ h0

theorem loadKey_sequence : EndsBySequence false s (loadKey s) := by
  obtain ⟨-, e⟩ | ⟨-, e⟩ := loadKey_cases s <;> rw [e]
  · exact endsBySequence_of_raise _ _ (by decide)
  · exact endsBySequence_of_no_error _ h0

/-- The loop of SIGN reports errors of its own, none of them SequenceError. -/
theorem signLoop_sequence (n d h tries : Nat) (u : State) : EndsBySequence false u (signLoop tries n d h s) := by
  obtain ⟨_, -, ⟨e, he, eq⟩ | ⟨_, _, -, -, -, -, -, eq⟩⟩ := signLoop_cases n d h tries s <;> rw [eq]
  · exact endsBySequence_of_raise _ _ (by rintro rfl; exact absurd he (by decide))
  · exact endsBySequence_of_no_error _ h0

/-- SIGN checks KEYST and DVALID first. -/
theorem signDigest_sequence : EndsBySequence (!(s.keyst && s.dvalid)) s (signDigest s) := by
  obtain ⟨hseq, e⟩ | ⟨hk, hd, hrest⟩ := signDigest_cases s
  · rw [e, outOfSeq_of_missing hseq]
    exact rfl
  · rw [hk, hd]
    obtain ⟨-, e⟩ | ⟨n, -, ⟨-, e⟩ | ⟨-, -, e⟩⟩ := hrest <;> rw [e]
    · exact endsBySequence_of_raise _ _ (by decide)
    · exact endsBySequence_of_raise _ _ (by decide)
    · exact signLoop_sequence (s := { s with regN := n }) h0 n s.regD (digestInt s.h) s.cfg.retryCap s

/-- VERIFY checks KEYST and DVALID first. -/
theorem verifyDigest_sequence : EndsBySequence (!(s.keyst && s.dvalid)) s (verifyDigest s) := by
  obtain ⟨hseq, e⟩ | ⟨hk, hd, hrest⟩ := verifyDigest_cases s
  · rw [e, outOfSeq_of_missing hseq]
    exact rfl
  · rw [hk, hd]
    obtain ⟨-, e⟩ | ⟨_, -, ⟨-, e⟩ | ⟨-, -, -, -, ⟨-, e⟩ | ⟨_, -, e⟩⟩⟩ := hrest <;> rw [e]
    · exact endsBySequence_of_raise _ _ (by decide)
    · exact endsBySequence_of_no_error _ h0
    · exact endsBySequence_of_raise _ _ (by decide)
    · exact endsBySequence_of_no_error _ h0

end

theorem outOfSequence_push {i : Instr} {bs : List Byte} (h : pushedBytes i = some bs) (s : State) :
    outOfSequence i s = !s.hashing := by
  cases i <;> cases h <;> rfl

/-- Every command ends as the table of R204 says. -/
theorem exec_sequence (i : Instr) (s : State) :
    ∃ t, exec i s = .next t ∧ EndsBySequence (outOfSequence i s) (beginCommand (lastopOf i) s) t := by
  obtain ⟨bs, h⟩ | rfl | rfl | rfl | ⟨neg, rfl⟩ | ⟨neg, rfl⟩ | rfl | rfl | rfl | rfl := instr_cases i
  · refine ⟨_, exec_push h s, ?_⟩
    rw [outOfSequence_push h, lastopOf_push h]
    exact appendBytes_sequence (s := beginCommand _ s) rfl bs
  · exact ⟨_, exec_srst s, endsBySequence_of_no_error _ rfl⟩
  · exact ⟨_, exec_hstart s, endsBySequence_of_no_error _ rfl⟩
  · exact ⟨_, exec_hfinal s, finishHash_sequence (s := beginCommand 0x14 s) rfl⟩
  · exact ⟨_, exec_modinv neg s, invertA_sequence (s := beginCommand 0x20 s) rfl neg⟩
  · exact ⟨_, exec_modred neg s, reduceA_sequence (s := beginCommand 0x21 s) rfl neg⟩
  · exact ⟨_, exec_keygen s, generateKey_sequence (s := beginCommand 0x30 s) rfl⟩
  · exact ⟨_, exec_keyload s, loadKey_sequence (s := beginCommand 0x31 s) rfl⟩
  · exact ⟨_, exec_sign s, signDigest_sequence (s := beginCommand 0x32 s) rfl⟩
  · exact ⟨_, exec_verify s, verifyDigest_sequence (s := beginCommand 0x33 s) rfl⟩

/-- An open call holds no digest (10_state.md R25). -/
theorem dvalid_of_hashing {s : State} (hl : Legal s) (h : s.hashing = true) : s.dvalid = false := by
  cases hd : s.dvalid with
  | false => rfl
  | true => exact absurd (h.symm.trans (hl.oneHashState hd)) (by decide)

/-- Settles O22: the two endings of `exec_sequence`, the error with the frame of `frame_of_raise`; an open call by
`dvalid_of_hashing`. -/
theorem sequenceErrorByState : Obligations.SequenceErrorByState := by
  unfold Obligations.SequenceErrorByState
  refine ⟨fun i s => ?_, fun s hl ho => ?_, fun s => ⟨_, exec_hstart s, rfl, rfl, rfl, rfl⟩⟩
  · obtain ⟨t, ht, hend⟩ := exec_sequence i s
    refine ⟨t, ht, ?_⟩
    cases hseq : outOfSequence i s <;> rw [hseq] at hend
    case false => exact ⟨⟨fun he => absurd he hend, nofun⟩, nofun⟩
    case true =>
      obtain rfl : t = raise .sequenceError (beginCommand (lastopOf i) s) := hend
      exact ⟨⟨fun _ => rfl, fun _ => rfl⟩, fun _ => frame_of_raise (lastopOf i) .sequenceError s⟩
  · simp only [outOfSequence, dvalid_of_hashing hl ho, Bool.and_false, Bool.not_false, and_self]

end Sys2Proof.Proofs
end

section
/-!
PROOFS. The errors (spec/60_exceptions.md): what a command that ends in error leaves, R221. A command reports an
error either before it has written anything, or after the group order has passed its check.
-/
namespace Sys2Proof.Proofs

open Sys2Proof Sys2Proof.Machine

/-! ## The ways a command ends -/

/-- The errors that KEYGEN, SIGN and VERIFY report after the group order has passed its check. -/
def lateErrors : List Err := [.rngFailure, .keyRange, .noInverseExists, .retryExhausted]

theorem mem_lateErrors_iff (e : Err) : e ∈ lateErrors ↔
    e.code = Err.rngFailure.code ∨ e.code = Err.keyRange.code ∨ e.code = Err.noInverseExists.code
      ∨ e.code = Err.retryExhausted.code := by
  simp [lateErrors]

/-- How a command that begins in `s`, its result flags cleared, ends. -/
inductive Ending (i : Instr) (s : State) : State → Prop where
  | clean {t : State} (h : t.errf = false) : Ending i s t
  /-- The error comes before any other write. Of the late errors only MODINV reports one so. -/
  | atOnce (e : Err) (he : e ∈ lateErrors → e = .noInverseExists ∧ ∃ neg, i = .modinv neg) : Ending i s (raise e s)
  /-- The error comes when N holds the order `n` and RNG has answered `m` draws. -/
  | afterOrder (e : Err) (n m : Nat) (hi : i = .keygen ∨ i = .sign ∨ i = .verify) (he : e ∈ lateErrors)
      (ho : OrderIs s.cfg n) (hdraws : i ≠ .keygen → i ≠ .sign → m = 0)
      (hm : e = .rngFailure ∨ e = .retryExhausted → s.cfg.legal = true → 1 ≤ m) :
      Ending i s (raise e (afterDraws m { s with regN := n }))

/-- An error that is not a late one may come at once. -/
theorem Ending.early {i : Instr} {s : State} {e : Err} (he : e ∉ lateErrors) : Ending i s (raise e s) :=
  .atOnce e fun h => absurd h he

/-! ## The draws of SIGN -/

theorem signLoop_drawCount_le (n d h tries : Nat) (s : State) :
    s.drawCount ≤ (signLoop tries n d h s).drawCount := by
  obtain ⟨m, -, ⟨_, -, e⟩ | ⟨_, _, -, -, -, -, -, e⟩⟩ := signLoop_cases n d h tries s <;> rw [e] <;>
    exact Nat.le_add_right s.drawCount m

/-- A loop with an iteration left makes a draw, however it ends. -/
theorem lt_signLoop_drawCount (n d h tries : Nat) (s : State) :
    s.drawCount < (signLoop (tries + 1) n d h s).drawCount := by
  rw [signLoop]
  cases checkDraw n (rngAnswer s n) with
  | error e => exact Nat.lt_succ_self _
  | ok k =>
    dsimp only
    cases tryNonce s.cfg n d h k with
    | degenerate => exact signLoop_drawCount_le n d h tries (afterDraw s)
    | failed e => exact Nat.lt_succ_self _
    | signature r sv => exact Nat.lt_succ_self _

theorem one_le_retryCap {p : Params} (h : p.legal = true) : 1 ≤ p.retryCap := by
  simp only [Params.legal, Bool.and_eq_true, decide_eq_true_eq] at h
  omega

/-! ## The ending of each command -/

section
variable {s : State} (h0 : s.errf = false)
include h0

theorem appendBytes_ending (i : Instr) (bs : List Byte) : Ending i s (appendBytes bs s) := by
  obtain ⟨-, e⟩ | ⟨-, -, e⟩ | ⟨-, -, e⟩ := appendBytes_cases bs s <;> rw [e]
  · exact .early (by decide)
  · exact .early (by decide)
  · obtain ⟨_, _, _, e'⟩ := foldl_appendByte_eq bs s
    rw [e']
    exact .clean h0

theorem finishHash_ending (i : Instr) : Ending i s (finishHash s) := by
  obtain ⟨-, e⟩ | ⟨-, e⟩ := finishHash_cases s <;> rw [e]
  · exact .early (by decide)
  · exact .clean h0

/-- MODINV reports NoInverseExists, but fetches no order. -/
theorem invertA_ending (neg : Bool) : Ending (.modinv neg) s (invertA neg s) := by
  obtain ⟨e, he, -, eq⟩ | ⟨_, -, -, eq⟩ := invertA_cases neg s <;> rw [eq]
  · have hlate : ∀ e ∈ [Err.invalidModulus, .divisionByZero, .noInverseExists],
        e ∈ lateErrors → e = .noInverseExists := by decide
    exact .atOnce e fun h => ⟨hlate e he h, neg, rfl⟩
  · exact .clean h0

theorem reduceA_ending (i : Instr) (neg : Bool) : Ending i s (reduceA neg s) := by
  obtain ⟨-, e⟩ | ⟨-, _, -, -, e⟩ := reduceA_cases neg s <;> rw [e]
  · exact .early (by decide)
  · exact .clean h0

/-- A draw that fails is gone. -/
theorem generateKey_ending : Ending .keygen s (generateKey s) := by
  obtain ⟨-, e⟩ | ⟨n, ho, ⟨-, e⟩ | ⟨_, -, -, -, e⟩⟩ := generateKey_cases s <;> rw [e]
  · exact .early (by decide)
  · rw [← afterDraws_zero (afterDraw _), afterDraws_afterDraw]
    exact .afterOrder .rngFailure n 1 (.inl rfl) (by decide) ho (fun hk _ => absurd rfl hk) fun _ _ => le_rfl
  · exact .clean h0

theorem loadKey_ending (i : Instr) : Ending i s (loadKey s) := by
  obtain ⟨-, e⟩ | ⟨-, e⟩ := loadKey_cases s <;> rw [e]
  · exact .early (by decide)
  · exact .clean h0

/-- The loop of SIGN starts when N holds the order; RETRY_CAP is at least 1, so it makes a draw. -/
theorem signLoop_ending {n : Nat} (ho : OrderIs s.cfg n) (d h : Nat) :
    Ending .sign s (signLoop s.cfg.retryCap n d h { s with regN := n }) := by
  obtain ⟨m, -, ⟨e, he, eq⟩ | ⟨_, _, -, -, -, -, -, eq⟩⟩ := signLoop_cases n d h s.cfg.retryCap { s with regN := n }
  · have hlate : ∀ e ∈ [Err.rngFailure, .noInverseExists, .retryExhausted], e ∈ lateErrors := by decide
    have hm (hl : s.cfg.legal = true) : 1 ≤ m := by
      obtain ⟨tries, htries⟩ := Nat.exists_eq_add_of_le' (one_le_retryCap hl)
      have hlt := lt_signLoop_drawCount n d h tries { s with regN := n }
      rw [← htries, eq] at hlt
      exact Nat.pos_of_lt_add_right hlt
    rw [eq]
    exact .afterOrder e n m (.inr (.inl rfl)) (hlate e he) ho (fun _ hs => absurd rfl hs) fun _ => hm
  · rw [eq]
    exact .clean h0

theorem signDigest_ending : Ending .sign s (signDigest s) := by
  obtain ⟨-, e⟩ | ⟨-, -, ⟨-, e⟩ | ⟨n, ho, ⟨-, e⟩ | ⟨-, -, e⟩⟩⟩ := signDigest_cases s <;> rw [e]
  · exact .early (by decide)
  · exact .early (by decide)
  · exact .afterOrder .keyRange n 0 (.inr (.inl rfl)) (by decide) ho (fun _ _ => rfl) nofun
  · exact signLoop_ending h0 ho s.regD (digestInt s.h)

theorem verifyDigest_ending : Ending .verify s (verifyDigest s) := by
  obtain ⟨-, e⟩ | ⟨-, -, ⟨-, e⟩ | ⟨n, ho, ⟨-, e⟩ | ⟨-, -, -, -, ⟨-, e⟩ | ⟨_, -, e⟩⟩⟩⟩ := verifyDigest_cases s <;>
    rw [e]
  · exact .early (by decide)
  · exact .early (by decide)
  · exact .clean h0
  · exact .afterOrder .noInverseExists n 0 (.inr (.inr rfl)) (by decide) ho (fun _ _ => rfl) nofun
  · exact .clean h0

end

/-- Every command ends in one of the three ways. -/
theorem exec_ending {i : Instr} {s t : State} (h : exec i s = .next t) : ∃ op, Ending i (beginCommand op s) t := by
  cases i <;> cases h
  case srst => exact ⟨0x01, .clean rfl⟩
  case hstart => exact ⟨0x10, .clean rfl⟩
  case hpush1 | hpush2 | hpush3 | hpush4 => exact ⟨_, appendBytes_ending (s := beginCommand _ s) rfl _ _⟩
  case hfinal => exact ⟨_, finishHash_ending (s := beginCommand _ s) rfl _⟩
  case modinv neg => exact ⟨_, invertA_ending (s := beginCommand _ s) rfl neg⟩
  case modred neg => exact ⟨_, reduceA_ending (s := beginCommand _ s) rfl _ neg⟩
  case keygen => exact ⟨_, generateKey_ending (s := beginCommand _ s) rfl⟩
  case keyload => exact ⟨_, loadKey_ending (s := beginCommand _ s) rfl _⟩
  case sign => exact ⟨_, signDigest_ending (s := beginCommand _ s) rfl⟩
  case verify => exact ⟨_, verifyDigest_ending (s := beginCommand _ s) rfl⟩

/-! ## The statement -/

/-- Settles O21: the endings of `exec_ending`. An error at once has the frame of `frame_of_raise`; one after the
order has passed its check also writes N and takes the draws. -/
theorem errorsArePrecise : Obligations.ErrorsArePrecise := by
  unfold Obligations.ErrorsArePrecise
  refine ⟨fun i s t h herr => ?_, fun c s t h => ?_⟩
  · obtain ⟨op, hend⟩ := exec_ending h
    cases hend with
    | clean hclean => exact absurd (herr.symm.trans hclean) (by decide)
    | atOnce e he =>
      obtain ⟨-, hdigest, harith, hn, hkey, hsig, hrng, hout⟩ := frame_of_raise op e s
      refine ⟨hdigest, harith, hkey, hsig, hout, ?_, fun _ _ => hrng, 0, rfl, rfl, fun hcode _ => ?_⟩
      · refine (if_neg ?_).mpr hn
        rintro ⟨hi, hcode⟩
        obtain ⟨-, neg, rfl⟩ := he ((mem_lateErrors_iff e).2 hcode)
        simp at hi
      · rw [raise_errcode, code_inj, code_inj] at hcode
        obtain rfl | rfl := hcode <;> exact absurd (he (by decide)).1 (by decide)
    | afterOrder e n m hi he ho hdraws hm =>
      refine ⟨⟨rfl, rfl, rfl, rfl, rfl⟩, ⟨rfl, rfl, rfl⟩, ⟨rfl, rfl, rfl, rfl, rfl⟩, ⟨rfl, rfl, rfl, rfl⟩,
        ⟨rfl, rfl, rfl⟩, ?_, fun hk hs => ?_, m, rfl, rfl, fun hcode => ?_⟩
      · rw [if_pos ⟨hi, (mem_lateErrors_iff e).1 he⟩]
        exact ho.1.symm
      · rw [hdraws hk hs]
        exact ⟨rfl, rfl⟩
      · rw [raise_errcode, code_inj, code_inj] at hcode
        exact hm hcode
  · cases h
    obtain ⟨-, hdigest, harith, hn, hkey, hsig, hrng, hout⟩ :=
      frame_of_raise (c.extractLsb' 24 8) .illegalCommand s
    exact ⟨hdigest, harith, hkey, hsig, hout, hn, hrng⟩

end Sys2Proof.Proofs
end

section
/-!
PROOFS. The command encoding (spec/30_encoding.md): encoding and decoding are inverse to each other. A word is the
concatenation of the fields of its format, so equal words have equal fields and equal fields make equal words. Then
the step on the write of a command word (spec/43_control.md R200).
-/
namespace Sys2Proof.Proofs

open Sys2Proof Sys2Proof.Machine

/-! ## The fields of each format -/

/-- Format Z (R91). -/
theorem fields_formatZ (c : Word) : opField c ++ c.extractLsb' 0 24 = c :=
  BitVec.extractLsb'_append_extractLsb' (w := 8) (len := 24)

/-- Format B1 (R92); the words of B2, B3 and P are made of whole bytes, `bytes_of_fields`. -/
theorem fields_formatB1 (c : Word) : opField c ++ c.extractLsb' 8 16 ++ field0 c = c := by
  have h := c.isLt
  apply BitVec.eq_of_toNat_eq
  simp only [opField, field0, toNat_extract_eq, toNat_append_eq]
  omega

/-- Format S (R93). -/
theorem fields_formatS (c : Word) : opField c ++ c.extractLsb' 1 23 ++ BitVec.ofBool (c.getLsbD 0) = c := by
  have h := c.isLt
  have hbit : (BitVec.ofBool (c.getLsbD 0)).toNat = c.toNat % 2 := by
    rw [BitVec.toNat_ofBool, BitVec.getLsbD, Nat.toNat_testBit, Nat.pow_zero, Nat.div_one]
  apply BitVec.eq_of_toNat_eq
  simp only [opField, toNat_extract_eq, toNat_append_eq, hbit]
  omega

/-! ## Decoding an encoding -/

theorem decodeCmd_of_hpush1 {c : Word} (hop : opField c = 0x11) (hzero : c.extractLsb' 8 16 = 0) :
    decodeCmd c = .ok (.hpush1 (field0 c)) := by
  simp [decodeCmd, whenZero, hop, hzero]

theorem decodeCmd_of_hpush2 {c : Word} (hop : opField c = 0x12) (hzero : field2 c = 0) :
    decodeCmd c = .ok (.hpush2 (field1 c) (field0 c)) := by
  rw [field2] at hzero
  simp [decodeCmd, whenZero, hop, hzero]

theorem decodeCmd_of_hpush3 {c : Word} (hop : opField c = 0x13) :
    decodeCmd c = .ok (.hpush3 (field2 c) (field1 c) (field0 c)) := by
  simp [decodeCmd, hop]

/-- Settles O1: the words of formats Z and S are finitely many and decode by evaluation; those of the pushes have
the fields they were made of. -/
theorem decodeOfEncodeIsTheInstruction : Obligations.DecodeOfEncodeIsTheInstruction := by
  unfold Obligations.DecodeOfEncodeIsTheInstruction
  intro i
  cases i
  case srst | hstart | hfinal | keygen | keyload | sign | verify => rfl
  case modinv neg | modred neg => cases neg <;> rfl
  case hpush1 b0 =>
    have hfields := fields_formatB1 (encode (.hpush1 b0)).2
    rw [show (encode (.hpush1 b0)).2 = (0x11 : Byte) ++ (0 : BitVec 16) ++ b0 from rfl, append_eq_append_iff,
      append_eq_append_iff] at hfields
    obtain ⟨⟨hop, hzero⟩, h0⟩ := hfields
    exact (decodeCmd_of_hpush1 hop hzero).trans (by rw [h0])
  case hpush2 b0 b1 =>
    obtain ⟨hop, hzero, h0, h1⟩ := fields_of_bytes 0x12 0 b0 b1
    exact (decodeCmd_of_hpush2 hop hzero).trans (by rw [h0, h1])
  case hpush3 b0 b1 b2 =>
    obtain ⟨hop, h0, h1, h2⟩ := fields_of_bytes 0x13 b0 b1 b2
    exact (decodeCmd_of_hpush3 hop).trans (by rw [h0, h1, h2])
  case hpush4 b0 b1 b2 b3 =>
    obtain ⟨h0, h1, h2, h3⟩ := fields_of_bytes b0 b1 b2 b3
    rw [encode, decode, decodeMsgw, h0, h1, h2, h3]

/-! ## Encoding what was decoded -/

/-- One branch of the decoder: its command's word is the word decoded. -/
theorem encode_of_branch {c : Word} {op : Byte} {b : Bool} {i j : Instr} {rest : Except Illegal Instr}
    (hword : opField c = op → b = true → encode j = (.cmd, c)) (hrest : rest = .ok i → encode i = (.cmd, c))
    (h : (if opField c = op then whenZero b j else rest) = .ok i) : encode i = (.cmd, c) := by
  rcases ite_eq_iff.1 h with ⟨hop, h⟩ | ⟨-, h⟩
  · obtain ⟨hb, rfl⟩ := whenZero_eq_ok_iff.1 h
    exact hword hop hb
  · exact hrest h

/-- The word of format Z that has the opcode of `c` is `c`, when the other 24 bits of `c` are 0. -/
theorem formatZ_eq {c : Word} {op : Byte} (hop : opField c = op) (hzero : decide (c.extractLsb' 0 24 = 0) = true) :
    (Port.cmd, formatZ op) = (Port.cmd, c) := by
  rw [formatZ, ← hop, ← of_decide_eq_true hzero, fields_formatZ]

/-- As `formatZ_eq`, for format S. -/
theorem formatS_eq {c : Word} {op : Byte} (hop : opField c = op)
    (hzero : decide ((c.extractLsb' 0 24).extractLsb' 1 23 = 0) = true) :
    (Port.cmd, formatS op (c.getLsbD 0)) = (Port.cmd, c) := by
  have hz := of_decide_eq_true hzero
  rw [BitVec.extractLsb'_extractLsb'_of_le (by decide)] at hz
  rw [formatS, ← hop, ← hz, fields_formatS]

/-- The twelve branches of the decoder, in its order. -/
theorem encode_of_decodeCmd {c : Word} {i : Instr} (h : decodeCmd c = .ok i) : encode i = (.cmd, c) := by
  refine encode_of_branch (op := 0x01) formatZ_eq (fun h => ?_) h
  refine encode_of_branch (op := 0x10) formatZ_eq (fun h => ?_) h
  refine encode_of_branch (op := 0x11) (fun hop hzero => ?_) (fun h => ?_) h
  · have hz := of_decide_eq_true hzero
    rw [BitVec.extractLsb'_extractLsb'_of_le (by decide)] at hz
    rw [encode, ← hop, ← hz, fields_formatB1]
  refine encode_of_branch (op := 0x12) (fun hop hzero => ?_) (fun h => ?_) h
  · have hz := of_decide_eq_true hzero
    rw [BitVec.extractLsb'_extractLsb'_of_le (by decide)] at hz
    rw [encode, ← hop, ← hz]
    exact congrArg _ (bytes_of_fields c)
  refine encode_of_branch (op := 0x13) (b := true) (fun hop _ => ?_) (fun h => ?_) h
  · rw [encode, ← hop, bytes_of_fields]
  refine encode_of_branch (op := 0x14) formatZ_eq (fun h => ?_) h
  refine encode_of_branch (op := 0x20) formatS_eq (fun h => ?_) h
  refine encode_of_branch (op := 0x21) formatS_eq (fun h => ?_) h
  refine encode_of_branch (op := 0x30) formatZ_eq (fun h => ?_) h
  refine encode_of_branch (op := 0x31) formatZ_eq (fun h => ?_) h
  refine encode_of_branch (op := 0x32) formatZ_eq (fun h => ?_) h
  refine encode_of_branch (op := 0x33) formatZ_eq (fun h => ?_) h
  cases h

/-- Settles O2: `encode_of_decodeCmd` for CMD; a word of MSGW is its four bytes. -/
theorem encodeOfDecodeIsTheWord : Obligations.EncodeOfDecodeIsTheWord := by
  unfold Obligations.EncodeOfDecodeIsTheWord
  intro p c i h
  cases p with
  | cmd => exact encode_of_decodeCmd h
  | msgw =>
    cases h
    rw [decodeMsgw, encode, bytes_of_fields]

/-- Settles O4: nine words, by evaluation. -/
theorem wordsWrittenOutDecode : Obligations.WordsWrittenOutDecode := by
  unfold Obligations.WordsWrittenOutDecode
  decide

/-! ## The step on a command word -/

/-- Settles O5: the two ports by `step_cmdWrite` and `step_msgwWrite`. -/
theorem stepRunsTheDecodedCommand : Obligations.StepRunsTheDecodedCommand := by
  unfold Obligations.StepRunsTheDecodedCommand
  intro s rest p c i hp hd
  cases p with
  | cmd =>
    rw [decode] at hd
    rw [step_cmdWrite hp, executeCommand, hd]
  | msgw =>
    cases hd
    exact step_msgwWrite hp

/-- Settles O6: the placed write is the first event, and it decodes to the instruction of the table word. -/
theorem placedTableWordRunsNext : Obligations.PlacedTableWordRunsNext := by
  unfold Obligations.PlacedTableWordRunsNext
  intro s nbits w i h
  rw [decodeTableWord] at h
  cases hd : decode (portOfTableWord (tableWord nbits w)) (tableWord nbits w) with
  | error e => rw [hd] at h; cases h
  | ok j =>
    rw [hd] at h
    cases h
    exact stepRunsTheDecodedCommand (s.withFetchWord nbits w) s.pending _ _ _ rfl hd

end Sys2Proof.Proofs
end

section
/-!
PROOFS. What a command does to the state, said once for all commands: `Effect`. The rules of every command
(spec/10_state.md R21 to R37, spec/60_exceptions.md R212) are read off its cases.
-/
namespace Sys2Proof.Proofs

open Sys2Proof Sys2Proof.Machine

/-! ## The effects of the commands -/

/-- The state in which a command ends, from the state `s` in which it begins with its result flags cleared. -/
inductive Effect (s : State) : Instr → State → Prop where
  | softReset : Effect s .srst { resetCore s with lastop := 0x01 }
  | opened : Effect s .hstart { s with h := hInit, mbuf := [], len := 0, hashing := true, dvalid := false }
  | pushed {i : Instr} {bs : List Byte} {h : Chain} {mbuf : List Byte} {len : BitVec 64}
      (ho : s.hashing = true) (hlen : s.len.toNat + 8 * bs.length < 2 ^ 64)
      (e : bs.foldl appendByte s = { s with h := h, mbuf := mbuf, len := len }) (hbs : pushedBytes i = some bs) :
      Effect s i { s with h := h, mbuf := mbuf, len := len }
  | closed (ho : s.hashing = true) :
      Effect s .hfinal { s with h := finalChain s, mbuf := [], hashing := false, dvalid := true }
  | computed {i : Instr} (t : Nat) (neg : Bool) (ht : t < s.regM) (hi : i = .modinv neg ∨ i = .modred neg) :
      Effect s i { s with regT := t }
  | keyMade (n d : Nat) (ho : OrderIs s.cfg n) (hd : d ≤ n - 1) :
      Effect s .keygen (setKeyPair d (grpScalarMultiply s.cfg d (grpBasePoint s.cfg)) (afterDraw { s with regN := n }))
  | keyAccepted : Effect s .keyload { s with keyst := true }
  | signed (n m r sv : Nat) (ho : OrderIs s.cfg n) (hm : 1 ≤ m) (hcap : m ≤ s.cfg.retryCap) (hr : 1 ≤ r)
      (hrn : r ≤ n - 1) (hs : 1 ≤ sv) (hsn : sv ≤ n - 1) :
      Effect s .sign (setSignature r sv (afterDraws m { s with regN := n }))
  | malformed (n : Nat) (ho : OrderIs s.cfg n) : Effect s .verify { s with regN := n, malf := true, vres := false }
  | answered (n : Nat) (v : Bool) (ho : OrderIs s.cfg n) : Effect s .verify { s with regN := n, vres := v }
  | failed {i : Instr} (e : Err) (he : e ∈ possibleErrors i) : Effect s i (raise e s)
  | failedLate {i : Instr} (e : Err) (n m : Nat) (ho : OrderIs s.cfg n)
      (hi : i = .keygen ∨ i = .sign ∨ i = .verify) (he : e ∈ possibleErrors i) (hverify : i = .verify → m = 0)
      (hsign : i = .sign → m ≤ s.cfg.retryCap) : Effect s i (raise e (afterDraws m { s with regN := n }))

section
variable (s : State)

theorem appendBytes_effect {i : Instr} {bs : List Byte} (h : pushedBytes i = some bs) :
    Effect s i (appendBytes bs s) := by
  have herr : .sequenceError ∈ possibleErrors i ∧ .msgTooLong ∈ possibleErrors i := by
    cases i <;> cases h <;> simp [possibleErrors]
  obtain ⟨-, e⟩ | ⟨-, -, e⟩ | ⟨ho, hlen, e⟩ := appendBytes_cases bs s <;> rw [e]
  · exact .failed _ herr.1
  · exact .failed _ herr.2
  · obtain ⟨_, _, _, e'⟩ := foldl_appendByte_eq bs s
    rw [e']
    exact .pushed ho hlen e' h

theorem finishHash_effect : Effect s .hfinal (finishHash s) := by
  obtain ⟨-, e⟩ | ⟨ho, e⟩ := finishHash_cases s <;> rw [e]
  · exact .failed _ (by decide)
  · exact .closed ho

theorem invertA_effect (neg : Bool) : Effect s (.modinv neg) (invertA neg s) := by
  obtain ⟨er, he, -, e⟩ | ⟨t, -, ht, e⟩ := invertA_cases neg s <;> rw [e]
  · exact .failed er he
  · exact .computed t neg (by omega) (.inl rfl)

theorem reduceA_effect (neg : Bool) : Effect s (.modred neg) (reduceA neg s) := by
  obtain ⟨-, e⟩ | ⟨-, t, -, ht, e⟩ := reduceA_cases neg s <;> rw [e]
  · exact .failed _ (by simp [possibleErrors])
  · exact .computed t neg ht (.inr rfl)

theorem generateKey_effect : Effect s .keygen (generateKey s) := by
  obtain ⟨-, e⟩ | ⟨n, ho, ⟨-, e⟩ | ⟨d, -, -, hd, e⟩⟩ := generateKey_cases s <;> rw [e]
  · exact .failed _ (by decide)
  · rw [← afterDraws_zero (afterDraw _), afterDraws_afterDraw]
    exact .failedLate _ n 1 ho (.inl rfl) (by decide) nofun nofun
  · exact .keyMade n d ho hd

theorem loadKey_effect : Effect s .keyload (loadKey s) := by
  obtain ⟨-, e⟩ | ⟨-, e⟩ := loadKey_cases s <;> rw [e]
  · exact .failed _ (by decide)
  · exact .keyAccepted

theorem signDigest_effect : Effect s .sign (signDigest s) := by
  obtain ⟨-, e⟩ | ⟨-, -, ⟨-, e⟩ | ⟨n, ho, ⟨-, e⟩ | ⟨-, -, e⟩⟩⟩ := signDigest_cases s <;> rw [e]
  · exact .failed _ (by decide)
  · exact .failed _ (by decide)
  · exact .failedLate .keyRange n 0 ho (.inr (.inl rfl)) (by decide) nofun fun _ => Nat.zero_le _
  · have hloop : ∀ e ∈ [Err.rngFailure, .noInverseExists, .retryExhausted], e ∈ possibleErrors .sign := by decide
    obtain ⟨m, hcap, ⟨er, he, e'⟩ | ⟨r, sv, hm, hr, hrn, hs, hsn, e'⟩⟩ :=
      signLoop_cases n s.regD (digestInt s.h) s.cfg.retryCap { s with regN := n } <;> rw [e']
    · exact .failedLate er n m ho (.inr (.inl rfl)) (hloop er he) nofun fun _ => hcap
    · exact .signed n m r sv ho hm hcap hr hrn hs hsn

theorem verifyDigest_effect : Effect s .verify (verifyDigest s) := by
  obtain ⟨-, e⟩ | ⟨-, -, ⟨-, e⟩ | ⟨n, ho, ⟨-, e⟩ | ⟨-, -, -, -, ⟨-, e⟩ | ⟨w, -, e⟩⟩⟩⟩ := verifyDigest_cases s <;> rw [e]
  · exact .failed _ (by decide)
  · exact .failed _ (by decide)
  · exact .malformed n ho
  · exact .failedLate .noInverseExists n 0 ho (.inr (.inr rfl)) (by decide) (fun _ => rfl) nofun
  · exact .answered n _ ho

end

/-- Every command has one of the effects, on the state that `BeginCommand` leaves. -/
theorem exec_effect {i : Instr} {s t : State} (h : exec i s = .next t) :
    Effect (beginCommand (lastopOf i) s) i t := by
  obtain ⟨bs, hbs⟩ | rfl | rfl | rfl | ⟨neg, rfl⟩ | ⟨neg, rfl⟩ | rfl | rfl | rfl | rfl := instr_cases i
  · rw [exec_push hbs, ← lastopOf_push hbs] at h
    cases h
    exact appendBytes_effect _ hbs
  all_goals cases h
  · exact .softReset
  · exact .opened
  · exact finishHash_effect _
  · rw [lastopOf_modinv]
    exact invertA_effect _ neg
  · rw [lastopOf_modred]
    exact reduceA_effect _ neg
  · exact generateKey_effect _
  · exact loadKey_effect _
  · exact signDigest_effect _
  · exact verifyDigest_effect _

/-! ## The result flags -/

/-- Settles O20: the flags after each effect. -/
theorem resultFlagsDescribeTheLastCommand : Obligations.ResultFlagsDescribeTheLastCommand := by
  unfold Obligations.ResultFlagsDescribeTheLastCommand
  intro i s t h
  have hop (op : Byte) : exec i (beginCommand op s) = .next t := (exec_beginCommand i op s).trans h
  cases exec_effect h
  case failed e he => exact ⟨rfl, nofun, nofun, nofun, ⟨e, he, rfl⟩, hop⟩
  case failedLate e _ _ _ _ he _ _ => exact ⟨rfl, nofun, nofun, nofun, ⟨e, he, rfl⟩, hop⟩
  case malformed => exact ⟨rfl, nofun, fun _ => ⟨rfl, rfl⟩, nofun, rfl, hop⟩
  case answered => exact ⟨rfl, fun _ => ⟨rfl, rfl, rfl⟩, nofun, nofun, rfl, hop⟩
  case signed => exact ⟨rfl, nofun, nofun, fun _ => ⟨rfl, rfl⟩, rfl, hop⟩
  all_goals exact ⟨rfl, nofun, nofun, nofun, rfl, hop⟩

/-! ## The frame of every command -/

/-- The families of commands that differ in what they may change. -/
inductive Family where
  | control
  | hash
  | arith
  | keygen
  | keyload
  | sign
  | verify

/-- The family of a command. -/
def familyOf : Instr → Family
  | .srst => .control
  | .hstart | .hpush1 _ | .hpush2 _ _ | .hpush3 _ _ _ | .hpush4 _ _ _ _ | .hfinal => .hash
  | .modinv _ | .modred _ => .arith
  | .keygen => .keygen
  | .keyload => .keyload
  | .sign => .sign
  | .verify => .verify

theorem familyOf_push {i : Instr} {bs : List Byte} (h : pushedBytes i = some bs) : familyOf i = .hash := by
  cases i <;> cases h <;> rfl

theorem familyOf_arith {i : Instr} {neg : Bool} (h : i = .modinv neg ∨ i = .modred neg) : familyOf i = .arith := by
  obtain rfl | rfl := h <;> rfl

section
variable {s t : State} {i : Instr} (h : Effect s i t)
include h

theorem Effect.sameDigest (hf : familyOf i ∉ [.control, .hash]) : SameDigest s t := by
  cases h
  case softReset | opened | closed => exact absurd (by simp [familyOf]) hf
  case pushed hbs => exact absurd (by simp [familyOf_push hbs]) hf
  all_goals exact ⟨rfl, rfl, rfl, rfl, rfl⟩

theorem Effect.operands (hf : familyOf i ≠ .control) : t.regA = s.regA ∧ t.regM = s.regM := by
  cases h
  case softReset => exact absurd rfl hf
  all_goals exact ⟨rfl, rfl⟩

theorem Effect.sameArith (hf : familyOf i ∉ [.control, .arith]) : SameArith s t := by
  cases h
  case softReset => exact absurd (by simp [familyOf]) hf
  case computed hi => exact absurd (by simp [familyOf_arith hi]) hf
  all_goals exact ⟨rfl, rfl, rfl⟩

theorem Effect.regN (hf : familyOf i ∉ [.control, .keygen, .sign, .verify]) : t.regN = s.regN := by
  cases h
  case softReset | keyMade | signed | malformed | answered => exact absurd (by simp [familyOf]) hf
  case failedLate hi _ _ _ => obtain rfl | rfl | rfl := hi <;> exact absurd (by simp [familyOf]) hf
  all_goals rfl

/-- KEYLOAD writes no key register, only KEYST. -/
theorem Effect.keyRegs (hf : familyOf i ∉ [.control, .keygen]) :
    t.regD = s.regD ∧ t.regQX = s.regQX ∧ t.regQY = s.regQY ∧ t.qcid = s.qcid := by
  cases h
  case softReset | keyMade => exact absurd (by simp [familyOf]) hf
  all_goals exact ⟨rfl, rfl, rfl, rfl⟩

theorem Effect.sameKey (hf : familyOf i ∉ [.control, .keygen, .keyload]) : SameKey s t := by
  cases h
  case softReset | keyMade | keyAccepted => exact absurd (by simp [familyOf]) hf
  all_goals exact ⟨rfl, rfl, rfl, rfl, rfl⟩

theorem Effect.sameSignature (hf : familyOf i ∉ [.control, .sign]) : SameSignature s t := by
  cases h
  case softReset | signed => exact absurd (by simp [familyOf]) hf
  all_goals exact ⟨rfl, rfl, rfl, rfl⟩

theorem Effect.sameRng (hk : i ≠ .keygen) (hs : i ≠ .sign) : SameRng s t := by
  cases h
  case keyMade => exact absurd rfl hk
  case signed => exact absurd rfl hs
  case failedLate hi _ hverify _ =>
    rw [hverify ((hi.resolve_left hk).resolve_left hs)]
    exact ⟨rfl, rfl⟩
  all_goals exact ⟨rfl, rfl⟩

end

/-- Settles O25: the frames of the effects, by the family of the command. -/
theorem commandsLeaveOtherUnitsAlone : Obligations.CommandsLeaveOtherUnitsAlone := by
  unfold Obligations.CommandsLeaveOtherUnitsAlone
  intro i s t h
  have he := exec_effect h
  refine ⟨exec_outside h, he.sameRng, fun hi => ?_, fun neg hi => ?_, fun hi => ?_, ?_, ?_, ?_, ?_⟩
  · have hf : familyOf i = .hash := by
      obtain hi | rfl | rfl := hi
      · obtain ⟨bs, hbs⟩ := Option.isSome_iff_exists.1 hi
        exact familyOf_push hbs
      · rfl
      · rfl
    exact ⟨he.sameArith (by simp [hf]), he.regN (by simp [hf]), he.sameKey (by simp [hf]),
      he.sameSignature (by simp [hf])⟩
  · have hf := familyOf_arith hi
    obtain ⟨hA, hM⟩ := he.operands (by simp [hf])
    exact ⟨he.sameDigest (by simp [hf]), hA, hM, he.regN (by simp [hf]), he.sameKey (by simp [hf]),
      he.sameSignature (by simp [hf])⟩
  · obtain rfl | rfl | rfl | rfl := hi <;> exact ⟨he.sameDigest (by simp [familyOf]), he.sameArith (by simp [familyOf])⟩
  · rintro rfl
    exact he.sameSignature (by simp [familyOf])
  · rintro rfl
    exact ⟨he.sameSignature (by simp [familyOf]), he.regN (by simp [familyOf]), he.keyRegs (by simp [familyOf])⟩
  · rintro rfl
    exact he.sameKey (by simp [familyOf])
  · rintro rfl
    exact ⟨he.sameKey (by simp [familyOf]), he.sameSignature (by simp [familyOf])⟩

end Sys2Proof.Proofs
end

section
/-!
PROOFS. The hash unit (spec/41_hash.md): the round function of R135, padding of R132, the rounds of R137, the pushes
of R142 to R146, streaming of R148, and what HASHING and DVALID promise (spec/10_state.md R24, R25).
-/
namespace Sys2Proof.Proofs

open Sys2Proof Sys2Proof.Machine

/-! ## The round function -/

/-- Choice: "if b then c else d". -/
theorem choice_getLsbD (b c d : Word) {j : Nat} (hj : j < 32) :
    ((b &&& c) ||| (~~~b &&& d)).getLsbD j = if b.getLsbD j then c.getLsbD j else d.getLsbD j := by
  simp only [BitVec.getLsbD_or, BitVec.getLsbD_and, BitVec.getLsbD_not, hj, decide_true, Bool.true_and]
  cases b.getLsbD j <;> simp

/-- Parity. -/
theorem parity_getLsbD (b c d : Word) (j : Nat) : (b ^^^ c ^^^ d).getLsbD j =
    decide (((b.getLsbD j).toNat + (c.getLsbD j).toNat + (d.getLsbD j).toNat) % 2 = 1) := by
  simp only [BitVec.getLsbD_xor]
  generalize b.getLsbD j = x, c.getLsbD j = y, d.getLsbD j = z
  revert x y z
  decide

/-- Majority. -/
theorem majority_getLsbD (b c d : Word) (j : Nat) : ((b &&& c) ||| (b &&& d) ||| (c &&& d)).getLsbD j =
    decide (2 ≤ (b.getLsbD j).toNat + (c.getLsbD j).toNat + (d.getLsbD j).toNat) := by
  simp only [BitVec.getLsbD_or, BitVec.getLsbD_and]
  generalize b.getLsbD j = x, c.getLsbD j = y, d.getLsbD j = z
  revert x y z
  decide

/-- Settles O34: the ranges of R135, each by the lemma on its function. -/
theorem roundFunctionPerBit : Obligations.RoundFunctionPerBit := by
  unfold Obligations.RoundFunctionPerBit
  intro t b c d j _ hj
  rw [roundF]
  by_cases h20 : t < 20
  · rw [if_pos h20, if_pos h20, choice_getLsbD b c d hj]
  · rw [if_neg h20, if_neg h20]
    by_cases h40 : t < 40
    · rw [if_pos h40, if_neg (by omega), parity_getLsbD]
    · rw [if_neg h40]
      by_cases h60 : t < 60
      · rw [if_pos h60, if_pos (by omega), majority_getLsbD]
      · rw [if_neg h60, if_neg (by omega), parity_getLsbD]

/-! ## Padding -/

theorem padZeros_le_of_fits {n z : Nat} (h : (n + 1 + z) % 64 = 56) : padZeros n ≤ z := by
  rw [padZeros]
  omega

theorem pad_length (msg : List Byte) : (pad msg).length = 64 * ((msg.length + 8) / 64 + 1) := by
  rw [pad, List.length_append, padding_length, padZeros]
  omega

/-- Settles O35: `z` is `padZeros`, and the eight bytes are `be64` of the bit length. -/
theorem padLayout : Obligations.PadLayout := by
  unfold Obligations.PadLayout
  intro msg
  refine ⟨padZeros msg.length, be64 (BitVec.ofNat 64 (8 * msg.length)), ?_, padZeros_fits _,
    fun z' => padZeros_le_of_fits, be64_length _, fun hlen => ?_, pad_length msg⟩
  · rw [pad, padding, List.append_assoc, List.append_assoc, List.singleton_append]
  · rw [be64_foldl, BitVec.toNat_ofNat, Nat.mod_eq_of_lt hlen]

/-! ## Compress -/

/-- The round constants as the table of R136. -/
theorem kConst_eq_getD : ∀ q < 4, kConst q = [0x5A827999, 0x6ED9EBA1, 0x8F1BBCDC, 0xCA62C1D6].getD q 0 := by decide

/-- Settles O37: the working variables are those of `rounds_spec` on the eighty words of the schedule. -/
theorem compressIsEightyRoundsAndFold : Obligations.CompressIsEightyRoundsAndFold := by
  unfold Obligations.CompressIsEightyRoundsAndFold
  intro c block hb
  obtain ⟨v, h0, hround, hend⟩ := rounds_spec (schedule block) 0 c
  rw [schedule_length hb] at hround hend
  refine ⟨v, h0, fun t ht => ?_, ?_⟩
  · rw [← kConst_eq_getD (t / 20) (by omega), hround t ht, Nat.zero_add]
    exact ⟨rfl, rfl, rfl, rfl, rfl⟩
  · rw [compress, hend, fold]

/-! ## The pushes -/

/-- LEN grows by the bits of each byte. -/
theorem len_add_byte (l : BitVec 64) (k : Nat) :
    l + 8 + BitVec.ofNat 64 (8 * k) = l + BitVec.ofNat 64 (8 * (k + 1)) := by
  rw [BitVec.add_assoc, Nat.mul_succ, Nat.add_comm, BitVec.ofNat_add]
  rfl

theorem len_add_toNat {l : BitVec 64} {k : Nat} (h : l.toNat + k < 2 ^ 64) :
    (l + BitVec.ofNat 64 k).toNat = l.toNat + k := by
  rw [BitVec.toNat_add, BitVec.toNat_ofNat, Nat.mod_eq_of_lt (a := k) (by omega), Nat.mod_eq_of_lt h]

/-- Bytes that fill the block once: the first 64 bytes held are compressed, the rest is held. -/
theorem foldl_appendByte_filled : ∀ (bs : List Byte) (s : State), s.mbuf.length < 64 → bs.length < 64 →
    64 ≤ (s.mbuf ++ bs).length → bs.foldl appendByte s = { s with
      h := compress s.h ((s.mbuf ++ bs).take 64), mbuf := (s.mbuf ++ bs).drop 64
      len := s.len + BitVec.ofNat 64 (8 * bs.length) }
  | [], s, hm, _, h => by simp at h; omega
  | x :: bs, s, hm, hbs, h => by
    rw [List.length_cons] at hbs
    have hassoc : s.mbuf ++ x :: bs = (s.mbuf ++ [x]) ++ bs := by simp
    have hx : (s.mbuf ++ [x]).length = s.mbuf.length + 1 := by simp
    rw [hassoc] at h ⊢
    rw [List.foldl_cons, appendByte, List.length_cons, ← len_add_byte]
    split
    · next hfull =>
      rw [foldl_appendByte_held bs _ (by simp; omega), List.take_left' (hx.trans hfull),
        List.drop_left' (hx.trans hfull)]
      rfl
    · next hfull => exact foldl_appendByte_filled bs _ (by simp; omega) (by omega) h

/-- A push in an open call that stays below the limit appends its bytes. -/
theorem exec_push_open {i : Instr} {bs : List Byte} {s : State} (hbs : pushedBytes i = some bs)
    (ho : s.hashing = true) (hlen : s.len.toNat + 8 * bs.length < 2 ^ 64) :
    exec i s = .next (bs.foldl appendByte (beginCommand (lastopOf i) s)) := by
  rw [exec_push hbs, lastopOf_push hbs, appendBytes, if_neg (by simp [ho]), if_neg (by simpa using hlen)]

/-- Settles O40: `foldl_appendByte_held` and `foldl_appendByte_filled` write the hash unit out, and
`frame_of_digest_update` gives the rest. -/
theorem pushAppendsItsBytes : Obligations.PushAppendsItsBytes := by
  unfold Obligations.PushAppendsItsBytes
  intro i bs s hbs ho hm hlen
  have h4 := (pushedBytes_length hbs).2
  refine ⟨_, exec_push_open hbs ho hlen, ?_⟩
  by_cases hfull : (s.mbuf ++ bs).length < 64
  · obtain ⟨hclean, hframe⟩ := frame_of_digest_update (foldl_appendByte_held bs (beginCommand (lastopOf i) s) hfull)
    rw [foldl_appendByte_held bs (beginCommand (lastopOf i) s) hfull] at hclean hframe ⊢
    refine ⟨hclean, len_add_toNat hlen, hfull, ?_, ho, rfl, hframe⟩
    rw [if_pos hfull]
    exact ⟨rfl, rfl⟩
  · have e := foldl_appendByte_filled bs (beginCommand (lastopOf i) s) hm (by omega) (Nat.le_of_not_lt hfull)
    obtain ⟨hclean, hframe⟩ := frame_of_digest_update e
    rw [e] at hclean hframe ⊢
    refine ⟨hclean, len_add_toNat hlen, ?_, ?_, ho, rfl, hframe⟩
    · simp
      omega
    · rw [if_neg hfull]
      exact ⟨rfl, rfl⟩

/-- Settles O41: the check of the length comes before any byte, and `frame_of_raise` is its frame. -/
theorem pushBeyondTheLimitIsRefused : Obligations.PushBeyondTheLimitIsRefused := by
  unfold Obligations.PushBeyondTheLimitIsRefused
  intro i bs s hbs ho hlen
  have e : exec i s = .next (raise .msgTooLong (beginCommand (lastopOf i) s)) := by
    rw [exec_push hbs, lastopOf_push hbs, appendBytes, if_neg (by simp [ho]), if_pos (by simpa using hlen)]
  exact ⟨_, e, frame_of_raise _ _ s⟩

/-! ## Blocks and the hash of a message -/

/-- The blocks of `a`, then those of `b`. -/
theorem compressBlocks_add {j : Nat} (k : Nat) (c : Chain) {a : List Byte} (b : List Byte) (ha : a.length = 64 * j) :
    compressBlocks (j + k) c (a ++ b) = compressBlocks k (compressBlocks j c a) b := by
  induction j generalizing c a with
  | zero => rw [List.eq_nil_of_length_eq_zero ha, Nat.zero_add]; rfl
  | succ j ih =>
    rw [Nat.succ_add, compressBlocks, compressBlocks, List.take_append_of_le_length (by omega),
      List.drop_append_of_le_length (by omega), ih _ (by rw [List.length_drop]; omega)]

/-- HFINAL compresses the blocks of the tail, one or two. -/
theorem finalChain_eq_compressBlocks {s : State} (hm : s.mbuf.length < 64) :
    finalChain s = compressBlocks ((finalTail s).length / 64) s.h (finalTail s) := by
  have hblocks := finalChain_blocks hm
  split at hblocks
  · obtain ⟨-, hlen, e⟩ := hblocks
    rw [e, hlen, show 64 / 64 = 0 + 1 from rfl, compressBlocks, compressBlocks, List.take_of_length_le hlen.le]
  · obtain ⟨-, hlen, e⟩ := hblocks
    rw [e, hlen, show 128 / 64 = 0 + 1 + 1 from rfl, compressBlocks, compressBlocks, compressBlocks,
      List.take_of_length_le (l := (finalTail s).drop 64) (by rw [List.length_drop]; omega)]

/-- Full blocks play no part in the padding but for the length. -/
theorem padding_mod (n : Nat) (l : BitVec 64) : padding (n % 64) l = padding n l := by
  rw [padding, padding, padZeros, padZeros, Nat.mod_mod]

theorem absorbed_nil {s : State} (hh : s.h = hInit) (hm : s.mbuf = []) (hl : s.len = 0) : Absorbed [] s :=
  ⟨hh, hm, by rw [hl]; rfl⟩

/-- The bytes held are those after the full blocks. -/
theorem mbuf_length_of_absorbed {msg : List Byte} {s : State} (h : Absorbed msg s) :
    s.mbuf.length = msg.length % 64 := by
  obtain ⟨-, hm, -⟩ := h
  rw [hm, List.length_drop]
  omega

/-- Absorbing more bytes. -/
theorem absorbed_foldl {msg : List Byte} {s : State} (bs : List Byte) (h : Absorbed msg s)
    (hl : 8 * (msg.length + bs.length) < 2 ^ 64) : Absorbed (msg ++ bs) (bs.foldl appendByte s) := by
  induction bs generalizing msg s with
  | nil => rwa [List.append_nil]
  | cons x bs ih =>
    rw [List.length_cons] at hl
    rw [List.foldl_cons, ← List.singleton_append, ← List.append_assoc]
    exact ih (h.append x (by omega)) (by simp; omega)

/-- The tail of HFINAL is what the padded message has after the full blocks. -/
theorem pad_eq_of_absorbed {msg : List Byte} {s : State} (h : Absorbed msg s) :
    pad msg = msg.take (64 * (msg.length / 64)) ++ finalTail s := by
  have hm := mbuf_length_of_absorbed h
  obtain ⟨-, hbuf, hlen⟩ := h
  have hl : s.len = BitVec.ofNat 64 (8 * msg.length) := by rw [← hlen, BitVec.ofNat_toNat, BitVec.setWidth_eq]
  rw [pad, finalTail, hm, padding_mod, hl, ← List.append_assoc, hbuf, List.take_append_drop]

/-- HFINAL leaves the hash of the bytes absorbed (R147, R139). -/
theorem finalChain_of_absorbed {msg : List Byte} {s : State} (h : Absorbed msg s) :
    finalChain s = hashMsg msg := by
  have hm : s.mbuf.length < 64 := by have := mbuf_length_of_absorbed h; omega
  have htake : (msg.take (64 * (msg.length / 64))).length = 64 * (msg.length / 64) := by
    rw [List.length_take]
    omega
  have hdiv : (pad msg).length / 64 = msg.length / 64 + (finalTail s).length / 64 := by
    rw [pad_eq_of_absorbed h, List.length_append, htake]
    omega
  obtain ⟨hh, -, -⟩ := id h
  have hblocks : compressBlocks (msg.length / 64) hInit (msg.take (64 * (msg.length / 64))) = s.h := by
    rw [hh, ← compressBlocks_append _ _ _ (msg.drop (64 * (msg.length / 64))) htake.ge, List.take_append_drop]
  rw [hashMsg, hdiv, pad_eq_of_absorbed h, compressBlocks_add _ _ _ htake, hblocks, finalChain_eq_compressBlocks hm]

/-! ## Streaming -/

/-- A command that is none of SRST, HSTART, HFINAL and no push leaves the hash unit alone. -/
theorem familyOf_other {i : Instr} (h : i ≠ .srst ∧ i ≠ .hstart ∧ i ≠ .hfinal) (hp : pushedBytes i = none) :
    familyOf i ∉ [.control, .hash] := by
  cases i <;> simp_all [familyOf, pushedBytes]

/-- In an open call a run of pushes and commands of other families absorbs the bytes pushed. -/
theorem execAll_absorbs : ∀ (is : List Instr) (msg : List Byte) (s : State), Absorbed msg s → s.hashing = true →
    (∀ i ∈ is, i ≠ .srst ∧ i ≠ .hstart ∧ i ≠ .hfinal) →
    8 * (msg ++ (is.filterMap pushedBytes).flatten).length < 2 ^ 64 →
      ∃ t, execAll is s = .next t ∧ Absorbed (msg ++ (is.filterMap pushedBytes).flatten) t ∧ t.hashing = true
  | [], msg, s, ha, ho, _, _ => ⟨s, rfl, by simpa using ha, ho⟩
  | i :: is, msg, s, ha, ho, hi, hl => by
    have hrest : ∀ j ∈ is, j ≠ .srst ∧ j ≠ .hstart ∧ j ≠ .hfinal := fun j hj => hi j (List.mem_cons_of_mem i hj)
    obtain ⟨u, hu⟩ := exec_is_next i s
    rw [execAll_cons is hu]
    cases hp : pushedBytes i with
    | none =>
      have hsame : SameDigest s u := (exec_effect hu).sameDigest (familyOf_other (hi i List.mem_cons_self) hp)
      obtain ⟨-, -, -, hhashing, -⟩ := id hsame
      rw [List.filterMap_cons_none hp] at hl ⊢
      exact execAll_absorbs is msg u (ha.congr hsame) (hhashing.trans ho) hrest hl
    | some bs =>
      rw [List.filterMap_cons_some hp, List.flatten_cons, ← List.append_assoc] at hl ⊢
      have hlen : 8 * (msg.length + bs.length) < 2 ^ 64 := by
        rw [List.length_append, List.length_append] at hl
        omega
      obtain ⟨-, -, hs⟩ := id ha
      rw [exec_push_open hp ho (by omega)] at hu
      cases hu
      have ha' : Absorbed msg (beginCommand (lastopOf i) s) := ha
      obtain ⟨_, _, _, e⟩ := foldl_appendByte_eq bs (beginCommand (lastopOf i) s)
      exact execAll_absorbs is (msg ++ bs) _ (absorbed_foldl bs ha' hlen) (by rw [e]; exact ho) hrest hl

/-- Settles O44: HSTART has absorbed nothing, the commands absorb the message by `execAll_absorbs`, and HFINAL leaves
its hash by `finalChain_of_absorbed`. -/
theorem streamingEqualsHash : Obligations.StreamingEqualsHash := by
  unfold Obligations.StreamingEqualsHash
  rintro s is msg hi rfl hlen
  obtain ⟨u, hu, -, hh, hm, hl, ho, -⟩ := hstartOpensACall s
  have hempty : Absorbed [] u := absorbed_nil hh (List.eq_nil_of_length_eq_zero hm) hl
  obtain ⟨t, ht, ha, ho'⟩ := execAll_absorbs is [] u hempty ho hi hlen
  rw [List.nil_append] at ha
  obtain ⟨-, -, hlen'⟩ := id ha
  have hrun : execAll (.hstart :: is ++ [.hfinal]) s = execAll [.hfinal] t := by
    rw [List.cons_append, execAll_cons _ hu, execAll_append ht]
  exact ⟨_, hrun.trans (execAll_cons [] (exec_hfinal_open ho')), finalChain_of_absorbed ha, hlen', rfl, rfl⟩

end Sys2Proof.Proofs
end

section
/-!
PROOFS. The register block (spec/20_memory.md): which accesses are accepted (R62, R63), the reads of STATUS
(spec/10_state.md R36) and of the digest (R21), and the writes of big-integer registers (R64, R75).
-/
namespace Sys2Proof.Proofs

open Sys2Proof Sys2Proof.Machine

/-! ## STATUS and the digest -/

/-- The eight flags in bits 7:0 of STATUS. -/
theorem statusWord_flags (s : State) :
    (statusWord s).getLsbD 0 = s.hashing ∧ (statusWord s).getLsbD 1 = s.dvalid ∧ (statusWord s).getLsbD 2 = s.keyst
      ∧ (statusWord s).getLsbD 3 = s.vres ∧ (statusWord s).getLsbD 4 = s.malf ∧ (statusWord s).getLsbD 5 = s.rrep
      ∧ (statusWord s).getLsbD 6 = false ∧ (statusWord s).getLsbD 7 = s.errf := by
  simp only [statusWord, BitVec.getLsbD_append]
  simp

/-- The three bytes above them. -/
theorem statusWord_bytes (s : State) : (statusWord s).extractLsb' 8 8 = s.errcode
    ∧ (statusWord s).extractLsb' 16 8 = s.lastop ∧ (statusWord s).extractLsb' 24 8 = 0 := by
  have hbit (b : Bool) : (BitVec.ofBool b).toNat < 2 := (BitVec.ofBool b).isLt
  have h0 := hbit s.hashing
  have h1 := hbit s.dvalid
  have h2 := hbit s.keyst
  have h3 := hbit s.vres
  have h4 := hbit s.malf
  have h5 := hbit s.rrep
  have h7 := hbit s.errf
  have he := s.errcode.isLt
  have hl := s.lastop.isLt
  refine ⟨?_, ?_, ?_⟩ <;> apply BitVec.eq_of_toNat_eq <;>
    simp only [statusWord, toNat_extract_eq, toNat_append_eq] <;> omega

/-- Settles O13: the fields of the word by `statusWord_flags` and `statusWord_bytes`. -/
theorem statusReadsTheFlags : Obligations.StatusReadsTheFlags := by
  unfold Obligations.StatusReadsTheFlags
  refine ⟨fun s rest h => ?_, fun s v rest h => step_writeAt_refused (by decide) (by decide) (by decide) (by decide) h⟩
  obtain ⟨h0, h1, h2, h3, h4, h5, h6, h7⟩ := statusWord_flags s
  refine ⟨statusWord s, ?_, h0, h1, h2, h3, h4, h5, h6, h7, statusWord_bytes s⟩
  rw [step_readAt (by decide) h, busRead_status]

theorem busRead_digest (s : State) {i : Nat} (hi : i < 5) : busRead s (0x010 + 4 * i) = some (s.h.word i) := by
  rw [busRead, if_neg (by omega), if_neg (by omega), if_neg (by omega), if_pos (by omega),
    show (0x010 + 4 * i - 0x010) / 4 = i by omega]

/-- Settles O15: the five words by `busRead_digest`, their concatenation by `digestInt_eq_append`. -/
theorem digestReadsInFiveWords : Obligations.DigestReadsInFiveWords := by
  unfold Obligations.DigestReadsInFiveWords
  refine fun s => ⟨s.h.word, ?_, (digestInt_eq_append s.h).symm⟩
  rintro i hi rest t rfl
  rw [step_readAt (by omega) rfl, busRead_digest _ hi]

/-! ## The offsets that are accepted -/

/-- The nine windows (R61). -/
theorem mem_bases_iff {base : Nat} :
    base ∈ [0x080, 0x100, 0x180, 0x200, 0x280, 0x300, 0x380, 0x400, 0x480] ↔ ∃ x : BigReg, x.base = base := by
  constructor
  · intro h
    have hall : ∀ base ∈ [0x080, 0x100, 0x180, 0x200, 0x280, 0x300, 0x380, 0x400, 0x480],
        ∃ x ∈ [BigReg.a, .m, .t, .n, .d, .qx, .qy, .r, .s], x.base = base := by decide
    obtain ⟨x, -, hx⟩ := hall base h
    exact ⟨x, hx⟩
  · rintro ⟨x, rfl⟩
    cases x <;> decide

/-- The seven windows that the host may write. -/
theorem mem_writableBases_iff {base : Nat} : base ∈ [0x080, 0x100, 0x280, 0x300, 0x380, 0x400, 0x480] ↔
    ∃ x : BigReg, x.writable = true ∧ x.base = base := by
  constructor
  · intro h
    have hall : ∀ base ∈ [0x080, 0x100, 0x280, 0x300, 0x380, 0x400, 0x480],
        ∃ x ∈ [BigReg.a, .m, .d, .qx, .qy, .r, .s], x.writable = true ∧ x.base = base := by decide
    obtain ⟨x, -, hx⟩ := hall base h
    exact ⟨x, hx⟩
  · rintro ⟨x, hw, rfl⟩
    revert hw
    cases x <;> decide

/-- A read is accepted exactly at the readable offsets. -/
theorem busRead_isSome_iff {s : State} {off : Nat} (hn : s.cfg.nw ≤ 32) :
    (busRead s off).isSome = true ↔ readableOffset s.cfg.nw off := by
  constructor
  · intro h
    have ha : off % 4 = 0 := by
      by_contra ha
      rw [busRead, if_pos ha] at h
      cases h
    refine ⟨ha, ?_⟩
    by_contra hno
    rw [not_or, not_or, not_or] at hno
    obtain ⟨h4, h8, hrange, hwindow⟩ := hno
    rw [busRead, if_neg (by omega), if_neg h4, if_neg h8, if_neg (by omega), if_neg (by omega), if_neg (by omega),
      if_neg (by omega)] at h
    cases hw : windowWord s.cfg off with
    | none => rw [hw] at h; cases h
    | some xi =>
      obtain ⟨x, i⟩ := xi
      obtain ⟨ho, hi⟩ := windowWord_some hw ha
      exact hwindow ⟨_, mem_bases_iff.2 ⟨x, rfl⟩, i, hi, ho⟩
  · rintro ⟨ha, rfl | rfl | ⟨h1, h2⟩ | ⟨_, hb, i, hi, rfl⟩⟩
    · rfl
    · rfl
    · obtain hd | rfl | rfl | rfl : off ≤ 0x020 ∨ off = 0x024 ∨ off = 0x028 ∨ off = 0x02C := by omega
      · rw [busRead, if_neg (by omega), if_neg (by omega), if_neg (by omega), if_pos ⟨h1, hd⟩]
        rfl
      · rfl
      · rfl
      · rfl
    · obtain ⟨x, rfl⟩ := mem_bases_iff.1 hb
      rw [busRead_big x hn hi]
      rfl

/-- A register write is accepted exactly at the writable offsets that are no command port. -/
theorem busWrite_isSome_iff {s : State} {off : Nat} (v : Word) (hn : s.cfg.nw ≤ 32) :
    (busWrite s off v).isSome = true ↔ writableOffset s.cfg.nw off ∧ off ≠ 0x000 ∧ off ≠ 0x00C := by
  constructor
  · intro h
    obtain ⟨s', hs⟩ := Option.isSome_iff_exists.1 h
    obtain ⟨ha, ⟨rfl, -⟩ | ⟨x, i, hw, hi, rfl, -⟩⟩ := busWrite_cases hs
    · exact ⟨⟨by decide, .inr (.inr (.inl rfl))⟩, by decide, by decide⟩
    · have := base_bounds x
      exact ⟨⟨ha, .inr (.inr (.inr ⟨_, mem_writableBases_iff.2 ⟨x, hw, rfl⟩, i, hi, rfl⟩))⟩, by omega, by omega⟩
  · rintro ⟨⟨ha, h0 | h0 | rfl | ⟨_, hb, i, hi, rfl⟩⟩, h1, h2⟩
    · exact absurd h0 h1
    · exact absurd h0 h2
    · rfl
    · obtain ⟨x, hw, rfl⟩ := mem_writableBases_iff.1 hb
      rw [busWrite_big v hn hw hi]
      rfl

/-! ## How each access ends -/

theorem eq_readAt {p : Params} {acc : BusAccess} {off : Nat} (ha : acc.addr = p.base + off) (hs : acc.size = .b32)
    (hk : acc.kind = .read) : acc = readAt p off := by
  rw [readAt, ← ha, ← hs, ← hk]

theorem eq_writeAt {p : Params} {acc : BusAccess} {off : Nat} {v : Word} (ha : acc.addr = p.base + off)
    (hs : acc.size = .b32) (hk : acc.kind = .write v) : acc = writeAt p off v := by
  rw [writeAt, ← ha, ← hs, ← hk]

/-- A step on the write of a word to a command port. -/
theorem step_commandWrite {s : State} {rest : List HostEvent} {port : Port} {c : Word}
    (h : s.pending = .access (commandWrite s.cfg port c) :: rest) :
    step s = startCommand port c { s with pending := rest, resp := some .okWrite } := by
  cases port with
  | cmd => exact step_cmdWrite h
  | msgw => exact step_msgwWrite h

/-- Whatever the word, its command leaves what lies outside CDL-CORE. -/
theorem startCommand_outside {port : Port} {c : Word} {s t : State} (h : startCommand port c s = .next t) :
    SameOutside s t := by
  cases port with
  | msgw => exact exec_outside (i := decodeMsgw c) h
  | cmd =>
    rw [startCommand, executeCommand] at h
    cases hd : decodeCmd c with
    | ok i => rw [hd] at h; exact exec_outside h
    | error e => rw [hd] at h; exact execIllegal_outside h

/-- A write that starts a command ends OK whatever becomes of the command (R63). -/
theorem step_commandWrite_ok {s : State} {rest : List HostEvent} {port : Port} {c : Word}
    (h : s.pending = .access (commandWrite s.cfg port c) :: rest) : ∃ t, step s = .next t ∧ t.resp = some .okWrite := by
  obtain ⟨t, ht⟩ := startCommand_is_next port c { s with pending := rest, resp := some .okWrite }
  obtain ⟨-, -, hresp⟩ := startCommand_outside ht
  exact ⟨t, (step_commandWrite h).trans ht, hresp⟩

/-- An address outside the block is no access to CDL-CORE (R63). -/
theorem step_outside {s : State} {rest : List HostEvent} {acc : BusAccess} (h : s.pending = .access acc :: rest)
    (ha : acc.addr < s.cfg.base ∨ s.cfg.base + 4096 ≤ acc.addr) :
    step s = .next { s with pending := rest, resp := none } := by
  have ht : busTarget s.cfg acc = .outside := if_pos ha
  simp only [step_access h, stepAccess, ht, respond]

/-- A 32-bit read at a readable offset. -/
theorem step_readAt_accepted {s : State} {rest : List HostEvent} {off : Nat} (hn : s.cfg.nw ≤ 32) (ho : off < 4096)
    (h : s.pending = .access (readAt s.cfg off) :: rest) (hr : readableOffset s.cfg.nw off) :
    ∃ v, step s = .next { s with pending := rest, resp := some (.okRead v) } ∧ (off = 0x02C → v = s.qcid) := by
  obtain ⟨v, hv⟩ := Option.isSome_iff_exists.1 ((busRead_isSome_iff hn).2 hr)
  refine ⟨v, by rw [step_readAt ho h, hv], ?_⟩
  rintro rfl
  exact (Option.some.inj hv).symm

/-- A 32-bit write at a writable offset. -/
theorem step_writeAt_accepted {s : State} {rest : List HostEvent} {off : Nat} {v : Word} (hn : s.cfg.nw ≤ 32)
    (ho : off < 4096) (h : s.pending = .access (writeAt s.cfg off v) :: rest) (hw : writableOffset s.cfg.nw off) :
    ∃ t, step s = .next t ∧ t.resp = some .okWrite := by
  by_cases h0 : off = 0x000
  · subst h0
    exact step_commandWrite_ok (port := .cmd) h
  by_cases h1 : off = 0x00C
  · subst h1
    exact step_commandWrite_ok (port := .msgw) h
  obtain ⟨s', hs⟩ := Option.isSome_iff_exists.1
    ((busWrite_isSome_iff (s := { s with pending := rest }) v hn).2 ⟨hw, h0, h1⟩)
  exact ⟨_, step_writeAt_taken ho h0 h1 h hs, rfl⟩

/-- An access of another size than 32 bits (R62). -/
theorem step_of_size {s : State} {rest : List HostEvent} {acc : BusAccess} {off : Nat}
    (h : s.pending = .access acc :: rest) (ha : acc.addr = s.cfg.base + off) (ho : off < 4096) (hs : acc.size ≠ .b32) :
    step s = .next { s with pending := rest, resp := some .busErr } := by
  have ht : busTarget s.cfg acc = .register off := by
    rw [busTarget_offset s.cfg ha ho]
    split
    · next hsize _ => exact absurd hsize hs
    · rfl
  rw [step_register h ht]
  obtain ⟨_, hsize, -⟩ | ⟨_, _, hsize, -⟩ | e := busRegister_cases off acc { s with pending := rest }
  · exact absurd hsize hs
  · exact absurd hsize hs
  · rw [e, respond]

/-- Settles O11: the accepted accesses by `step_readAt_accepted` and `step_writeAt_accepted`, the refused ones by
`step_of_size` and by the offsets that `busRead` and `busWrite` accept. -/
theorem accessOutcomeByTarget : Obligations.AccessOutcomeByTarget := by
  unfold Obligations.AccessOutcomeByTarget
  intro s rest acc hl hp
  have hn := (nw_of_legal hl).2
  refine ⟨step_outside hp, fun off ha ho => ⟨fun hs hk hr => ?_, fun v hs hk hw => ?_, fun hbad => ?_⟩⟩
  · rw [eq_readAt ha hs hk] at hp
    exact step_readAt_accepted hn ho hp hr
  · rw [eq_writeAt ha hs hk] at hp
    exact step_writeAt_accepted hn ho hp hw
  · by_cases hs : acc.size = .b32
    · obtain hs' | ⟨hk, hr⟩ | ⟨⟨v, hk⟩, hw⟩ := hbad
      · exact absurd hs hs'
      · rw [← busRead_isSome_iff hn, Option.not_isSome_iff_eq_none] at hr
        rw [eq_readAt ha hs hk] at hp
        rw [step_readAt ho hp, hr]
      · have h0 : off ≠ 0x000 := by rintro rfl; exact hw ⟨rfl, .inl rfl⟩
        have h1 : off ≠ 0x00C := by rintro rfl; exact hw ⟨rfl, .inr (.inl rfl)⟩
        have hnone : busWrite { s with pending := rest } off v = none :=
          Option.not_isSome_iff_eq_none.1 fun h =>
            hw ((busWrite_isSome_iff (s := { s with pending := rest }) v hn).1 h).1
        rw [eq_writeAt ha hs hk] at hp
        rw [step_writeAt ho h0 h1 hp, hnone]
    · exact step_of_size hp ha ho hs

/-! ## Writes of big-integer registers -/

/-- What every register write leaves: all but the big-integer registers, QCID, KEYST, and the host's side. -/
def SameButKeyAndBig (s t : State) : Prop :=
  SameDigest s t ∧ SameFlags s t ∧ t.lastr = s.lastr ∧ t.lastrv = s.lastrv ∧ SameRng s t ∧ t.cfg = s.cfg

theorem sameButKeyAndBig_refl (s : State) : SameButKeyAndBig s s :=
  ⟨⟨rfl, rfl, rfl, rfl, rfl⟩, ⟨rfl, rfl, rfl, rfl, rfl, rfl⟩, rfl, rfl, ⟨rfl, rfl⟩, rfl⟩

theorem sameButKeyAndBig_trans {s t u : State} (h : SameButKeyAndBig s t) (h' : SameButKeyAndBig t u) :
    SameButKeyAndBig s u := by
  simp_all [SameButKeyAndBig, SameDigest, SameFlags, SameRng]

theorem setBig_frame (s : State) (x : BigReg) (v : Nat) (k : Bool) (o : Option BusOutcome) :
    SameButKeyAndBig s { s.setBig x v with keyst := k, resp := o } := by
  cases x <;> exact ⟨⟨rfl, rfl, rfl, rfl, rfl⟩, ⟨rfl, rfl, rfl, rfl, rfl, rfl⟩, rfl, rfl, ⟨rfl, rfl⟩, rfl⟩

/-- A write of word `i` of a register that the host may write is the whole step. -/
theorem step_writeAt_big {s : State} {x : BigReg} {i : Nat} {v : Word} {rest : List HostEvent} (hn : s.cfg.nw ≤ 32)
    (hw : x.writable = true) (hi : i < s.cfg.nw) (h : s.pending = .access (writeAt s.cfg (x.base + 4 * i) v) :: rest) :
    ∃ t, step s = .next t ∧ (∀ y, t.big y = if y = x then withBigWord (s.big x) i v else s.big y) ∧ t.qcid = s.qcid
      ∧ t.keyst = (if x.isKey then false else s.keyst) ∧ SameButKeyAndBig s t ∧ t.pending = rest
      ∧ t.resp = some .okWrite := by
  have hb := base_bounds x
  have htaken := busWrite_big (s := { s with pending := rest }) v hn hw hi
  refine ⟨_, step_writeAt_taken (by omega) (by omega) (by omega) h htaken, fun y => ?_, ?_, rfl,
    setBig_frame { s with pending := rest } x _ _ _, ?_, rfl⟩
  · exact setBig_big { s with pending := rest } x y _
  · exact setBig_qcid { s with pending := rest } x _
  · exact setBig_pending { s with pending := rest } x _

/-- Settles O17: `step_writeAt_big` with the words of `withBigWord`, and `step_writeAt_qcid`. -/
theorem bigRegisterWriteChangesOneWord : Obligations.BigRegisterWriteChangesOneWord := by
  unfold Obligations.BigRegisterWriteChangesOneWord
  refine ⟨fun s x i v rest hl hw hi h => ?_, fun s v rest h => step_writeAt_qcid h⟩
  obtain ⟨t, ht, hbig, hq, hk, ⟨hdigest, hflags, hlastr, hlastrv, hrng, hcfg⟩, hpending, hresp⟩ :=
    step_writeAt_big (nw_of_legal hl).2 hw hi h
  refine ⟨t, ht, ?_, fun j hj => ?_, fun y hy => ?_, hq, hk, hdigest, hflags, hlastr, hlastrv, hrng, hcfg, hpending,
    hresp⟩
  · rw [hbig, if_pos rfl, bigWord_withBigWord_same]
  · rw [hbig, if_pos rfl, bigWord_withBigWord_other _ _ hj]
  · rw [hbig, if_neg hy]

/-- The words below `k` of register `x` are those of `v` in `t`; what register writes leave is as in `s`. -/
def WordsLoaded (x : BigReg) (v k : Nat) (s t : State) : Prop :=
  (∀ j < k, bigWord (t.big x) j = bigWord v j) ∧ t.big x < 2 ^ s.cfg.nbits
    ∧ (∀ y : BigReg, y ≠ x → t.big y = s.big y) ∧ SameButKeyAndBig s t

/-- The event of the write of word `i` of `v`. -/
def wordWrite (p : Params) (x : BigReg) (v i : Nat) : HostEvent := .access (writeAt p (x.base + 4 * i) (bigWord v i))

/-- `k` word writes load `k` words. -/
theorem stepMany_wordWrites {s : State} {x : BigReg} (v : Nat) (hl : Legal s) (hw : x.writable = true) {k : Nat} :
    ∀ rest, k ≤ s.cfg.nw → s.pending = (List.range k).map (wordWrite s.cfg x v) ++ rest →
      ∃ t, stepMany k s = .next t ∧ t.pending = rest ∧ WordsLoaded x v k s t := by
  induction k with
  | zero =>
    intro rest _ h
    exact ⟨s, rfl, h, nofun, hl.widths x, fun _ _ => rfl, sameButKeyAndBig_refl s⟩
  | succ k ih =>
    intro rest hk h
    rw [List.range_succ, List.map_append, List.append_assoc] at h
    obtain ⟨t, ht, hpending, hwords, hwidth, hother, hsame⟩ := ih _ (by omega) h
    obtain ⟨-, -, -, -, -, hcfg⟩ := id hsame
    rw [← hcfg] at hk hpending
    obtain ⟨u, hu, hbig, -, -, hsame', hpending', -⟩ :=
      step_writeAt_big (hcfg ▸ (nw_of_legal hl.params).2) hw hk hpending
    refine ⟨u, stepMany_snoc ht hu, hpending', fun j hj => ?_, ?_, fun y hy => ?_, sameButKeyAndBig_trans hsame hsame'⟩
    · rw [hbig, if_pos rfl]
      obtain hj | rfl := Nat.lt_succ_iff_lt_or_eq.1 hj
      · rw [bigWord_withBigWord_other _ _ hj.ne, hwords j hj]
      · rw [bigWord_withBigWord_same]
    · rw [hbig, if_pos rfl]
      exact withBigWord_lt _ hwidth (hcfg ▸ hk)
    · rw [hbig, if_neg hy, hother y hy]

/-- Settles O19: after NW writes the register has the words of the value, and no bits beyond them. -/
theorem loadingEveryWordLoadsTheValue : Obligations.LoadingEveryWordLoadsTheValue := by
  unfold Obligations.LoadingEveryWordLoadsTheValue
  intro s x v rest hl hw hv h
  obtain ⟨t, ht, hpending, hwords, hwidth, hother, hdigest, hflags, -⟩ :=
    stepMany_wordWrites v hl hw rest le_rfl h
  exact ⟨t, ht, eq_of_bigWords hwidth hv hwords, hpending, hother, hdigest, hflags⟩

end Sys2Proof.Proofs
end

section
/-!
PROOFS. The step: one event at a time (spec/20_memory.md R69), reset in its three forms (spec/70_reset_and_hazards.md
R240, R241), the events that change HASHING, DVALID and KEYST (spec/10_state.md R24, R25, R35, R45), and the two
invariants that every step keeps.
-/
namespace Sys2Proof.Proofs

open Sys2Proof Sys2Proof.Machine

/-! ## Events -/

/-- No step faults or is refused (00_scope.md R13). -/
theorem step_is_next (s : State) : ∃ t, step s = .next t := by
  cases hp : s.pending with
  | nil => exact ⟨s, step_idle hp⟩
  | cons e rest =>
    cases e with
    | reset => exact ⟨_, step_reset hp⟩
    | resetDuring port c taken =>
      obtain ⟨_, -, hs⟩ := step_resetDuring hp
      exact ⟨_, hs⟩
    | access acc =>
      cases ht : busTarget s.cfg acc with
      | outside => exact ⟨respond none { s with pending := rest }, by simp only [step_access hp, stepAccess, ht]⟩
      | command c =>
        obtain rfl := busTarget_command ht
        obtain ⟨t, hs, -⟩ := step_commandWrite_ok hp
        exact ⟨t, hs⟩
      | message c =>
        obtain rfl := busTarget_message ht
        obtain ⟨t, hs, -⟩ := step_commandWrite_ok hp
        exact ⟨t, hs⟩
      | register off => exact ⟨_, step_register hp ht⟩

/-- A step takes the first event. -/
theorem step_pending {s t : State} {e : HostEvent} {rest : List HostEvent} (hp : s.pending = e :: rest)
    (h : step s = .next t) : t.pending = rest := by
  obtain ⟨hnil, -⟩ | ⟨_, _, hp', -, _, rfl⟩
    | ⟨_, _, hp', ⟨-, rfl⟩ | ⟨_, _, _, -, -, he⟩ | ⟨_, _, -, -, he⟩ | ⟨_, -, rfl⟩⟩ := step_cases h
  · rw [hp] at hnil; cases hnil
  all_goals
    rw [hp] at hp'
    cases hp'
  · rfl
  · rfl
  · obtain ⟨-, hpending, -⟩ := exec_outside he
    exact hpending
  · obtain ⟨-, hpending, -⟩ := execIllegal_outside he
    exact hpending
  · exact (busRegister_outside _ _ _).1

/-- Settles O10: `step_idle`, `step_is_next`, `step_pending` and `step_cfg`. -/
theorem eventsAreTakenInOrder : Obligations.EventsAreTakenInOrder := by
  unfold Obligations.EventsAreTakenInOrder
  refine fun s => ⟨step_idle, fun e rest hp => ?_⟩
  obtain ⟨t, ht⟩ := step_is_next s
  exact ⟨t, ht, step_pending hp ht, step_cfg ht⟩

/-! ## Reset -/

/-- Settles O8: both states are the reset state by definition. -/
theorem softResetIsResetExceptLastop : Obligations.SoftResetIsResetExceptLastop := by
  unfold Obligations.SoftResetIsResetExceptLastop
  exact fun s => ⟨⟨_, exec_srst s, rfl⟩, fun rest hp => ⟨_, step_reset hp, rfl⟩⟩

/-- Settles O60: the abandoned command is the one that the write alone would have run, and the state is that of
`resetEvent_afterDraws`. -/
theorem resetAbandonsTheRunningCommand : Obligations.ResetAbandonsTheRunningCommand := by
  unfold Obligations.ResetAbandonsTheRunningCommand
  intro s port c taken rest hp
  obtain ⟨u, hu, hs⟩ := step_resetDuring hp
  have hrun : step { s with pending := .access (commandWrite s.cfg port c) :: rest } = .next u :=
    (step_commandWrite (s := { s with pending := .access (commandWrite s.cfg port c) :: rest }) rfl).trans hu
  refine ⟨_, u, hrun, hs, resetEvent_afterDraws _ _, ?_⟩
  rw [busRead_status]
  exact congrArg some (statusWord_resetWith s.cfg)

/-! ## Which events change HASHING, DVALID and KEYST -/

/-- A command of CMD decodes at CMD. -/
theorem port_of_decode {p : Port} {c : Word} {i : Instr} (h : decode p c = .ok i) : p = (encode i).1 := by
  rw [encodeOfDecodeIsTheWord p c i h]

theorem busRegister_frame (off : Nat) (acc : BusAccess) (s : State) : SameButKeyAndBig s (busRegister off acc s) := by
  obtain ⟨_, -, -, -, e⟩ | ⟨_, _, -, -, hw, e⟩ | e := busRegister_cases off acc s <;> rw [e]
  · exact sameButKeyAndBig_refl s
  · obtain ⟨-, ⟨-, rfl⟩ | ⟨x, i, -, -, -, rfl⟩⟩ := busWrite_cases hw
    · exact sameButKeyAndBig_refl s
    · exact setBig_frame s x _ _ _
  · exact sameButKeyAndBig_refl s

/-- Settles O23: the cases of the step; of the effects of a command only SRST, HSTART and HFINAL in an open call
write HASHING or DVALID. -/
theorem hashStateChangesOnlyAsListed : Obligations.HashStateChangesOnlyAsListed := by
  unfold Obligations.HashStateChangesOnlyAsListed
  intro s t h
  obtain ⟨-, rfl⟩ | ⟨e, rest, hp, hr, _, rfl⟩
    | ⟨_, rest, hp, ⟨-, rfl⟩ | ⟨p, c, i, rfl, hd, he⟩ | ⟨_, _, -, -, he⟩ | ⟨off, -, rfl⟩⟩ := step_cases h
  · exact .inl ⟨rfl, rfl⟩
  · exact .inr (.inl ⟨e, rest, hp, hr, rfl, rfl⟩)
  · exact .inl ⟨rfl, rfl⟩
  · have hport := port_of_decode hd
    cases exec_effect he
    case softReset =>
      subst hport
      exact .inr (.inr ⟨rest, c, _, hp, hd, .inl ⟨rfl, rfl, rfl⟩⟩)
    case opened =>
      subst hport
      exact .inr (.inr ⟨rest, c, _, hp, hd, .inr (.inl ⟨rfl, rfl, rfl⟩)⟩)
    case closed ho =>
      subst hport
      exact .inr (.inr ⟨rest, c, _, hp, hd, .inr (.inr ⟨rfl, ho, rfl, rfl⟩)⟩)
    all_goals exact .inl ⟨rfl, rfl⟩
  · cases he
    exact .inl ⟨rfl, rfl⟩
  · obtain ⟨⟨-, -, -, hhashing, hdvalid⟩, -⟩ := busRegister_frame off _ { s with pending := rest }
    exact .inl ⟨hhashing, hdvalid⟩

/-- The windows of the key registers (20_memory.md R61). -/
theorem base_of_isKey {x : BigReg} (h : x.isKey = true) : x.base ∈ [0x280, 0x300, 0x380] := by
  revert h
  cases x <;> decide

/-- A register access that changes KEYST is the host's write of a word of the key, and clears it (R45). -/
theorem busRegister_keyst {s : State} {off : Nat} {acc : BusAccess} (ha : acc.addr = s.cfg.base + off)
    (h : (busRegister off acc s).keyst ≠ s.keyst) : (busRegister off acc s).keyst = false
      ∧ (busRegister off acc s).resp = some .okWrite ∧ (∃ v, acc = writeAt s.cfg off v)
      ∧ (off = 0x02C ∨ ∃ base ∈ [0x280, 0x300, 0x380], ∃ i, i < s.cfg.nw ∧ off = base + 4 * i) := by
  obtain ⟨_, -, -, -, e⟩ | ⟨v, s', hs, hk, hw, e⟩ | e := busRegister_cases off acc s <;> rw [e] at h ⊢
  · exact absurd rfl h
  · have hacc : ∃ v, acc = writeAt s.cfg off v := ⟨v, eq_writeAt ha hs hk⟩
    obtain ⟨-, ⟨ho, rfl⟩ | ⟨x, i, -, hi, ho, rfl⟩⟩ := busWrite_cases hw
    · exact ⟨rfl, rfl, hacc, .inl ho⟩
    · by_cases hkey : x.isKey = true
      · exact ⟨if_pos hkey, rfl, hacc, .inr ⟨x.base, base_of_isKey hkey, i, hi, ho⟩⟩
      · exact absurd (if_neg hkey) h
  · exact absurd rfl h

/-- Settles O24: the cases of the step; of the effects of a command only SRST, a key made and a key accepted write
KEYST, and of the register accesses those of `busRegister_keyst`. -/
theorem keyStateChangesOnlyAsListed : Obligations.KeyStateChangesOnlyAsListed := by
  unfold Obligations.KeyStateChangesOnlyAsListed
  intro s t h _ hne
  obtain ⟨-, rfl⟩ | ⟨e, rest, hp, hr, _, rfl⟩
    | ⟨_, rest, hp, ⟨-, rfl⟩ | ⟨p, c, i, rfl, hd, he⟩ | ⟨_, _, -, -, he⟩ | ⟨off, ht, rfl⟩⟩ := step_cases h
  · exact absurd rfl hne
  · exact .inr ⟨rfl, .inl ⟨e, rest, hp, hr⟩⟩
  · exact absurd rfl hne
  · have hport := port_of_decode hd
    cases exec_effect he
    case softReset =>
      subst hport
      exact .inr ⟨rfl, .inr (.inl ⟨rest, c, hp, hd⟩)⟩
    case keyMade =>
      subst hport
      exact .inl ⟨rfl, rfl, rest, c, _, hp, hd, .inl rfl⟩
    case keyAccepted =>
      subst hport
      exact .inl ⟨rfl, rfl, rest, c, _, hp, hd, .inr rfl⟩
    all_goals exact absurd rfl hne
  · cases he
    exact absurd rfl hne
  · obtain ⟨ha, -⟩ := busTarget_register ht
    obtain ⟨hkeyst, hresp, ⟨v, rfl⟩, ho⟩ := busRegister_keyst (s := { s with pending := rest }) ha hne
    exact .inr ⟨hkeyst, .inr (.inr ⟨rest, off, v, hp, hresp, ho⟩)⟩

/-! ## The meaning of the digest is kept -/

theorem digestMeaning_congr {s t : State} (h : SameDigest s t) (hm : DigestMeaning s) : DigestMeaning t := by
  obtain ⟨hh, hbuf, hlen, hhashing, hdvalid⟩ := h
  rw [DigestMeaning, hhashing, hdvalid]
  simpa only [DigestMeaning, Absorbed, HoldsDigestOf, hh, hbuf, hlen] using hm

theorem exec_digestMeaning {i : Instr} {s t : State} (hm : DigestMeaning s) (h : exec i s = .next t) :
    DigestMeaning t := by
  obtain ⟨hopen, hheld⟩ := id hm
  cases exec_effect h
  case softReset => exact ⟨nofun, nofun⟩
  case opened => exact ⟨fun _ => ⟨[], absorbed_nil rfl rfl rfl⟩, nofun⟩
  case pushed bs _ _ _ ho hlen e _ =>
    obtain ⟨msg, ha⟩ := hopen ho
    obtain ⟨-, -, hl⟩ := id ha
    have ha' : Absorbed msg (beginCommand (lastopOf i) s) := ha
    rw [beginCommand_len, hl] at hlen
    refine ⟨fun _ => ⟨msg ++ bs, e ▸ absorbed_foldl bs ha' (by omega)⟩, fun hd => ?_⟩
    obtain ⟨hclosed, -⟩ := hheld hd
    exact absurd (ho.symm.trans hclosed) (by decide)
  case closed ho =>
    obtain ⟨msg, ha⟩ := hopen ho
    obtain ⟨-, -, hl⟩ := id ha
    exact ⟨nofun, fun _ => ⟨rfl, msg, finalChain_of_absorbed ha, hl⟩⟩
  all_goals exact digestMeaning_congr ⟨rfl, rfl, rfl, rfl, rfl⟩ hm

/-- Settles O43: the cases of the step; a reset closes the call and discards the digest, and no register access
touches the hash unit. -/
theorem stepsKeepTheMeaningOfTheDigest : Obligations.StepsKeepTheMeaningOfTheDigest := by
  unfold Obligations.StepsKeepTheMeaningOfTheDigest
  intro s t hm h
  obtain ⟨-, rfl⟩ | ⟨_, _, -, -, _, rfl⟩
    | ⟨_, rest, -, ⟨-, rfl⟩ | ⟨_, _, _, -, -, he⟩ | ⟨_, _, -, -, he⟩ | ⟨off, -, rfl⟩⟩ := step_cases h
  · exact hm
  · exact ⟨nofun, nofun⟩
  · exact hm
  · exact exec_digestMeaning (s := { s with pending := rest, resp := some .okWrite }) hm he
  · cases he
    exact hm
  · obtain ⟨hdigest, -⟩ := busRegister_frame off _ { s with pending := rest }
    exact digestMeaning_congr (s := { s with pending := rest }) hdigest hm

/-! ## The state stays legal -/

/-- The clauses of `Legal` on the big-integer registers and LASTR. -/
def LegalRegs (s : State) : Prop :=
  (∀ x : BigReg, s.big x < 2 ^ s.cfg.nbits) ∧ s.lastr < 2 ^ s.cfg.nbits ∧ (s.lastrv = true → 1 ≤ s.lastr)

/-- The clauses of `Legal` on the DIGEST unit. -/
def LegalDigest (s : State) : Prop :=
  s.mbuf.length < 64 ∧ s.mbuf.length = (if s.hashing then s.len.toNat / 8 % 64 else 0) ∧ s.len.toNat % 8 = 0
    ∧ (s.dvalid = true → s.hashing = false)

/-- The clauses of `Legal` on the result flags. -/
def LegalFlags (s : State) : Prop :=
  (if s.errf then (∃ e : Err, s.errcode = e.code) else s.errcode = 0)
    ∧ (s.vres = true → s.lastop = 0x33 ∧ s.malf = false ∧ s.errf = false)
    ∧ (s.malf = true → s.lastop = 0x33 ∧ s.errf = false)
    ∧ (s.rrep = true → s.lastop = 0x32 ∧ s.errf = false)

theorem legal_iff (s : State) :
    Legal s ↔ s.cfg.legal = true ∧ LegalRegs s ∧ LegalDigest s ∧ LegalFlags s := by
  constructor
  · rintro ⟨hp, hw, hl, hb, hbl, hlb, ho, he, hr⟩
    exact ⟨hp, ⟨hw, hl⟩, ⟨hb, hbl, hlb, ho⟩, ⟨he, hr⟩⟩
  · rintro ⟨hp, ⟨hw, hl⟩, ⟨hb, hbl, hlb, ho⟩, ⟨he, hr⟩⟩
    exact ⟨hp, hw, hl, hb, hbl, hlb, ho, he, hr⟩

/-! ### The registers -/

theorem widths_setBig {s : State} {b : Nat} (h : ∀ x : BigReg, s.big x < b) (y : BigReg) {v : Nat} (hv : v < b)
    (x : BigReg) : (s.setBig y v).big x < b := by
  rw [setBig_big]
  split
  · exact hv
  · exact h x

theorem busRegister_legalRegs (off : Nat) (acc : BusAccess) {s : State} (h : LegalRegs s) :
    LegalRegs (busRegister off acc s) := by
  obtain ⟨hw, hl⟩ := id h
  obtain ⟨_, -, -, -, e⟩ | ⟨v, s', -, -, hw', e⟩ | e := busRegister_cases off acc s <;> rw [e]
  · exact h
  · obtain ⟨-, ⟨-, rfl⟩ | ⟨x, i, -, hi, -, rfl⟩⟩ := busWrite_cases hw'
    · exact h
    · obtain ⟨-, -, hlastr, hlastrv, -, hcfg⟩ := setBig_frame s x (withBigWord (s.big x) i v)
        (if x.isKey then false else s.keyst) (some .okWrite)
      rw [LegalRegs, respond, hlastr, hlastrv, hcfg]
      exact ⟨widths_setBig hw x (withBigWord_lt v (hw x) hi), hl⟩
  · exact h

theorem effect_legalRegs {s t : State} {i : Instr} (he : Effect s i t) (h : LegalRegs s) : LegalRegs t := by
  obtain ⟨hw, hl⟩ := id h
  have horder {n : Nat} (ho : OrderIs s.cfg n) : n < 2 ^ s.cfg.nbits := by
    obtain ⟨-, -, hlt⟩ := ho
    exact hlt
  have hN {n : Nat} (ho : OrderIs s.cfg n) := widths_setBig hw .n (horder ho)
  cases he
  case softReset =>
    have hpos : 0 < 2 ^ s.cfg.nbits := Nat.two_pow_pos _
    exact ⟨fun x => by cases x <;> exact hpos, hpos, nofun⟩
  case computed t _ ht _ => exact ⟨widths_setBig hw .t (ht.trans (hw .m)), hl⟩
  case keyMade n d ho hd =>
    obtain ⟨hx, hy⟩ : (grpScalarMultiply s.cfg d (grpBasePoint s.cfg)).x < 2 ^ s.cfg.nbits
        ∧ (grpScalarMultiply s.cfg d (grpBasePoint s.cfg)).y < 2 ^ s.cfg.nbits := portElement_fits _ _
    have hlt : d < 2 ^ s.cfg.nbits := by have := horder ho; omega
    exact ⟨widths_setBig (widths_setBig (widths_setBig (hN ho) .d hlt) .qx hx) .qy hy, hl⟩
  case signed n m r sv ho _ _ hr hrn hs hsn =>
    have hn := horder ho
    have hrlt : r < 2 ^ s.cfg.nbits := by omega
    have hslt : sv < 2 ^ s.cfg.nbits := by omega
    exact ⟨widths_setBig (widths_setBig (hN ho) .r hrlt) .s hslt, hrlt, fun _ => hr⟩
  case malformed n ho => exact ⟨hN ho, hl⟩
  case answered n _ ho => exact ⟨hN ho, hl⟩
  case failedLate ho _ _ _ _ => exact ⟨hN ho, hl⟩
  all_goals exact h

/-! ### The DIGEST unit -/

theorem legalDigest_congr {s t : State} (h : SameDigest s t) (hs : LegalDigest s) : LegalDigest t := by
  obtain ⟨-, hbuf, hlen, hhashing, hdvalid⟩ := h
  rw [LegalDigest, hbuf, hlen, hhashing, hdvalid]
  exact hs

/-- One byte more, in an open call below the limit. -/
theorem appendByte_legalDigest {s : State} (x : Byte) (ho : s.hashing = true) (hlen : s.len.toNat + 8 < 2 ^ 64)
    (h : LegalDigest s) : LegalDigest (appendByte s x) := by
  obtain ⟨hlt, hb, h8, hd⟩ := h
  rw [if_pos ho] at hb
  have hlen' : (s.len + 8).toNat = s.len.toNat + 8 := len_add_toNat (k := 8) hlen
  rw [appendByte]
  split
  · refine ⟨Nat.succ_pos 63, ?_, ?_, hd⟩
    · rw [if_pos ho, hlen', List.length_nil]
      omega
    · rw [hlen']
      omega
  · have hm : (s.mbuf ++ [x]).length = s.mbuf.length + 1 := by simp
    refine ⟨?_, ?_, ?_, hd⟩
    · rw [hm]
      omega
    · rw [if_pos ho, hlen', hm]
      omega
    · rw [hlen']
      omega

theorem foldl_legalDigest (bs : List Byte) {s : State} (ho : s.hashing = true)
    (hlen : s.len.toNat + 8 * bs.length < 2 ^ 64) (h : LegalDigest s) : LegalDigest (bs.foldl appendByte s) := by
  induction bs generalizing s with
  | nil => exact h
  | cons x bs ih =>
    rw [List.length_cons] at hlen
    obtain ⟨_, _, e⟩ := appendByte_eq s x
    have hlen' : (s.len + 8).toNat = s.len.toNat + 8 := len_add_toNat (k := 8) (by omega)
    refine ih ?_ ?_ (appendByte_legalDigest x ho (by omega) h)
    · rw [e]
      exact ho
    · rw [e, hlen']
      omega

theorem effect_legalDigest {s t : State} {i : Instr} (he : Effect s i t) (h : LegalDigest s) : LegalDigest t := by
  obtain ⟨-, -, hbytes, -⟩ := id h
  cases he
  case softReset => exact ⟨Nat.succ_pos 63, rfl, rfl, nofun⟩
  case opened => exact ⟨Nat.succ_pos 63, by simp, rfl, nofun⟩
  case pushed bs _ _ _ ho hlen e _ => exact e ▸ foldl_legalDigest bs ho hlen h
  case closed => exact ⟨Nat.succ_pos 63, rfl, hbytes, fun _ => rfl⟩
  all_goals exact h

/-! ### The result flags -/

theorem exec_legalFlags {i : Instr} {s t : State} (h : exec i s = .next t) : LegalFlags t := by
  obtain ⟨hop, hv, hm, hr, he, -⟩ := resultFlagsDescribeTheLastCommand i s t h
  refine ⟨?_, fun hset => ?_, fun hset => ?_, fun hset => ?_⟩
  · by_cases herr : t.errf = true
    · rw [if_pos herr] at he ⊢
      obtain ⟨e, -, hcode⟩ := he
      exact ⟨e, hcode⟩
    · rw [if_neg herr] at he ⊢
      exact he
  · obtain ⟨rfl, hrest⟩ := hv hset
    exact ⟨hop, hrest⟩
  · obtain ⟨rfl, hrest⟩ := hm hset
    exact ⟨hop, hrest⟩
  · obtain ⟨rfl, hrest⟩ := hr hset
    exact ⟨hop, hrest⟩

theorem legalFlags_congr {s t : State} (h : SameFlags s t) (hs : LegalFlags s) : LegalFlags t := by
  obtain ⟨hv, hm, hr, he, hc, hl⟩ := h
  rw [LegalFlags, hv, hm, hr, he, hc, hl]
  exact hs

/-! ### The invariant -/

theorem legal_resetWith {p : Params} (h : p.legal = true) : Legal (State.resetWith p) := by
  have hpos : 0 < 2 ^ p.nbits := Nat.two_pow_pos _
  exact (legal_iff _).2 ⟨h, ⟨fun x => by cases x <;> exact hpos, hpos, nofun⟩, ⟨Nat.succ_pos 63, rfl, rfl, nofun⟩,
    rfl, nofun, nofun, nofun⟩

theorem digestMeaning_resetWith (p : Params) : DigestMeaning (State.resetWith p) := ⟨nofun, nofun⟩

/-- Settles O59: `legal_resetWith` and `digestMeaning_resetWith`. -/
theorem resetIsLegal : Obligations.ResetIsLegal := by
  unfold Obligations.ResetIsLegal
  exact ⟨fun p hp => ⟨legal_resetWith hp, digestMeaning_resetWith p⟩, legal_resetWith rfl, digestMeaning_resetWith _⟩

/-- Settles O58: the cases of the step. A reset leaves the reset state; a command is legal by `effect_legalRegs`,
`effect_legalDigest` and `exec_legalFlags`; a register access writes at most one word of a register. -/
theorem stepsKeepTheStateLegal : Obligations.StepsKeepTheStateLegal := by
  unfold Obligations.StepsKeepTheStateLegal
  intro s t hs h
  have hcfg : t.cfg.legal = true := by rw [step_cfg h]; exact hs.params
  obtain ⟨-, hregs, hdigest, hflags⟩ := (legal_iff s).1 hs
  rw [legal_iff]
  refine ⟨hcfg, ?_⟩
  obtain ⟨-, rfl⟩ | ⟨_, _, -, -, _, rfl⟩
    | ⟨_, rest, -, ⟨-, rfl⟩ | ⟨_, _, _, -, -, he⟩ | ⟨_, _, -, -, he⟩ | ⟨off, -, rfl⟩⟩ := step_cases h
  · exact ⟨hregs, hdigest, hflags⟩
  · exact ((legal_iff _).1 (legal_resetWith hs.params)).2
  · exact ⟨hregs, hdigest, hflags⟩
  · exact ⟨effect_legalRegs (exec_effect he) hregs, effect_legalDigest (exec_effect he) hdigest, exec_legalFlags he⟩
  · cases he
    exact ⟨hregs, hdigest, ⟨.illegalCommand, rfl⟩, nofun, nofun, nofun⟩
  · obtain ⟨hdigest', hflags', -⟩ := busRegister_frame off _ { s with pending := rest }
    exact ⟨busRegister_legalRegs off _ hregs, legalDigest_congr (s := s) hdigest' hdigest,
      legalFlags_congr (s := s) hflags' hflags⟩

end Sys2Proof.Proofs
end

section
/-!
PROOFS. The modular arithmetic unit (spec/40_modarith.md): the contract of `ModInverse` (R112), its signals (R114) and
laws (R117), and MODINV (R115). All come from one equivalence: for a modulus above 1 a result is the number below the
modulus whose product with the argument is 1 modulo it.
-/
namespace Sys2Proof.Proofs

open Sys2Proof Sys2Proof.Machine

/-! ## The contract -/

/-- Two inverses below the modulus are equal: `t - u = u * (a * t - 1) - t * (a * u - 1)`. -/
theorem inverse_unique {a m t u : Int} (ht : m ∣ a * t - 1) (hu : m ∣ a * u - 1) (ht0 : 0 ≤ t) (htm : t < m)
    (hu0 : 0 ≤ u) (hum : u < m) : t = u := by
  have hdvd : m ∣ u - t := by
    have h := dvd_sub (ht.mul_left u) (hu.mul_left t)
    rw [← dvd_neg]
    convert h using 1
    ring
  rw [eq_modInt_of_dvd_sub ht0 htm hdvd, ← eq_modInt_of_dvd_sub hu0 hum (by simp)]

/-- An argument with an inverse is coprime to the modulus. -/
theorem gcd_eq_one_of_dvd {a m t : Int} (h : m ∣ a * t - 1) : Int.gcd a m = 1 := by
  obtain ⟨k, hk⟩ := h
  exact Int.isCoprime_iff_gcd_eq_one.1 ⟨t, -k, by linear_combination hk⟩

/-- For a modulus above 1 a result exists exactly for a coprime argument. -/
theorem exists_modInverse_iff {a m : Int} (hm : 1 < m) : (∃ t, modInverse a m = .ok t) ↔ Int.gcd a m = 1 := by
  constructor
  · rintro ⟨t, ht⟩
    rw [modInverse_eq a hm] at ht
    by_contra hg
    rw [if_pos hg] at ht
    split at ht <;> cases ht
  · intro hg
    obtain ⟨t, ht, -⟩ := modInverse_of_gcd hm hg
    exact ⟨t, ht⟩

/-- What a result is, for a modulus above 1. -/
theorem modInverse_eq_ok_iff {a m : Int} {t : Nat} (hm : 1 < m) :
    modInverse a m = .ok t ↔ (t : Int) < m ∧ m ∣ a * t - 1 := by
  constructor
  · intro h
    obtain ⟨u, hu, hlt, hdvd⟩ := modInverse_of_gcd hm ((exists_modInverse_iff hm).1 ⟨t, h⟩)
    cases h.symm.trans hu
    exact ⟨hlt, hdvd⟩
  · rintro ⟨hlt, hdvd⟩
    obtain ⟨u, hu, hlt', hdvd'⟩ := modInverse_of_gcd hm (gcd_eq_one_of_dvd hdvd)
    have : (t : Int) = u := inverse_unique hdvd hdvd' (by omega) hlt (by omega) hlt'
    rw [hu, Int.ofNat_inj.1 this]

/-- 0 is the inverse of nothing. -/
theorem ne_zero_of_inverse {a m t : Int} (hm : 1 < m) (h : m ∣ a * t - 1) : t ≠ 0 := by
  rintro rfl
  have := Int.le_of_dvd one_pos ((dvd_neg (a := m)).1 (by simpa using h))
  omega

/-- Settles O27: `modInverse_eq_ok_iff`, `inverse_unique` and `exists_modInverse_iff`. -/
theorem modInverseMeetsItsContract : Obligations.ModInverseMeetsItsContract := by
  unfold Obligations.ModInverseMeetsItsContract
  refine fun a m hm => ⟨fun t ht => ?_, by rw [gcd_modInt, exists_modInverse_iff hm]⟩
  obtain ⟨hlt, hdvd⟩ := (modInverse_eq_ok_iff hm).1 ht
  refine ⟨by omega, (modInt_eq_one hm _).2 hdvd, by exact_mod_cast ne_zero_of_inverse hm hdvd, fun u hu0 hum hu => ?_⟩
  exact inverse_unique ((modInt_eq_one hm _).1 hu) hdvd hu0 (by omega) (by omega) hlt

/-! ## The signals -/

theorem modInverse_invalid {a m : Int} (hm : m ≤ 0 ∨ m = 1) : modInverse a m = .error .invalidModulus := by
  obtain hm | rfl := hm
  · rw [modInverse, if_pos hm]
  · rfl

theorem modInverse_zero {m : Int} (hm : 2 ≤ m) : modInverse 0 m = .error .divisionByZero := by
  rw [modInverse_eq 0 (by omega), if_pos rfl]

theorem modInverse_not_coprime {a m : Int} (hm : 2 ≤ m) (ha : a ≠ 0) (hg : Int.gcd a m ≠ 1) :
    modInverse a m = .error .noInverseExists := by
  rw [modInverse_eq a (by omega), if_neg ha, if_pos hg]

/-- Settles O28: a multiple of `m` has the gcd `m` with it, so it is not coprime. -/
theorem modInverseSignalByInput : Obligations.ModInverseSignalByInput := by
  unfold Obligations.ModInverseSignalByInput
  refine fun a m => ⟨modInverse_invalid, fun hm ha => ha ▸ modInverse_zero hm, fun hm ha hdvd => ?_, fun hm ha hg => ?_,
    fun hm hg => ?_⟩
  · have hg : Int.gcd a m = m.natAbs := Int.gcd_eq_natAbs_right hdvd
    exact modInverse_not_coprime hm ha (by omega)
  · rw [gcd_modInt] at hg
    exact modInverse_not_coprime hm ha hg
  · rw [gcd_modInt] at hg
    obtain ⟨t, ht, hlt, hdvd⟩ := modInverse_of_gcd (by omega) hg
    have h0 := ne_zero_of_inverse (by omega) hdvd
    exact ⟨t, ht, by omega, by omega⟩

/-! ## The laws -/

/-- A law: the claimed result is in range and its product with the argument is 1 modulo `m`. -/
theorem modInverse_eq_ok_toNat {a m u : Int} (hm : 2 ≤ m) (h0 : 0 ≤ u) (hlt : u < m) (hdvd : m ∣ a * u - 1) :
    modInverse a m = .ok u.toNat := by
  rw [modInverse_eq_ok_iff (by omega), Int.toNat_of_nonneg h0]
  exact ⟨hlt, hdvd⟩

/-- Settles O29: each law by `modInverse_eq_ok_iff`, with the quotient written out. -/
theorem modInverseLaws : Obligations.ModInverseLaws := by
  unfold Obligations.ModInverseLaws
  refine ⟨fun a m t hm ht => ?_, fun m hm => ?_, fun p k hp hk hlt => ?_⟩
  · obtain ⟨hlt, hdvd⟩ := (modInverse_eq_ok_iff (by omega)).1 ht
    have h0 := ne_zero_of_inverse (by omega) hdvd
    obtain ⟨q, hq⟩ := dvd_sub_modInt a m
    obtain ⟨k, hk⟩ := hdvd
    refine ⟨(modInverse_eq_ok_iff (by omega)).2 ⟨hlt, k - q * t, ?_⟩,
      modInverse_eq_ok_toNat hm (modInt_nonneg a (by omega)) (modInt_lt a (by omega)) ⟨k - q * t, ?_⟩,
      modInverse_eq_ok_toNat hm (by omega) (by omega) ⟨k - a, ?_⟩⟩
    · linear_combination hk - t * hq
    · linear_combination hk - t * hq
    · linear_combination hk
  · refine ⟨(modInverse_eq_ok_iff (by omega)).2 ⟨by exact_mod_cast hm, by simp⟩,
      modInverse_eq_ok_toNat hm (by omega) (by omega) ⟨-1, by ring⟩,
      modInverse_eq_ok_toNat hm (by omega) (by omega) ⟨m - 2, by ring⟩⟩
  · have hp2 := hp.two_le
    lift k to Nat using hk.le
    refine (exists_modInverse_iff (by omega)).2 ?_
    rw [Int.gcd_natCast_natCast]
    exact (Nat.coprime_of_lt_prime (by omega) (by omega) hp).symm

/-! ## MODINV -/

/-- The sign of A plays no part in whether A is coprime to M. -/
theorem gcd_operandA (neg : Bool) (s : State) : Int.gcd (operandA neg s) (operandM s) = Nat.gcd s.regA s.regM := by
  cases neg <;> simp [operandA, operandM]

theorem operandA_ne_zero {neg : Bool} {s : State} (h : s.regA ≠ 0) : operandA neg s ≠ 0 := by
  cases neg <;> simpa [operandA] using h

/-- Settles O30: the inverse exists by `exists_modInverse_iff`, and only T is written. -/
theorem modinvWritesTheInverse : Obligations.ModinvWritesTheInverse := by
  unfold Obligations.ModinvWritesTheInverse
  intro neg s hM hc
  have hm : 1 < operandM s := Int.ofNat_lt.2 hM
  obtain ⟨t, ht⟩ := (exists_modInverse_iff hm).2 ((gcd_operandA neg s).trans hc)
  obtain ⟨hlt, hdvd⟩ := (modInverse_eq_ok_iff hm).1 ht
  have e : exec (.modinv neg) s = .next { beginCommand 0x20 s with regT := t } := by
    have ht' : modInverse (operandA neg (beginCommand 0x20 s)) (operandM (beginCommand 0x20 s)) = .ok t := ht
    rw [exec_modinv, invertA, ht']
  exact ⟨_, e, ⟨rfl, rfl, rfl, rfl, rfl, rfl⟩, Int.ofNat_lt.1 hlt, (modInt_eq_one hm _).2 hdvd, rfl, rfl, rfl,
    ⟨rfl, rfl, rfl, rfl, rfl⟩, ⟨rfl, rfl, rfl, rfl, rfl⟩, ⟨rfl, rfl, rfl, rfl⟩, ⟨rfl, rfl⟩, ⟨rfl, rfl, rfl⟩⟩

/-- A signal of `ModInverse` is the error of MODINV. -/
theorem invertA_of_error {neg : Bool} {op : Byte} {s : State} {e : Err}
    (h : modInverse (operandA neg s) (operandM s) = .error e) :
    invertA neg (beginCommand op s) = raise e (beginCommand op s) := by
  have h' : modInverse (operandA neg (beginCommand op s)) (operandM (beginCommand op s)) = .error e := h
  rw [invertA, h']

section
variable (neg : Bool) {s : State}

theorem modInverse_operands_invalid (h : s.regM ≤ 1) :
    modInverse (operandA neg s) (operandM s) = .error .invalidModulus :=
  modInverse_invalid (by rw [operandM]; omega)

theorem modInverse_operands_zero (h2 : 2 ≤ s.regM) (h0 : s.regA = 0) :
    modInverse (operandA neg s) (operandM s) = .error .divisionByZero := by
  have hA : operandA neg s = 0 := by cases neg <;> simp [operandA, h0]
  rw [hA]
  exact modInverse_zero (Int.ofNat_le.2 h2)

theorem modInverse_operands_not_coprime (h2 : 2 ≤ s.regM) (h0 : s.regA ≠ 0) (hc : ¬ Nat.Coprime s.regA s.regM) :
    modInverse (operandA neg s) (operandM s) = .error .noInverseExists :=
  modInverse_not_coprime (Int.ofNat_le.2 h2) (operandA_ne_zero h0) (by rwa [gcd_operandA])

/-- The three cases of the table together. -/
theorem exists_modInverse_operands_error (h : s.regM ≤ 1 ∨ ¬ Nat.Coprime s.regA s.regM) :
    ∃ e, modInverse (operandA neg s) (operandM s) = .error e := by
  by_cases h1 : s.regM ≤ 1
  · exact ⟨_, modInverse_operands_invalid neg h1⟩
  · have h2 : 2 ≤ s.regM := by omega
    by_cases h0 : s.regA = 0
    · exact ⟨_, modInverse_operands_zero neg h2 h0⟩
    · exact ⟨_, modInverse_operands_not_coprime neg h2 h0 (h.resolve_left h1)⟩

end

/-- Settles O31: in the cases of the table MODINV ends as `ModInverse` signals, with the frame of `frame_of_raise`. -/
theorem modinvErrorsInOrder : Obligations.ModinvErrorsInOrder := by
  unfold Obligations.ModinvErrorsInOrder
  refine fun neg s => ⟨_, exec_modinv neg s, fun h => ?_, fun h2 h0 => ?_, fun h2 h0 hc => ?_, fun h => ?_⟩
  · rw [invertA_of_error (modInverse_operands_invalid neg (by omega))]
    exact (frame_of_raise _ _ s).1
  · rw [invertA_of_error (modInverse_operands_zero neg h2 h0)]
    exact (frame_of_raise _ _ s).1
  · rw [invertA_of_error (modInverse_operands_not_coprime neg h2 h0 hc)]
    exact (frame_of_raise _ _ s).1
  · obtain ⟨e, he⟩ := exists_modInverse_operands_error neg h
    obtain ⟨-, hdigest, harith, hn, hkey, hsig, hrng, hout⟩ := frame_of_raise 0x20 e s
    rw [invertA_of_error he]
    exact ⟨harith, hn, hdigest, hkey, hsig, hrng, hout⟩

end Sys2Proof.Proofs
end

section
/-!
PROOFS. The signature unit (spec/42_signature.md): KEYGEN (R166), the loop of SIGN (R169, R170, R177), VERIFY (R171)
and the round trip of R175.
-/
namespace Sys2Proof.Proofs

open Sys2Proof Sys2Proof.Machine

/-! ## KEYGEN -/

/-- Settles O46: KEYGEN ends as `generateKey_cases` says of its one draw. -/
theorem keygenMakesAKeyPair : Obligations.KeygenMakesAKeyPair := by
  unfold Obligations.KeygenMakesAKeyPair
  intro s n ho
  refine ⟨_, exec_keygen s, ?_⟩
  obtain ⟨hbad, -⟩ | ⟨m, hm, hdraw⟩ := generateKey_cases (beginCommand 0x30 s)
  · exact absurd hbad (not_bad_of_orderIs ho)
  obtain rfl := ho.unique hm
  obtain ⟨hbad, e⟩ | ⟨d, ha, h1, hn, e⟩ := hdraw <;> rw [e]
  · refine ⟨rfl, rfl, rfl, fun d ha h1 hn => ?_, fun _ => ⟨⟨rfl, rfl, rfl, rfl, rfl, rfl⟩, rfl, rfl, rfl, rfl, rfl⟩,
      ⟨rfl, rfl, rfl, rfl, rfl⟩, ⟨rfl, rfl, rfl⟩, ⟨rfl, rfl, rfl, rfl⟩, ⟨rfl, rfl, rfl⟩⟩
    lift d to Nat using by omega
    have hok : checkDraw n (rngAnswer s n) = .ok d := by rw [ha, checkDraw_ok (by omega) (by omega)]
    cases hok.symm.trans hbad
  · refine ⟨rfl, rfl, rfl, fun d' ha' _ _ => ?_, fun hbad => ?_, ⟨rfl, rfl, rfl, rfl, rfl⟩, ⟨rfl, rfl, rfl⟩,
      ⟨rfl, rfl, rfl, rfl⟩, ⟨rfl, rfl, rfl⟩⟩
    · obtain rfl : (d : Int) = d' := Option.some.inj (ha.symm.trans ha')
      exact ⟨⟨rfl, rfl, rfl, rfl, rfl, rfl⟩, rfl, rfl, rfl⟩
    · have hok : checkDraw n (rngAnswer s n) = .ok d := (congrArg _ ha).trans (checkDraw_ok h1 hn)
      cases hok.symm.trans (checkDraw_bad hbad)

/-! ## SIGN -/

theorem not_outOfRange {n v : Nat} (h1 : 1 ≤ v) (hn : v ≤ n - 1) : ¬ outOfRange n v = true := by
  rw [outOfRange_eq_true]
  omega

/-- The state in which the loop of SIGN starts: the result flags cleared, and N the order. -/
def signStart (n : Nat) (s : State) : State := { beginCommand 0x32 s with regN := n }

/-- The state in which SIGN ends with a signature, as one update. -/
theorem setSignature_signStart (n m r sv : Nat) (s : State) : setSignature r sv (afterDraws m (signStart n s)) =
    { s with
      regN := n, regR := r, regS := sv, lastr := r, lastrv := true, vres := false, malf := false
      rrep := repeatsLastR s r, errf := false, errcode := 0, lastop := 0x32, draws := s.draws.drop m
      drawCount := s.drawCount + m } := by
  simp only [setSignature, afterDraws, signStart, beginCommand]
  rfl

/-- The state in which SIGN ends in an error after its order check, as one update. -/
theorem raise_signStart (e : Err) (n m : Nat) (s : State) : raise e (afterDraws m (signStart n s)) =
    { s with
      regN := n, vres := false, malf := false, rrep := false, errf := true, errcode := e.code, lastop := 0x32
      draws := s.draws.drop m, drawCount := s.drawCount + m } := by
  simp only [raise, afterDraws, signStart, beginCommand]

section
variable {s : State} {n : Nat} (ho : OrderIs s.cfg n) (hk : s.keyst = true) (hd : s.dvalid = true)
include ho hk hd

/-- In sequence, with a good order and D in range, SIGN is its loop. -/
theorem exec_sign_of_ready (h1 : 1 ≤ s.regD) (hn : s.regD ≤ n - 1) :
    exec .sign s = .next (signLoop s.cfg.retryCap n s.regD (digestInt s.h) (signStart n s)) := by
  rw [exec_sign, signDigest, if_neg (not_missing_key_or_digest (s := beginCommand 0x32 s) hk hd),
    fetchOrder_ok (s := beginCommand 0x32 s) ho]
  exact congrArg Host.Outcome.next (if_neg (not_outOfRange h1 hn))

theorem exec_sign_of_keyRange (hr : s.regD < 1 ∨ n - 1 < s.regD) :
    exec .sign s = .next (raise .keyRange (signStart n s)) := by
  rw [exec_sign, signDigest, if_neg (not_missing_key_or_digest (s := beginCommand 0x32 s) hk hd),
    fetchOrder_ok (s := beginCommand 0x32 s) ho]
  exact congrArg Host.Outcome.next (if_pos ((outOfRange_eq_true n s.regD).2 hr))

end

theorem afterDraw_afterDraws (m : Nat) (s : State) : afterDraw (afterDraws m s) = afterDraws (m + 1) s := by
  simp only [afterDraw, afterDraws, List.tail_drop, Nat.add_assoc]

/-- An iteration whose nonce gives a signature ends the loop. -/
theorem signLoop_of_signature {n d h k r sv : Nat} {s : State} (tries : Nat) (ha : rngAnswer s n = some (k : Int))
    (h1 : 1 ≤ k) (hn : k ≤ n - 1) (ht : tryNonce s.cfg n d h k = .signature r sv) :
    signLoop (tries + 1) n d h s = setSignature r sv (afterDraw s) := by
  rw [signLoop, ha, checkDraw_ok h1 hn]
  simp only [ht]

/-- An iteration whose nonce has no inverse ends the loop. -/
theorem signLoop_of_failed {n d h k : Nat} {e : Err} {s : State} (tries : Nat) (ha : rngAnswer s n = some (k : Int))
    (h1 : 1 ≤ k) (hn : k ≤ n - 1) (ht : tryNonce s.cfg n d h k = .failed e) :
    signLoop (tries + 1) n d h s = raise e (afterDraw s) := by
  rw [signLoop, ha, checkDraw_ok h1 hn]
  simp only [ht]

/-- An iteration whose draw fails ends the loop. -/
theorem signLoop_of_bad_draw {n d h : Nat} {s : State} (tries : Nat)
    (ha : rngAnswer s n = none ∨ ∃ d : Int, rngAnswer s n = some d ∧ (d < 1 ∨ (n : Int) - 1 < d)) :
    signLoop (tries + 1) n d h s = raise .rngFailure (afterDraw s) := by
  rw [signLoop, checkDraw_bad ha]

/-- A nonce with r not 0 that is not coprime to the order fails. -/
theorem tryNonce_of_not_coprime {p : Params} {n d h k : Nat} (hn : 2 ≤ n) (h1 : 1 ≤ k) (hr : nonceR p n k ≠ 0)
    (hc : ¬ Nat.Coprime k n) : tryNonce p n d h k = .failed .noInverseExists := by
  have hr' : ¬ modNat (grpScalarMultiply p k (grpBasePoint p)).x n = 0 := by rwa [modNat_eq]
  have hi : modInverse (k : Int) (n : Int) = .error .noInverseExists :=
    modInverse_not_coprime (by omega) (by omega) (by rwa [Int.gcd_natCast_natCast])
  rw [tryNonce]
  dsimp only
  rw [if_neg hr', hi]

/-- Settles O48: the degenerate draws are consumed by `signLoop_degenerate`, and the draw after them gives the
signature of `tryNonce_signature`. -/
theorem signReturnsASignature : Obligations.SignReturnsASignature := by
  unfold Obligations.SignReturnsASignature
  intro s n m k ho hk hd h1 hn hm hdeg ha hk1 hkn hc hr hs
  obtain ⟨-, h2, -⟩ := id ho
  obtain ⟨sv, ht, hs1, hsn, heq⟩ := tryNonce_signature (p := s.cfg) (d := s.regD) h2 hc hr hs
  obtain ⟨tries, htries⟩ : ∃ tries, s.cfg.retryCap = m + (tries + 1) := ⟨s.cfg.retryCap - m - 1, by omega⟩
  have hloop : signLoop s.cfg.retryCap n s.regD (digestInt s.h) (signStart n s)
      = setSignature (nonceR s.cfg n (k m)) sv (afterDraws (m + 1) (signStart n s)) := by
    rw [htries, signLoop_degenerate (s := signStart n s) h2 (tries + 1) m k hdeg, ← afterDraw_afterDraws]
    exact signLoop_of_signature (s := afterDraws m (signStart n s)) tries ha hk1 hkn ht
  refine ⟨_, exec_sign_of_ready ho hk hd h1 hn, ?_⟩
  rw [hloop, setSignature_signStart]
  exact ⟨rfl, rfl, rfl, rfl, rfl, rfl, rfl, rfl, hs1, hsn, heq, rfl, rfl, rfl, rfl, ⟨rfl, rfl, rfl, rfl, rfl⟩,
    ⟨rfl, rfl, rfl, rfl, rfl⟩, ⟨rfl, rfl, rfl⟩, ⟨rfl, rfl, rfl⟩⟩

/-- Settles O49: after `retryCap` degenerate draws no iteration is left. -/
theorem signEndsWhenRetriesAreExhausted : Obligations.SignEndsWhenRetriesAreExhausted := by
  unfold Obligations.SignEndsWhenRetriesAreExhausted
  intro s n k ho hk hd h1 hn hdeg
  obtain ⟨-, h2, -⟩ := id ho
  have hloop : signLoop s.cfg.retryCap n s.regD (digestInt s.h) (signStart n s)
      = raise .retryExhausted (afterDraws s.cfg.retryCap (signStart n s)) :=
    signLoop_degenerate (s := signStart n s) h2 0 s.cfg.retryCap k hdeg
  refine ⟨_, exec_sign_of_ready ho hk hd h1 hn, ?_⟩
  rw [hloop, raise_signStart]
  exact ⟨⟨rfl, rfl, rfl, rfl, rfl, rfl⟩, rfl, rfl, rfl, ⟨rfl, rfl, rfl, rfl, rfl⟩, ⟨rfl, rfl, rfl, rfl⟩,
    ⟨rfl, rfl, rfl, rfl, rfl⟩, ⟨rfl, rfl, rfl⟩, ⟨rfl, rfl, rfl⟩⟩

/-- Settles O50: KeyRange by `exec_sign_of_keyRange`; RETRY_CAP is at least 1, so the first iteration runs, and ends
in the error of its draw or of its nonce. -/
theorem signErrorsInOrder : Obligations.SignErrorsInOrder := by
  unfold Obligations.SignErrorsInOrder
  intro s n ho hk hd hl
  obtain ⟨-, h2, -⟩ := id ho
  obtain ⟨tries, htries⟩ := Nat.exists_eq_add_of_le' (one_le_retryCap hl)
  have hready (h1 : 1 ≤ s.regD) (hn : s.regD ≤ n - 1) : signDigest (beginCommand 0x32 s)
      = signLoop (tries + 1) n s.regD (digestInt s.h) (signStart n s) := by
    rw [← htries]
    exact Host.Outcome.next.inj (exec_sign_of_ready ho hk hd h1 hn)
  refine ⟨_, exec_sign s, signDigest_regN (s := beginCommand 0x32 s) ho hk hd, fun hr => ?_, fun h1 hn ha => ?_,
    fun k h1 hn ha hk1 hkn hr hc => ?_⟩
  · rw [Host.Outcome.next.inj (exec_sign_of_keyRange ho hk hd hr)]
    exact ⟨⟨rfl, rfl, rfl, rfl, rfl, rfl⟩, rfl, rfl⟩
  · rw [hready h1 hn, signLoop_of_bad_draw (s := signStart n s) tries ha]
    exact ⟨⟨rfl, rfl, rfl, rfl, rfl, rfl⟩, rfl, rfl, rfl, rfl⟩
  · have ht := tryNonce_of_not_coprime (p := s.cfg) (d := s.regD) (h := digestInt s.h) h2 hk1 hr hc
    rw [hready h1 hn, signLoop_of_failed (s := signStart n s) tries ha hk1 hkn ht]
    exact ⟨⟨rfl, rfl, rfl, rfl, rfl, rfl⟩, rfl, rfl, rfl, rfl⟩

/-- Settles O51: the effects that SIGN can have. -/
theorem signDrawsAtMostRetryCap : Obligations.SignDrawsAtMostRetryCap := by
  unfold Obligations.SignDrawsAtMostRetryCap
  intro s t h
  cases exec_effect h
  case pushed hbs => cases hbs
  case computed hi => obtain hi | hi := hi <;> cases hi
  case signed n m r sv ho hm hcap hr hrn hs hsn => exact ⟨m, hcap, rfl, rfl, fun _ => hm⟩
  case failed e he => exact ⟨0, Nat.zero_le _, rfl, rfl, nofun⟩
  case failedLate e n m ho hi he hverify hsign => exact ⟨m, hsign rfl, rfl, rfl, nofun⟩

/-- A loop without error ended at the nonce that gave the signature. -/
theorem signLoop_success {n d h tries : Nat} {s : State} (he : (signLoop tries n d h s).errf = false) :
    ∃ m k r sv, 1 ≤ k ∧ k ≤ n - 1 ∧ tryNonce s.cfg n d h k = .signature r sv
      ∧ signLoop tries n d h s = setSignature r sv (afterDraws m s) := by
  obtain ⟨m, er, -, e⟩ | ⟨m, k, r, sv, -, -, h1, hn, ht, e⟩ := signLoop_nonce n d h tries s
  · rw [e] at he
    cases he
  · exact ⟨m, k, r, sv, h1, hn, ht, e⟩

/-- A SIGN without error: the order, the nonce that gave the signature, and the whole state. -/
theorem exec_sign_success {s t : State} (h : exec .sign s = .next t) (he : t.errf = false) :
    s.keyst = true ∧ s.dvalid = true ∧ ∃ n m k r sv, OrderIs s.cfg n ∧ 1 ≤ k ∧ k ≤ n - 1
      ∧ tryNonce s.cfg n s.regD (digestInt s.h) k = .signature r sv
      ∧ t = setSignature r sv (afterDraws m (signStart n s)) := by
  rw [exec_sign] at h
  cases h
  obtain ⟨-, e⟩ | ⟨hk, hd, ⟨-, e⟩ | ⟨n, ho, ⟨-, e⟩ | ⟨-, -, e⟩⟩⟩ := signDigest_cases (beginCommand 0x32 s) <;>
    rw [e] at he ⊢
  · cases he
  · cases he
  · cases he
  · obtain ⟨m, k, r, sv, h1, hn, ht, e'⟩ := signLoop_success he
    exact ⟨hk, hd, n, m, k, r, sv, ho, h1, hn, ht, e'⟩

/-- A signature lies in `[1, n-1]`. -/
theorem signature_range {p : Params} {n d h k r sv : Nat} (h1 : 1 ≤ k) (hn : k ≤ n - 1)
    (ht : tryNonce p n d h k = .signature r sv) : 1 ≤ r ∧ r ≤ n - 1 ∧ 1 ≤ sv ∧ sv ≤ n - 1 := by
  obtain e | e | ⟨r', sv', e, hrange⟩ := tryNonce_cases p d h h1 hn <;> cases ht.symm.trans e
  exact hrange

/-- Settles O52: by `exec_sign_success` the state is a function of the order and the signature, but for the draws. -/
theorem signLeavesNoTraceOfTheNonce : Obligations.SignLeavesNoTraceOfTheNonce := by
  unfold Obligations.SignLeavesNoTraceOfTheNonce
  intro s t₁ t₂ draws₁ draws₂ h₁ h₂ he₁ he₂ hr hs
  obtain ⟨-, -, n, m, k, r, sv, ho, -, -, -, rfl⟩ := exec_sign_success h₁ he₁
  obtain ⟨-, -, n', m', k', r', sv', ho', -, -, -, rfl⟩ := exec_sign_success h₂ he₂
  obtain rfl : n = n' := OrderIs.unique (p := s.cfg) ho ho'
  obtain rfl : r = r' := hr
  obtain rfl : sv = sv' := hs
  rw [setSignature_signStart, setSignature_signStart]
  rfl

/-- Settles O53: the state of `exec_sign_success`, in range by `signature_range`. -/
theorem repeatedRIsFlagged : Obligations.RepeatedRIsFlagged := by
  unfold Obligations.RepeatedRIsFlagged
  intro s t n ho h he
  obtain ⟨-, -, n', m, k, r, sv, ho', h1, hn, ht, rfl⟩ := exec_sign_success h he
  obtain rfl := ho.unique ho'
  rw [setSignature_signStart]
  exact ⟨rfl, rfl, rfl, signature_range h1 hn ht⟩

/-! ## VERIFY -/

section
variable {s : State} {n : Nat} (ho : OrderIs s.cfg n) (hk : s.keyst = true) (hd : s.dvalid = true)
  (hr1 : 1 ≤ s.regR) (hrn : s.regR ≤ n - 1) (hs1 : 1 ≤ s.regS) (hsn : s.regS ≤ n - 1)
include ho hk hd hr1 hrn hs1 hsn

theorem verifyDigest_of_inverse {w : Nat} (hw : modInverse s.regS n = .ok w) :
    verifyDigest s = { s with
      regN := n, vres := decide (modNat (verifyPoint n w { s with regN := n }).x n = s.regR) } := by
  rw [verifyDigest, if_neg (not_missing_key_or_digest hk hd), fetchOrder_ok ho]
  dsimp only
  rw [if_neg (not_or.2 ⟨not_outOfRange hr1 hrn, not_outOfRange hs1 hsn⟩), hw]

theorem verifyDigest_of_no_inverse {e : Err} (he : modInverse s.regS n = .error e) :
    verifyDigest s = raise e { s with regN := n } := by
  rw [verifyDigest, if_neg (not_missing_key_or_digest hk hd), fetchOrder_ok ho]
  dsimp only
  rw [if_neg (not_or.2 ⟨not_outOfRange hr1 hrn, not_outOfRange hs1 hsn⟩), he]

end

/-- The inverse of a natural number modulo a natural number, as a remainder. -/
theorem modInverse_natCast_eq_ok_iff {k n w : Nat} (hn : 2 ≤ n) :
    modInverse k n = .ok w ↔ w < n ∧ k * w % n = 1 := by
  have h1 : (1 : Int) < n := by omega
  rw [modInverse_eq_ok_iff h1, ← modInt_eq_one h1, modInt, Int.ofNat_lt]
  norm_cast

theorem exists_modInverse_natCast_iff {k n : Nat} (hn : 2 ≤ n) : (∃ w, modInverse k n = .ok w) ↔ Nat.Coprime k n := by
  rw [exists_modInverse_iff (by omega), Int.gcd_natCast_natCast, Nat.coprime_iff_gcd_eq_one]

/-- Settles O54: `w` is the result of `ModInverse`, and VERIFY ends as `verifyDigest_of_inverse` says. -/
theorem verifyAnswersTheEquation : Obligations.VerifyAnswersTheEquation := by
  unfold Obligations.VerifyAnswersTheEquation
  intro s n w ho hk hd hr1 hrn hs1 hsn hwn hw
  obtain ⟨-, h2, -⟩ := id ho
  have hi : modInverse s.regS n = .ok w := (modInverse_natCast_eq_ok_iff h2).2 ⟨by omega, hw⟩
  refine ⟨_, exec_verify s, ?_⟩
  rw [verifyDigest_of_inverse (s := beginCommand 0x33 s) ho hk hd hr1 hrn hs1 hsn hi]
  refine ⟨?_, rfl, rfl, rfl, rfl, rfl, rfl, ⟨rfl, rfl, rfl, rfl, rfl⟩, ⟨rfl, rfl, rfl⟩, ⟨rfl, rfl, rfl, rfl, rfl⟩,
    ⟨rfl, rfl, rfl, rfl⟩, ⟨rfl, rfl⟩, ⟨rfl, rfl, rfl⟩⟩
  simp only [decide_eq_true_eq, modNat_eq, verifyPoint]
  rfl

theorem coprime_of_prime {n k : Nat} (hp : n.Prime) (h1 : 1 ≤ k) (hn : k ≤ n - 1) : Nat.Coprime k n :=
  (Nat.coprime_of_lt_prime (by omega) (by have := hp.two_le; omega) hp).symm

/-- Settles O56: a signature out of range is MALF, an s with an inverse gives an answer, and only an s without one is
an error; a prime order has none such. -/
theorem verifyErrsOnlyForACompositeOrder : Obligations.VerifyErrsOnlyForACompositeOrder := by
  unfold Obligations.VerifyErrsOnlyForACompositeOrder
  intro s n ho hk hd
  obtain ⟨-, h2, -⟩ := id ho
  refine ⟨_, exec_verify s, ?_⟩
  by_cases hrange : 1 ≤ s.regR ∧ s.regR ≤ n - 1 ∧ 1 ≤ s.regS ∧ s.regS ≤ n - 1
  · obtain ⟨hr1, hrn, hs1, hsn⟩ := hrange
    by_cases hc : Nat.Coprime s.regS n
    · obtain ⟨w, hw⟩ := (exists_modInverse_natCast_iff h2).2 hc
      rw [verifyDigest_of_inverse (s := beginCommand 0x33 s) ho hk hd hr1 hrn hs1 hsn hw]
      exact ⟨⟨nofun, fun ⟨_, _, _, _, hno⟩ => absurd hc hno⟩, nofun, fun _ => rfl⟩
    · have hi : modInverse s.regS n = .error .noInverseExists :=
        modInverse_not_coprime (by omega) (by omega) (by rwa [Int.gcd_natCast_natCast])
      rw [verifyDigest_of_no_inverse (s := beginCommand 0x33 s) ho hk hd hr1 hrn hs1 hsn hi]
      exact ⟨⟨fun _ => ⟨hr1, hrn, hs1, hsn, hc⟩, fun _ => rfl⟩, fun _ => ⟨rfl, rfl, rfl, rfl, rfl, rfl⟩,
        fun hp => absurd (coprime_of_prime hp hs1 hsn) hc⟩
  · rw [verifyDigest_of_malformed (s := beginCommand 0x33 s) ho hk hd (show _ ∨ _ by
      simp only [beginCommand_regR, beginCommand_regS]; omega)]
    exact ⟨⟨nofun, fun ⟨hr1, hrn, hs1, hsn, _⟩ => absurd ⟨hr1, hrn, hs1, hsn⟩ hrange⟩, nofun, fun _ => rfl⟩

/-! ## The round trip -/

/-- A signature is the one of the equations of R169: `r` is the nonce's, and `s * k ≡ h + r * d`. -/
theorem signature_equations {p : Params} {n d h k r sv : Nat} (h2 : 2 ≤ n) (h1 : 1 ≤ k) (hn : k ≤ n - 1)
    (hc : Nat.Coprime k n) (ht : tryNonce p n d h k = .signature r sv) :
    r = nonceR p n k ∧ sv * k % n = (h + r * d) % n := by
  by_cases hdeg : nonceR p n k = 0 ∨ (Nat.Coprime k n ∧ (h + nonceR p n k * d) % n = 0)
  · cases ht.symm.trans (tryNonce_degenerate h2 ⟨h1, by omega, hdeg⟩)
  · rw [not_or, not_and] at hdeg
    obtain ⟨hr, hs⟩ := hdeg
    obtain ⟨sv', ht', -, -, heq⟩ := tryNonce_signature h2 hc hr (hs hc)
    cases ht.symm.trans ht'
    exact ⟨rfl, heq⟩

/-- The verification equation of a signature: `u1 + u2 * d` is the nonce (R175). -/
theorem nonce_of_signature {n d h k r sv w : Nat} (h2 : 2 ≤ n) (hs : sv * k % n = (h + r * d) % n)
    (hw : sv * w % n = 1) : (h * w % n + r * w % n * d) % n = k % n := by
  have hs' : sv * k ≡ h + r * d [MOD n] := hs
  have hw' : sv * w ≡ 1 [MOD n] := hw.trans (Nat.mod_eq_of_lt h2).symm
  calc h * w % n + r * w % n * d ≡ h * w + r * w * d [MOD n] :=
        (Nat.mod_modEq _ _).add ((Nat.mod_modEq _ _).mul_right d)
    _ = w * (h + r * d) := by ring
    _ ≡ w * (sv * k) [MOD n] := hs'.symm.mul_left w
    _ = sv * w * k := by ring
    _ ≡ 1 * k [MOD n] := hw'.mul_right k
    _ = k := Nat.one_mul k

section
variable {n k : Nat} {point : Nat → GroupElement}

theorem nonceR_eq {p : Params} (hg : CyclicGroup p n point) (hk : k < n) : nonceR p n k = (point k).x % n := by
  obtain ⟨hbase, -, hmul, -⟩ := hg
  rw [nonceR, hbase, hmul _ _ hk, Nat.mul_one]

/-- In a cyclic group VERIFY computes the point of the nonce. -/
theorem verifyPoint_eq {s : State} {w : Nat} (h2 : 2 ≤ n) (hg : CyclicGroup s.cfg n point)
    (hq : operandQ s = point s.regD) (hw : s.regS * w % n = 1)
    (hs : s.regS * k % n = (digestInt s.h + s.regR * s.regD) % n) : verifyPoint n w s = point k := by
  obtain ⟨hbase, hmod, hmul, hadd⟩ := hg
  have hlt (a : Nat) : a % n < n := Nat.mod_lt a (by omega)
  rw [verifyPoint, modNat_eq, modNat_eq, hbase, hq, hmul _ _ (hlt _), hmul _ _ (hlt _), hadd, Nat.mul_one, ← hmod,
    operandH, nonce_of_signature h2 hs hw, hmod]

/-- VERIFY accepts a signature in range that satisfies the equations of R169 with some nonce. -/
theorem exec_verify_accepts {s : State} (ho : OrderIs s.cfg n) (hp : n.Prime) (hg : CyclicGroup s.cfg n point)
    (hq : operandQ s = point s.regD) (hkey : s.keyst = true) (hd : s.dvalid = true) (hkn : k < n)
    (hrange : 1 ≤ s.regR ∧ s.regR ≤ n - 1 ∧ 1 ≤ s.regS ∧ s.regS ≤ n - 1) (hr : s.regR = nonceR s.cfg n k)
    (hs : s.regS * k % n = (digestInt s.h + s.regR * s.regD) % n) :
    ∃ u, exec .verify s = .next u ∧ u.vres = true ∧ u.malf = false ∧ u.errf = false := by
  obtain ⟨hr1, hrn, hs1, hsn⟩ := hrange
  have h2 := hp.two_le
  obtain ⟨w, hw⟩ := (exists_modInverse_natCast_iff h2).2 (coprime_of_prime hp hs1 hsn)
  obtain ⟨-, hw1⟩ := (modInverse_natCast_eq_ok_iff h2).1 hw
  have hpoint : verifyPoint n w { beginCommand 0x33 s with regN := n } = point k :=
    verifyPoint_eq (s := { beginCommand 0x33 s with regN := n }) h2 hg hq hw1 hs
  refine ⟨_, exec_verify s, ?_⟩
  rw [verifyDigest_of_inverse (s := beginCommand 0x33 s) ho hkey hd hr1 hrn hs1 hsn hw, hpoint, modNat_eq,
    ← nonceR_eq hg hkn]
  exact ⟨decide_eq_true hr.symm, rfl, rfl⟩

end

/-- Settles O57: SIGN returns the signature of a nonce k, VERIFY computes the point k G, and r is its x coordinate. -/
theorem verifyAcceptsWhatSignReturns : Obligations.VerifyAcceptsWhatSignReturns := by
  unfold Obligations.VerifyAcceptsWhatSignReturns
  intro s t n point ho hp hg hq h he
  obtain ⟨hkey, hd, n', m, k, r, sv, ho', h1, hn, ht, rfl⟩ := exec_sign_success h he
  obtain rfl := ho.unique ho'
  obtain ⟨hr, hs⟩ := signature_equations hp.two_le h1 hn (coprime_of_prime hp h1 hn) ht
  rw [setSignature_signStart]
  exact exec_verify_accepts ho hp hg hq hkey hd (by omega) (signature_range h1 hn ht) hr hs

end Sys2Proof.Proofs
end
